-- ==== Sys2Proof/Word.lean ====
section
/-! DEFINITION. The two word types of the core: a byte of a buffer and a 32-bit host register. -/

namespace Sys2Proof

/-- A byte of IMAGE, IN_BUF or OUT_BUF (00_scope.md R9). -/
abbrev Byte := BitVec 8

/-- The value of a host-visible register (10_state.md R34). -/
abbrev Word := BitVec 32

end Sys2Proof
end

