-- ==== Sys2Proof/Config.lean ====
section
/-! DEFINITION. The configuration record of 00_scope.md R7, its reference values, and the free values
of the model. The record is an argument of the model, carried in State (log entry 1). -/

namespace Sys2Proof

/-- The order in which codeword bits fill bytes (00_scope.md R7, BIT_ORDER). -/
inductive BitOrder where
  | lsbFirst
  | msbFirst
deriving DecidableEq, Repr

/-- The configuration record: one field per row of the table of 00_scope.md R7. -/
structure Config where
  bitOrder : BitOrder
  minWidth : Nat
  maxWidth : Nat
  resetCode : Nat
  endCode : Nat
  firstFree : Nat
  dictLimit : Nat
  rleMarker : Byte
  rleBias : Nat
  rleMinRun : Nat
  rleMaxRun : Nat
  imgLen : Nat
  inCap : Nat
  outCap : Nat
deriving DecidableEq, Repr

/-- The reference values of 00_scope.md R7. IMG_LEN, IN_CAP and OUT_CAP are OPEN there.
DESIGN CHOICE (log entry 2): an instance with an empty image and buffers of the greatest capacity. -/
def Config.reference : Config where
  bitOrder := .lsbFirst
  minWidth := 9
  maxWidth := 12
  resetCode := 0x100
  endCode := 0x101
  firstFree := 0x102
  dictLimit := 0x1000
  rleMarker := 0xFF
  rleBias := 0
  rleMinRun := 4
  rleMaxRun := 255
  imgLen := 0
  inCap := 2 ^ 28
  outCap := 2 ^ 28

/-- The three byte address spaces (20_memory.md R50). -/
inductive Space where
  | image
  | inBuf
  | outBuf
deriving DecidableEq, Repr

/-- The free value of a byte the spec leaves unspecified ("any value", 93_implementation_defined.md I5
and I12): the space, a stamp that tells one unspecified content from another, and the address.
It has no body, so no proof can see what it is (log entries 3 and 4). -/
opaque Config.freeByte (space : Space) (stamp address : Nat) : Byte

end Sys2Proof
end

