-- ==== Sys2Proof/Syntax.lean ====
section
/-! DEFINITION. The instructions of the core: one constructor of Instr per row of
spec/opcode_table.json (30_encoding.md R70), and the lines of the assembler syntax (R82 to R84). -/

namespace Sys2Proof

/-- Why a codeword value is INVALID (41_codeword_stream.md R113). -/
inductive InvalidCause where
  | reservedCode
  | firstNotLiteral
  | dictionaryFull
  | undefinedReference
deriving DecidableEq, Repr

/-- What follows the marker byte of an escape sequence (30_encoding.md R76, 44_rle.md R173). -/
inductive EscBody where
  /-- the count byte and the fill byte -/
  | whole (n f : Byte)
  /-- the input ends after the marker, or after the marker and one more byte -/
  | cut (n : Option Byte)
deriving DecidableEq, Repr

/-- The kinds of codeword (00_scope.md R12, 41_codeword_stream.md R113), with their operands. -/
inductive CwKind where
  | reset
  | endStream
  | lit (b : Byte)
  | ref (c : Nat)
  | kwk (c : Nat)
  | invalid (c : Nat) (cause : InvalidCause)
deriving DecidableEq, Repr

/-- The kinds of RLE token (30_encoding.md R76). -/
inductive Token where
  | rlit (b : Byte)
  | esc (body : EscBody)
deriving DecidableEq, Repr

/-- The instructions. The first sixteen are host commands (30_encoding.md R80), the next six
codewords (R72), the last two RLE tokens (R76). A codeword or dictionary index is a natural number
below 2^16 (00_scope.md R9). -/
inductive Instr where
  | readBits
  | writeBits
  | readCodewords
  | packCodewords
  | lzwDecode
  | lzwEncode
  | rleDecode
  | rleEncode
  | decompress
  | compress
  | softReset
  | reserved0
  | reservedB
  | reservedC
  | reservedD
  | reservedE
  | reset
  | endStream
  | lit (b : Byte)
  | ref (c : Nat)
  | kwk (c : Nat)
  | invalid (c : Nat) (cause : InvalidCause)
  | rlit (b : Byte)
  | esc (body : EscBody)
deriving DecidableEq, Repr

/-- One line of a codeword-stream program (30_encoding.md R82), and the pseudo-instruction LITS of
R84. Operands are as written, before the assembler's checks. -/
inductive CwLine where
  | lit (b : Nat)
  | ref (c : Nat)
  | kwk (c : Nat)
  | reset
  | endStream
  | word (c : Nat)
  | lits (bs : List Nat)
deriving DecidableEq, Repr

/-- One line of an RLE token program (30_encoding.md R83), and the pseudo-instructions of R84. -/
inductive RleLine where
  | lit (b : Byte)
  | run (n : Nat) (b : Byte)
  | escm
  | str (text : List Byte)
  | runs (n : Nat) (b : Byte)
deriving DecidableEq, Repr

end Sys2Proof
end

