-- ==== Sys2Proof/WellFormed.lean ====
section
/-! DEFINITION. Well-formed configurations (00_scope.md R8) and well-formed instructions: the
conditions of the opcode maps of 30_encoding.md R72 and R76. -/

namespace Sys2Proof

/-- 00_scope.md R8, line by line. RLE_MARKER is a byte by its type, BIT_ORDER one of two by its type. -/
def Config.wf (cfg : Config) : Bool :=
  decide (1 ≤ cfg.minWidth ∧ cfg.minWidth ≤ cfg.maxWidth ∧ cfg.maxWidth ≤ 16
    ∧ cfg.resetCode ≠ cfg.endCode
    ∧ 256 ≤ cfg.resetCode ∧ cfg.resetCode < cfg.firstFree
    ∧ 256 ≤ cfg.endCode ∧ cfg.endCode < cfg.firstFree
    ∧ cfg.firstFree = 258
    ∧ cfg.firstFree < 2 ^ cfg.minWidth
    ∧ cfg.dictLimit = 2 ^ cfg.maxWidth
    ∧ cfg.rleBias = 0
    ∧ 4 ≤ cfg.rleMinRun ∧ cfg.rleMinRun ≤ cfg.rleMaxRun ∧ cfg.rleMaxRun ≤ 255
    ∧ cfg.imgLen ≤ 2 ^ 28 ∧ cfg.inCap ≤ 2 ^ 28 ∧ cfg.outCap ≤ 2 ^ 28)

/-- A codeword value that is neither control code and lies outside the reserved range 256..FIRST_FREE-1. -/
def Config.isData (cfg : Config) (c : Nat) : Bool :=
  decide (c ≠ cfg.resetCode ∧ c ≠ cfg.endCode ∧ (c ≤ 255 ∨ cfg.firstFree ≤ c))

/-- The instruction can stand at codeword index `j`: the conditions of the tables of
30_encoding.md R72 (codewords, with N(J) = FIRST_FREE + max(0, J - 1)) and R76 (tokens). A host
command has no operand and is always well formed. -/
def Instr.wfAt (cfg : Config) (j : Nat) : Instr → Bool
  | .readBits | .writeBits | .readCodewords | .packCodewords | .lzwDecode | .lzwEncode => true
  | .rleDecode | .rleEncode | .decompress | .compress | .softReset => true
  | .reserved0 | .reservedB | .reservedC | .reservedD | .reservedE => true
  | .reset | .endStream => true
  | .lit _ => decide (j = 0 ∨ cfg.firstFree + (j - 1) < cfg.dictLimit)
  | .ref c =>
    decide (1 ≤ j ∧ cfg.firstFree + (j - 1) < cfg.dictLimit
      ∧ cfg.firstFree ≤ c ∧ c < cfg.firstFree + (j - 1))
  | .kwk c =>
    decide (1 ≤ j ∧ cfg.firstFree + (j - 1) < cfg.dictLimit ∧ c = cfg.firstFree + (j - 1))
  | .invalid c .reservedCode =>
    decide (256 ≤ c ∧ c < cfg.firstFree ∧ c ≠ cfg.resetCode ∧ c ≠ cfg.endCode)
  | .invalid c .firstNotLiteral => decide (j = 0 ∧ cfg.firstFree ≤ c ∧ c < 2 ^ 16)
  | .invalid c .dictionaryFull =>
    decide (1 ≤ j ∧ cfg.firstFree + (j - 1) = cfg.dictLimit ∧ cfg.isData c ∧ c < 2 ^ 16)
  | .invalid c .undefinedReference =>
    decide (1 ≤ j ∧ cfg.firstFree + (j - 1) < cfg.dictLimit
      ∧ cfg.firstFree + (j - 1) < c ∧ c < 2 ^ 16)
  | .rlit b => decide (b ≠ cfg.rleMarker)
  | .esc _ => true

end Sys2Proof
end

