-- ==== Sys2Proof/Decode.lean ====
section
/-! DEFINITION. The decoder of the three groups of instructions (30_encoding.md), the width schedule and
the classification it needs (41_codeword_stream.md R110 to R113), the encoder, and the assembler of
30_encoding.md R82 to R84. -/

namespace Sys2Proof

/-! ## The width schedule -/

/-- The number of bits needed to write `x` (00_scope.md R9). -/
def bitlen (x : Nat) : Nat := if x = 0 then 0 else x.log2 + 1

/-- `ceil_div` (00_scope.md R9). -/
def ceilDiv (a b : Nat) : Nat := (a + b - 1) / b

/-- N(J) = FIRST_FREE + max(0, J - 1), with the subtraction of naturals (41_codeword_stream.md R110). -/
def nextCode (cfg : Config) (j : Nat) : Nat := cfg.firstFree + (j - 1)

/-- nextJ(c, J) (41_codeword_stream.md R110). -/
def nextIndex (cfg : Config) (c j : Nat) : Nat := if c = cfg.resetCode then 0 else j + 1

/-- W(J) (41_codeword_stream.md R111). -/
def widthAt (cfg : Config) (j : Nat) : Nat :=
  min cfg.maxWidth (max cfg.minWidth (bitlen (nextCode cfg j)))

/-! ## Decoding -/

/-- classify(c, J), the tests in the order of 41_codeword_stream.md R113. It reads only the value, the
index and the configuration (R114). -/
def classify (cfg : Config) (c j : Nat) : CwKind :=
  if c = cfg.resetCode then .reset
  else if c = cfg.endCode then .endStream
  else if 256 ≤ c ∧ c < cfg.firstFree then .invalid c .reservedCode
  else if j = 0 then
    if c ≤ 255 then .lit (BitVec.ofNat 8 c) else .invalid c .firstNotLiteral
  else if nextCode cfg j = cfg.dictLimit then .invalid c .dictionaryFull
  else if c ≤ 255 then .lit (BitVec.ofNat 8 c)
  else if cfg.firstFree ≤ c ∧ c < nextCode cfg j then .ref c
  else if c = nextCode cfg j then .kwk c
  else .invalid c .undefinedReference

/-- The instruction of a codeword kind. -/
def CwKind.toInstr : CwKind → Instr
  | .reset => .reset
  | .endStream => .endStream
  | .lit b => .lit b
  | .ref c => .ref c
  | .kwk c => .kwk c
  | .invalid c cause => .invalid c cause

/-- The first RLE token of a byte sequence and the bytes after it (30_encoding.md R76). None for the
empty sequence. A marker with fewer than two bytes after it takes what there is (44_rle.md R173). -/
def decodeToken (cfg : Config) : List Byte → Option (Token × List Byte)
  | [] => none
  | b :: ys =>
    if b ≠ cfg.rleMarker then some (.rlit b, ys)
    else
      match ys with
      | [] => some (.esc (.cut none), [])
      | [n] => some (.esc (.cut (some n)), [])
      | n :: f :: rest => some (.esc (.whole n f), rest)

/-- The instruction of an RLE token. -/
def Token.toInstr : Token → Instr
  | .rlit b => .rlit b
  | .esc body => .esc body

/-- The command a CMD word starts: OPCODE = v[3:0] (30_encoding.md R79 and R80). -/
def decodeCommand (v : Word) : Instr :=
  match (v.extractLsb' 0 4).toNat with
  | 0x1 => .readBits
  | 0x2 => .writeBits
  | 0x3 => .readCodewords
  | 0x4 => .packCodewords
  | 0x5 => .lzwDecode
  | 0x6 => .lzwEncode
  | 0x7 => .rleDecode
  | 0x8 => .rleEncode
  | 0x9 => .decompress
  | 0xA => .compress
  | 0xB => .reservedB
  | 0xC => .reservedC
  | 0xD => .reservedD
  | 0xE => .reservedE
  | 0xF => .softReset
  | _ => .reserved0

/-- What a fetch hands to the decoder, one alternative per format of 30_encoding.md R70: a word written
to CMD, a codeword value, the bytes of a token stream from the current token on. -/
inductive Encoded where
  | command (v : Word)
  | codeword (c : Nat)
  | token (ys : List Byte)
deriving DecidableEq, Repr

/-- What the decoder rejects, by name. -/
inductive Reject where
  /-- a codeword value of more than 16 bits (00_scope.md R9: a Code is below 2^16) -/
  | notACode
  /-- a token stream with no byte left -/
  | emptyToken
deriving DecidableEq, Repr

/-- The decoder, total on every input. `j` is the index of the codeword (41_codeword_stream.md R110). -/
def decode (cfg : Config) (j : Nat) : Encoded → Except Reject Instr
  | .command v => .ok (decodeCommand v)
  | .codeword c => if c < 2 ^ 16 then .ok (classify cfg c j).toInstr else .error .notACode
  | .token ys =>
    match decodeToken cfg ys with
    | none => .error .emptyToken
    | some (t, _) => .ok t.toInstr

/-! ## Encoding -/

/-- The bytes of an escape sequence after its marker (30_encoding.md R76). -/
def EscBody.bytes : EscBody → List Byte
  | .whole n f => [n, f]
  | .cut none => []
  | .cut (some n) => [n]

/-- The encoding of a well-formed instruction (30_encoding.md R72, R76 and R80). The ignored bits
[31:4] of a CMD word are written as 0. -/
def encode (cfg : Config) : Instr → Encoded
  | .readBits => .command 0x1
  | .writeBits => .command 0x2
  | .readCodewords => .command 0x3
  | .packCodewords => .command 0x4
  | .lzwDecode => .command 0x5
  | .lzwEncode => .command 0x6
  | .rleDecode => .command 0x7
  | .rleEncode => .command 0x8
  | .decompress => .command 0x9
  | .compress => .command 0xA
  | .softReset => .command 0xF
  | .reserved0 => .command 0x0
  | .reservedB => .command 0xB
  | .reservedC => .command 0xC
  | .reservedD => .command 0xD
  | .reservedE => .command 0xE
  | .reset => .codeword cfg.resetCode
  | .endStream => .codeword cfg.endCode
  | .lit b => .codeword b.toNat
  | .ref c => .codeword c
  | .kwk c => .codeword c
  | .invalid c _ => .codeword c
  | .rlit b => .token [b]
  | .esc body => .token (cfg.rleMarker :: body.bytes)

/-! ## The opcode table's numbering of bits -/

/-- The encoded form of a word of spec/opcode_table.json of `nbits` bits. The row's width says its
group: a CMD word has 32 bits (or the one byte that holds the table's four fixed bits), a codeword 16,
an RLE token one to three bytes, the first at the lowest address; a one-byte word with a zero high
nibble is read as a CMD word. DESIGN CHOICE (log entry 8). -/
def tableUnit (nbits w : Nat) : Encoded :=
  if 24 < nbits then .command (BitVec.ofNat 32 w)
  else if nbits ≤ 8 ∧ w < 16 then .command (BitVec.ofNat 32 w)
  else if 8 < nbits ∧ nbits ≤ 16 then .codeword (w % 2 ^ 16)
  else .token [BitVec.ofNat 8 w, BitVec.ofNat 8 (w / 2 ^ 8), BitVec.ofNat 8 (w / 2 ^ 16)]

/-- The instruction the decoder reads from a word of the opcode table, at the reference configuration
and at codeword index 0 (the index right after reset). -/
def decodeTableWord (nbits w : Nat) : Option Instr :=
  (decode Config.reference 0 (tableUnit nbits w)).toOption

/-! ## The assembler (30_encoding.md R82 to R84) -/

/-- The codeword values of one line at codeword index `j`, or none where the assembler refuses the
line (30_encoding.md R82 and R84). -/
def assembleCwLine (cfg : Config) (j : Nat) : CwLine → Option (List Nat)
  | .lit b => if b ≤ 0xFF then some [b] else none
  | .ref c => if (Instr.ref c).wfAt cfg j then some [c] else none
  | .kwk c => if (Instr.kwk c).wfAt cfg j then some [c] else none
  | .reset => some [cfg.resetCode]
  | .endStream => some [cfg.endCode]
  | .word c => if c ≤ 0xFFFF then some [c] else none
  | .lits bs => if bs.all (· ≤ 0xFF) then some bs else none

/-- The codeword sequence of a program (30_encoding.md R82), from codeword index `j` on. -/
def assembleCw (cfg : Config) : Nat → List CwLine → Option (List Nat)
  | _, [] => some []
  | j, line :: lines =>
    (assembleCwLine cfg j line).bind fun cs =>
      (assembleCw cfg (cs.foldl (fun k c => nextIndex cfg c k) j) lines).map (cs ++ ·)

/-- The bytes of one `RUN n, b` (30_encoding.md R83). -/
def runBytes (cfg : Config) (n : Nat) (b : Byte) : List Byte :=
  [cfg.rleMarker, BitVec.ofNat 8 (n - cfg.rleBias), b]

/-- The bytes of one line of an RLE token program, or none where the assembler refuses it
(30_encoding.md R83 and R84). R84 expands RUNS only for n > 255 and does not say what the assembler does
with a smaller n. DESIGN CHOICE: it refuses the line (log entry 22). -/
def assembleRleLine (cfg : Config) : RleLine → Option (List Byte)
  | .lit b => if b = cfg.rleMarker then none else some [b]
  | .run n b => if 1 ≤ n ∧ n ≤ 255 then some (runBytes cfg n b) else none
  | .escm => some (runBytes cfg 1 cfg.rleMarker)
  | .str text => if text.contains cfg.rleMarker then none else some text
  | .runs n b =>
    if 255 < n then
      some ((List.replicate (n / 255) (runBytes cfg 255 b)).flatten
        ++ if 0 < n % 255 then runBytes cfg (n % 255) b else [])
    else none

/-- The bytes of an RLE token program (30_encoding.md R83). -/
def assembleRle (cfg : Config) : List RleLine → Option (List Byte)
  | [] => some []
  | line :: lines => (assembleRleLine cfg line).bind fun bs => (assembleRle cfg lines).map (bs ++ ·)

end Sys2Proof
end

