-- ==== Sys2Proof/Machine/State.lean ====
section
/-! DEFINITION. The state of the core (10_state.md), its errors (60_exceptions.md R220 and R221), the
model's faults and refusals, and the state after reset (10_state.md R43). -/

namespace Sys2Proof.Machine

/-! ## Errors -/

/-- The unit of an error's position: ERR.UNIT (10_state.md R37). -/
inductive PosUnit where
  | nothing
  | bit
  | codeword
  | byte
deriving DecidableEq, Repr

/-- The kinds of error (60_exceptions.md R220). -/
inductive ErrKind where
  | outOfBounds
  | corruptStream
  | encodingOverflow
  | badCommand
deriving DecidableEq, Repr

/-- The causes of the table of 60_exceptions.md R221. -/
inductive Cause where
  | bitReadPastEnd
  | offsetPastEnd
  | bitWritePastEnd
  | outputFull
  | undefinedReference
  | firstNotLiteral
  | dictionaryFull
  | missingEnd
  | rleTruncated
  | rleZeroCount
  | reservedCode
  | valueTooWide
  | illegalOpcode
  | operandOutOfRange
deriving DecidableEq, Repr

/-- An error `Err(kind, cause, unit, pos)` (60_exceptions.md R220). The cause gives the kind (R221). -/
structure Err where
  cause : Cause
  unit : PosUnit
  pos : Nat
deriving DecidableEq, Repr

/-! ## Faults and refusals of the model -/

/-- Where the model stops. Every one is safe: the spec gives the case no effect. -/
inductive Fault where
  /-- Raised by a host access to IMAGE at or above IMG_LEN, IN_BUF at or above IN_CAP or OUT_BUF at or
  above OUT_CAP: the address does not exist (20_memory.md R50 and R61). Safe (log entry 11). -/
  | noSuchAddress
  /-- Raised by REF, KWK and define on a code with no phrase: "otherwise phrase(k) is undefined, and no
  rule reads it" (10_state.md R31). Safe: no run from a well-formed state reaches it (log entry 10). -/
  | phraseUndefined
  /-- Raised by LIT and REF at J >= 1, and by KWK, with PREV = NONE (42_lzw_expander.md R133: "PREV /= NONE
  because J >= 1"). Safe: no run from a well-formed state reaches it (log entry 10). -/
  | noPreviousPhrase
  /-- Raised by define(k, p, b) where its requirement on k fails (42_lzw_expander.md R134). Safe: no run
  from a well-formed state reaches it (log entry 10). -/
  | defineRefused
  /-- Raised by END where no codeword stream runs, so that there is no decompressLZW to return from
  (42_lzw_expander.md R136). Safe: step never fetches a codeword there (log entry 10). -/
  | noStreamRunning
deriving DecidableEq, Repr

/-- What the model has no transition for. Every one is safe. -/
inductive Refusal where
  /-- Raised by an arm of exec with no meaning yet. Safe. -/
  | notModelled (mnemonic : String)
  /-- Raised by step in an ill-formed configuration: "A model refuses to instantiate the core with an
  ill-formed configuration" (00_scope.md R8). Safe (log entry 1). -/
  | illFormedConfig
  /-- Raised by a host access to REGS that is not an aligned 32-bit access: "the model has no transition
  for it" (20_memory.md R54, 93_implementation_defined.md I10). Safe. -/
  | notAnAlignedWordAccess
  /-- Raised by step on bytes the decoder rejects. Safe: step never fetches them in a well-formed state. -/
  | undecodable (why : Reject)
deriving DecidableEq, Repr

/-- Why an operation ends without a result: it raises an error of the spec, or it reaches a case to
which the spec gives no effect. -/
inductive Stop where
  | raised (e : Err)
  | fault (f : Fault)
deriving DecidableEq, Repr

/-! ## Memory and internal state -/

/-- The contents of one byte address space: the listed addresses strictly rising. An address that is
not listed has no value ("A model gives those bytes no value", 20_memory.md R53). -/
abbrev Memory := List Host.Cell

/-- A defined dictionary entry (10_state.md R30); VALID = 1 is its being in the list. -/
structure Entry where
  /-- PREFIX, the code whose phrase the entry extends -/
  parent : Nat
  /-- SUFFIX, the appended byte -/
  suffix : Byte
  /-- FIRST, the first byte of the phrase -/
  first : Byte
  /-- LEN, the length of the phrase -/
  len : Nat
deriving DecidableEq, Repr

/-- The dictionary: DICT[k] is the entry at position k - FIRST_FREE, and DICT[k].VALID = 1 for the
positions the list has. Entries are defined in ascending order with no gaps (42_lzw_expander.md R134,
43_lzw_builder.md R155). DEDUCED (log entry 9). -/
abbrev Dict := List Entry

/-- The internal registers and the dictionary (10_state.md R22 to R30), with the output sequence under
construction (42_lzw_expander.md R130, 43_lzw_builder.md R150). -/
structure Datapath where
  /-- CUR (R22) -/
  cur : Nat
  /-- OCUR (R23) -/
  ocur : Nat
  /-- J (R24) -/
  j : Nat
  /-- NXT (R25) -/
  nxt : Nat
  /-- WID (R26) -/
  wid : Nat
  /-- PREV (R27) -/
  prev : Option Nat
  /-- CAND (R28) -/
  cand : Option Nat
  /-- RUNB (R29) -/
  runb : Byte
  /-- RUNL (R29) -/
  runl : Nat
  /-- DICT (R30) -/
  dict : Dict
  /-- the output sequence where it is bytes -/
  outBytes : List Byte
  /-- the output sequence where it is codewords -/
  outCodes : List Nat
deriving DecidableEq, Repr

/-- What the END of a codeword stream returns to: LZW_DECODE's epilogue, or the RLE stage of DECOMPRESS
with the bytesRead it will report (45_commands.md R190, R200, R204). -/
inductive LzwReturn where
  | deliver
  | rle (bytesRead : Nat)
deriving DecidableEq, Repr

/-- The model's own field: the stream whose instructions step fetches (log entry 6). -/
inductive Stage where
  /-- no command in progress: step takes the next host access -/
  | idle
  /-- a codeword list is being expanded, CUR its next index -/
  | expand (ret : LzwReturn) (cws : List Nat)
  /-- an RLE token stream is being decoded, CUR its next byte index; the number is bytesRead, for DECOMPRESS -/
  | tokens (bytesRead : Option Nat) (ys : List Byte)
deriving DecidableEq, Repr

/-- What the outside of the core can do to it (log entry 7). -/
inductive HostAccess where
  /-- the host writes `size` bytes at a byte offset of REGS (10_state.md R34) -/
  | regWrite (offset size : Nat) (value : Word)
  /-- the host reads `size` bytes at a byte offset of REGS -/
  | regRead (offset size : Nat)
  /-- the host writes a byte of IN_BUF (20_memory.md R50) -/
  | inWrite (address : Nat) (value : Byte)
  /-- the host reads a byte of OUT_BUF (20_memory.md R50) -/
  | outRead (address : Nat)
  /-- the external image loader writes a byte of IMAGE (20_memory.md R50) -/
  | imageLoad (address : Nat) (value : Byte)
  /-- the power-on reset input (70_reset_and_hazards.md R251) -/
  | powerOn
deriving DecidableEq, Repr

/-- The state of the core. -/
structure State where
  /-- the configuration record (00_scope.md R7), fixed: no step changes it (log entry 1) -/
  cfg : Config
  /-- STATUS -/
  status : Word
  /-- ERR -/
  err : Word
  /-- ERR_POS -/
  errPos : Word
  /-- ARG_OFFSET -/
  argOffset : Word
  /-- ARG_WIDTH -/
  argWidth : Word
  /-- ARG_VALUE -/
  argValue : Word
  /-- IN_LEN -/
  inLen : Word
  /-- RES_VALUE -/
  resValue : Word
  /-- RES_POS -/
  resPos : Word
  /-- OUT_LEN -/
  outLen : Word
  /-- BYTES_READ -/
  bytesRead : Word
  /-- IMAGE -/
  image : Memory
  /-- IN_BUF -/
  inBuf : Memory
  /-- OUT_BUF -/
  outBuf : Memory
  /-- the internal registers and the dictionary -/
  dp : Datapath
  /-- model's own: the stream in progress (log entry 6) -/
  stage : Stage
  /-- model's own: the accesses to come from outside, in order (log entry 7) -/
  host : List HostAccess
  /-- model's own: what the host's last read returned (log entry 19) -/
  hostData : Word
  /-- model's own: how many free bytes host reads of OUT_BUF have drawn (log entry 4) -/
  draws : Nat
  /-- model's own: how many power-on resets there were, the stamp of IN_BUF's free contents (log entry 3) -/
  epoch : Nat
deriving DecidableEq, Repr

/-- What step finds to do next. -/
inductive Pending where
  /-- an instruction to decode and execute, in the state after its fetch -/
  | instr (u : Encoded) (s : State)
  /-- a host access other than a CMD write, in the state after it left the queue -/
  | access (a : HostAccess) (s : State)
  /-- the stream in progress has no unit left -/
  | streamEnd
  /-- nothing: the core is idle and no access waits -/
  | nothing
deriving DecidableEq, Repr

/-- The internal registers at their reset values (10_state.md R22 to R30 and R43). -/
def Datapath.reset (cfg : Config) : Datapath where
  cur := 0
  ocur := 0
  j := 0
  nxt := cfg.firstFree
  wid := cfg.minWidth
  prev := none
  cand := none
  runb := 0
  runl := 0
  dict := []
  outBytes := []
  outCodes := []

/-- An instance with configuration `cfg` and cartridge image `image` right after power-on reset
(10_state.md R43, 70_reset_and_hazards.md R250 and R251). -/
def State.powerOn (cfg : Config) (image : Memory) : State where
  cfg := cfg
  status := 0
  err := 0
  errPos := 0
  argOffset := 0
  argWidth := 0
  argValue := 0
  inLen := 0
  resValue := 0
  resPos := 0
  outLen := 0
  bytesRead := 0
  image := image
  inBuf := []
  outBuf := []
  dp := Datapath.reset cfg
  stage := .idle
  host := []
  hostData := 0
  draws := 0
  epoch := 0

/-- The machine right after reset, for the instance of `Config.reference` (log entries 2 and 19). -/
def State.reset : State := State.powerOn Config.reference []

end Sys2Proof.Machine
end

