-- ==== Sys2Proof/Machine/Flags.lean ====
section
/-! DEFINITION. The words of STATUS (10_state.md R36), ERR and the codes of 60_exceptions.md R221. -/

namespace Sys2Proof.Machine

/-- STATUS: [0] BUSY, [1] DONE, [2] ERROR, [31:3] reserved, read 0 (10_state.md R34). -/
def statusWord (busy done error : Bool) : Word :=
  BitVec.ofNat 32 (busy.toNat + 2 * done.toNat + 4 * error.toNat)

/-- BUSY of a STATUS word. -/
def busyFlag (w : Word) : Bool := w.getLsbD 0

/-- DONE of a STATUS word. -/
def doneFlag (w : Word) : Bool := w.getLsbD 1

/-- ERROR of a STATUS word. -/
def errorFlag (w : Word) : Bool := w.getLsbD 2

/-- ERR.UNIT (10_state.md R37). -/
def PosUnit.code : PosUnit → Nat
  | .nothing => 0
  | .bit => 1
  | .codeword => 2
  | .byte => 3

/-- ERR.KIND (10_state.md R37). -/
def ErrKind.code : ErrKind → Nat
  | .outOfBounds => 1
  | .corruptStream => 2
  | .encodingOverflow => 3
  | .badCommand => 4

/-- The kind of each cause (60_exceptions.md R221). -/
def Cause.kind : Cause → ErrKind
  | .bitReadPastEnd | .offsetPastEnd | .bitWritePastEnd | .outputFull => .outOfBounds
  | .undefinedReference | .firstNotLiteral | .dictionaryFull | .missingEnd => .corruptStream
  | .rleTruncated | .rleZeroCount | .reservedCode => .corruptStream
  | .valueTooWide => .encodingOverflow
  | .illegalOpcode | .operandOutOfRange => .badCommand

/-- ERR.CAUSE (60_exceptions.md R221). -/
def Cause.code : Cause → Nat
  | .bitReadPastEnd => 0x11
  | .offsetPastEnd => 0x12
  | .bitWritePastEnd => 0x13
  | .outputFull => 0x14
  | .undefinedReference => 0x21
  | .firstNotLiteral => 0x22
  | .dictionaryFull => 0x23
  | .missingEnd => 0x24
  | .rleTruncated => 0x25
  | .rleZeroCount => 0x26
  | .reservedCode => 0x27
  | .valueTooWide => 0x31
  | .illegalOpcode => 0x41
  | .operandOutOfRange => 0x42

/-- The cause an INVALID codeword raises (41_codeword_stream.md R113, 42_lzw_expander.md R137). -/
def invalidCause : InvalidCause → Cause
  | .reservedCode => .reservedCode
  | .firstNotLiteral => .firstNotLiteral
  | .dictionaryFull => .dictionaryFull
  | .undefinedReference => .undefinedReference

/-- The ERR word: [7:0] KIND, [15:8] CAUSE, [17:16] UNIT, [31:18] reserved, read 0 (10_state.md R34). -/
def errWord (e : Err) : Word :=
  BitVec.ofNat 32 (e.cause.kind.code + 2 ^ 8 * e.cause.code + 2 ^ 16 * e.unit.code)

end Sys2Proof.Machine
end

