-- ==== Sys2Proof/Machine/Ops.lean ====
section
/-! DEFINITION. The shared operations: byte memory, the dictionary's ports, raising an error and
completing a command (60_exceptions.md R228 to R232), the prologue and epilogue (45_commands.md R194 and
R195), reset (70_reset_and_hazards.md R250), the host's accesses (10_state.md R34), and the fetch. -/

namespace Sys2Proof.Machine

/-! ## Byte memory -/

/-- The byte listed at `k`, if one is. -/
def Memory.read? : Memory → Nat → Option Byte
  | [], _ => none
  | (a, b) :: m, k => if a = k then some b else Memory.read? m k

/-- The memory with byte `v` at `k`. -/
def Memory.write : Memory → Nat → Byte → Memory
  | [], k, v => [(k, v)]
  | (a, b) :: m, k, v =>
    if k < a then (k, v) :: (a, b) :: m
    else if k = a then (k, v) :: m
    else (a, b) :: Memory.write m k v

/-- `bytes` at the addresses from `base` on, and nothing else. -/
def Memory.ofBytesFrom : Nat → List Byte → Memory
  | _, [] => []
  | base, b :: bs => (base, b) :: Memory.ofBytesFrom (base + 1) bs

/-- `bytes` at the addresses from 0 on, and nothing else. -/
def Memory.ofBytes (bytes : List Byte) : Memory := Memory.ofBytesFrom 0 bytes

/-- The canonical form: addresses strictly rising. -/
def Memory.wf : Memory → Bool
  | [] => true
  | [_] => true
  | (a, _) :: (b, v) :: m => decide (a < b) && Memory.wf ((b, v) :: m)

/-- Every listed address is below `size`. -/
def Memory.within (size : Nat) (m : Memory) : Bool := m.all fun c => decide (c.1 < size)

/-! ## The dictionary -/

/-- DICT[k], where VALID = 1 (10_state.md R30). -/
def Dict.entry? (cfg : Config) (dict : Dict) (k : Nat) : Option Entry :=
  if k < cfg.firstFree then none else dict[k - cfg.firstFree]?

/-- phrase(k), following at most `fuel` PREFIX links. -/
def phraseFuel (cfg : Config) (dict : Dict) : Nat → Nat → Option (List Byte)
  | 0, k => if k ≤ 255 then some [BitVec.ofNat 8 k] else none
  | fuel + 1, k =>
    if k ≤ 255 then some [BitVec.ofNat 8 k]
    else
      match Dict.entry? cfg dict k with
      | none => none
      | some e => (phraseFuel cfg dict fuel e.parent).map (· ++ [e.suffix])

/-- phrase(k) (10_state.md R31); none where it is undefined. Each PREFIX is a code below the entry's own,
so `k` links are enough. -/
def phrase (cfg : Config) (dict : Dict) (k : Nat) : Option (List Byte) := phraseFuel cfg dict k k

/-- lookup(p, b) (10_state.md R32). -/
def lookup (cfg : Config) (dict : Dict) (p : Nat) (b : Byte) : Option Nat :=
  (dict.findIdx? fun e => decide (e.parent = p) && decide (e.suffix = b)).map (cfg.firstFree + ·)

/-- define(k, p, b) (42_lzw_expander.md R134). It requires FIRST_FREE <= k < DICT_LIMIT and
DICT[k].VALID = 0; with no gaps in the list that is k = FIRST_FREE + its length (log entry 9). -/
def define (cfg : Config) (k p : Nat) (b : Byte) (x : Datapath) : Except Stop Datapath :=
  if k = cfg.firstFree + x.dict.length ∧ k < cfg.dictLimit then
    match phrase cfg x.dict p with
    | none => .error (.fault .phraseUndefined)
    | some ph => .ok { x with dict := x.dict ++ [⟨p, b, ph.headD 0, ph.length + 1⟩] }
  else .error (.fault .defineRefused)

/-- J := `j`, with NXT and WID, which J determines in the decoder and the stream reader (10_state.md R24
to R26). -/
def Datapath.atIndex (cfg : Config) (j : Nat) (x : Datapath) : Datapath :=
  { x with j := j, nxt := nextCode cfg j, wid := widthAt cfg j }

/-! ## Raising an error, completing a command -/

/-- The `raise` of the pseudocode (00_scope.md R11). -/
def raise {α : Type} (cause : Cause) (unit : PosUnit) (pos : Nat) : Except Stop α :=
  .error (.raised ⟨cause, unit, pos⟩)

/-- The stop where the spec gives no effect. -/
def stuck {α : Type} (f : Fault) : Except Stop α := .error (.fault f)

/-- Error completion, the core's only trap (60_exceptions.md R228 and R231). `keep` holds for READ_BITS and
WRITE_BITS, which leave OUT_LEN and OUT_BUF as they are; for every other command OUT_LEN = 0 and OUT_BUF
has no value. ERR_POS takes the low 32 bits (R230). The internal registers end with the command
(10_state.md R41, log entry 5). -/
def raiseError (keep : Bool) (e : Err) (s : State) : State :=
  { s with
    status := statusWord false true true
    err := errWord e
    errPos := BitVec.ofNat 32 e.pos
    outLen := if keep then s.outLen else 0
    outBuf := if keep then s.outBuf else []
    dp := Datapath.reset s.cfg
    stage := .idle }

/-- Success completion (60_exceptions.md R232). ERR and ERR_POS were cleared by the prologue. -/
def complete (s : State) : State :=
  { s with status := statusWord false true false, dp := Datapath.reset s.cfg, stage := .idle }

/-- The prologue's writes (45_commands.md R194, 10_state.md R36, R37 and R41). -/
def prologue (s : State) : State :=
  { s with status := statusWord true false false, err := 0, errPos := 0, dp := Datapath.reset s.cfg }

/-- The prologue's checks (45_commands.md R194), for a command that reads IN_BUF: bytes, or codewords. -/
def checkInput (codewords : Bool) (s : State) : Except Stop Unit :=
  if s.cfg.inCap < s.inLen.toNat then raise .operandOutOfRange .nothing 0
  else if codewords && decide (s.inLen.toNat % 2 = 1) then raise .operandOutOfRange .nothing 0
  else .ok ()

/-- The epilogue (45_commands.md R195) for an output for OUT_BUF, and BYTES_READ where the command
reports one. Bytes from OUT_LEN up have no value (20_memory.md R53). -/
def deliver (output : List Byte) (bytesRead : Option Nat) (s : State) : Except Stop State :=
  if s.cfg.outCap < output.length then raise .outputFull .byte s.cfg.outCap
  else
    .ok (complete
      { s with
        outBuf := Memory.ofBytes output
        outLen := BitVec.ofNat 32 output.length
        bytesRead :=
          match bytesRead with
          | none => s.bytesRead
          | some n => BitVec.ofNat 32 n })

/-- The outcome of an operation begun in state `s`: its result, error completion, or the model's stop. -/
def finish (keep : Bool) (s : State) : Except Stop State → Host.Outcome State Fault Refusal
  | .ok t => .next t
  | .error (.raised e) => .next (raiseError keep e s)
  | .error (.fault f) => .fault f

/-- One instruction of a stream: the internal registers it leaves, or its error (which is never one of
READ_BITS or WRITE_BITS). -/
def advance (s : State) (r : Except Stop Datapath) : Host.Outcome State Fault Refusal :=
  finish false s (r.map fun x => { s with dp := x })

/-- reset() (70_reset_and_hazards.md R250): every register and the internal state; the buffers, the image
and the configuration stay. -/
def resetCore (s : State) : State :=
  { s with
    status := 0, err := 0, errPos := 0
    argOffset := 0, argWidth := 0, argValue := 0, inLen := 0
    resValue := 0, resPos := 0, outLen := 0, bytesRead := 0
    dp := Datapath.reset s.cfg
    stage := .idle }

/-- The outcome in a well-formed configuration, a refusal in any other (00_scope.md R8). -/
def whenWf (cfg : Config) (outcome : Host.Outcome State Fault Refusal) : Host.Outcome State Fault Refusal :=
  if cfg.wf then outcome else .refused .illFormedConfig

/-! ## The host's accesses -/

/-- A host write of a register other than CMD (10_state.md R34): writes to read-only registers, reserved
offsets and reserved bits are ignored. -/
def writeReg (offset : Nat) (v : Word) (s : State) : State :=
  match offset with
  | 0x10 => { s with argOffset := v }
  | 0x14 => { s with argWidth := v &&& 0x1F }
  | 0x18 => { s with argValue := v }
  | 0x1C => { s with inLen := v }
  | _ => s

/-- What a host read of a register returns (10_state.md R34): CMD and reserved offsets read 0. -/
def readReg (offset : Nat) (s : State) : Word :=
  match offset with
  | 0x04 => s.status
  | 0x08 => s.err
  | 0x0C => s.errPos
  | 0x10 => s.argOffset
  | 0x14 => s.argWidth
  | 0x18 => s.argValue
  | 0x1C => s.inLen
  | 0x20 => s.resValue
  | 0x24 => s.resPos
  | 0x28 => s.outLen
  | 0x2C => s.bytesRead
  | _ => 0

/-- An aligned 32-bit access to REGS (20_memory.md R54). -/
def alignedWord (offset size : Nat) : Bool := decide (size = 4) && decide (offset % 4 = 0)

/-- The word a host access writes to CMD, if that is what it does (10_state.md R35). -/
def commandOf : HostAccess → Option Word
  | .regWrite offset size v => if offset = 0 ∧ size = 4 then some v else none
  | _ => none

/-- A host read of OUT_BUF: the byte below OUT_LEN, and a fresh free value at or above it
(20_memory.md R53, 93_implementation_defined.md I12, log entries 4 and 13). -/
def readOut (address : Nat) (s : State) : State :=
  match if address < s.outLen.toNat then s.outBuf.read? address else none with
  | some b => { s with hostData := b.setWidth 32 }
  | none =>
    { s with hostData := (Config.freeByte .outBuf s.draws address).setWidth 32, draws := s.draws + 1 }

/-- The effect of an access from outside other than a CMD write (10_state.md R34 and R40, 20_memory.md R50 to
R54, 70_reset_and_hazards.md R251). -/
def applyAccess (a : HostAccess) (s : State) : Host.Outcome State Fault Refusal :=
  match a with
  | .regWrite offset size v =>
    if alignedWord offset size then .next (writeReg offset v s) else .refused .notAnAlignedWordAccess
  | .regRead offset size =>
    if alignedWord offset size then .next { s with hostData := readReg offset s }
    else .refused .notAnAlignedWordAccess
  | .inWrite address v =>
    if address < s.cfg.inCap then .next { s with inBuf := s.inBuf.write address v } else .fault .noSuchAddress
  | .outRead address =>
    if address < s.cfg.outCap then .next (readOut address s) else .fault .noSuchAddress
  | .imageLoad address v =>
    if address < s.cfg.imgLen then .next { s with image := s.image.write address v } else .fault .noSuchAddress
  | .powerOn => .next { resetCore s with inBuf := [], outBuf := [], epoch := s.epoch + 1 }

/-- The accesses of `IN_BUF[a..] <- bytes` (30_encoding.md R83). -/
def writeInBuf (a : Nat) : List Byte → List HostAccess
  | [] => []
  | b :: bs => .inWrite a b :: writeInBuf (a + 1) bs

/-! ## Fetch -/

/-- What comes next: of a stream in progress its unit at CUR (10_state.md R22); with the core idle, the
first waiting access, where a CMD write is an instruction (45_commands.md R192). -/
def fetch (s : State) : Pending :=
  match s.stage with
  | .idle =>
    match s.host with
    | [] => .nothing
    | a :: rest =>
      match commandOf a with
      | some v => .instr (.command v) { s with host := rest }
      | none => .access a { s with host := rest }
  | .expand _ cws =>
    match cws[s.dp.cur]? with
    | some c => .instr (.codeword c) s
    | none => .streamEnd
  | .tokens _ ys => if s.dp.cur < ys.length then .instr (.token (ys.drop s.dp.cur)) s else .streamEnd

/-- The end of a stream's units: a codeword list without END raises MISSING_END (42_lzw_expander.md R138);
the end of an RLE token stream returns its output (44_rle.md R170) to the epilogue. -/
def endOfStream (s : State) : Host.Outcome State Fault Refusal :=
  match s.stage with
  | .idle => .next s
  | .expand _ _ => finish false s (raise .missingEnd .codeword s.dp.cur)
  | .tokens bytesRead _ => finish false s (deliver s.dp.outBytes bytesRead s)

/-- The state with a table word stored where the next fetch finds it: a CMD word as the first waiting
access of an idle core; a codeword or a token at CUR of a stream in progress (log entries 7 and 8). -/
def placeWord (s : State) (nbits w : Nat) : State :=
  match tableUnit nbits w with
  | .command v => { s with stage := .idle, host := .regWrite 0 4 v :: s.host }
  | .codeword c => { s with stage := .expand .deliver (List.replicate s.dp.cur 0 ++ [c]) }
  | .token ys => { s with stage := .tokens none (List.replicate s.dp.cur 0 ++ ys) }

end Sys2Proof.Machine
end

