-- ==== Sys2Proof/Machine/Operands.lean ====
section
/-! DEFINITION. The operands of the commands (30_encoding.md R80) and the two-byte form of codeword lists
(20_memory.md R55). -/

namespace Sys2Proof.Machine

/-- The byte of IN_BUF at address `a`; a byte nothing has written since power-on is a free value, the
same at every read (20_memory.md R59, 70_reset_and_hazards.md R251, log entry 3). -/
def inByte (s : State) (a : Nat) : Byte := (s.inBuf.read? a).getD (Config.freeByte .inBuf s.epoch a)

/-- IN_BUF[0..IN_LEN-1] (20_memory.md R52). -/
def inBytes (s : State) : List Byte := (List.range s.inLen.toNat).map (inByte s)

/-- The codewords of a byte sequence, two bytes each, little-endian (20_memory.md R55). -/
def codesOfBytes : List Byte → List Nat
  | lo :: hi :: bs => (lo.toNat + 2 ^ 8 * hi.toNat) :: codesOfBytes bs
  | _ => []

/-- The IN_LEN / 2 codewords of IN_BUF (20_memory.md R55). -/
def inCodes (s : State) : List Nat := codesOfBytes (inBytes s)

/-- words16LE: the two-byte form of a codeword list (20_memory.md R55, 45_commands.md R198). -/
def words16LE (cws : List Nat) : List Byte :=
  cws.flatMap fun c => [BitVec.ofNat 8 c, BitVec.ofNat 8 (c / 2 ^ 8)]

/-- The byte of IMAGE at address `a`; a byte the loader has not written is a free value (log entry 3). -/
def imageByte (s : State) (a : Nat) : Byte := (s.image.read? a).getD (Config.freeByte .image 0 a)

/-- IMAGE (20_memory.md R51). -/
def imageBytes (s : State) : List Byte := (List.range s.cfg.imgLen).map (imageByte s)

/-- The byte of OUT_BUF at address `a`, for a command that reads it. Below OUT_LEN every byte is listed. -/
def outByte (s : State) (a : Nat) : Byte := (s.outBuf.read? a).getD (Config.freeByte .outBuf s.draws a)

/-- OUT_BUF[0..OUT_LEN-1] (20_memory.md R53). -/
def outBytes (s : State) : List Byte := (List.range s.outLen.toNat).map (outByte s)

/-- ARG_WIDTH[4:0] (45_commands.md R196). -/
def widthArg (s : State) : Nat := (s.argWidth.extractLsb' 0 5).toNat

/-- The width check of READ_BITS and WRITE_BITS (40_bitpack.md R105). -/
def checkWidth (s : State) : Except Stop Unit :=
  if widthArg s < s.cfg.minWidth ∨ s.cfg.maxWidth < widthArg s then raise .operandOutOfRange .nothing 0
  else .ok ()

end Sys2Proof.Machine
end

