-- ==== Sys2Proof/Machine/Builder.lean ====
section
/-! DEFINITION. The LZW engine, compress direction (43_lzw_builder.md), and LZW_ENCODE (45_commands.md
R201). -/

namespace Sys2Proof.Machine

/-- J := `j` in the encoder, where NXT = FIRST_FREE + J (10_state.md R25). -/
def Datapath.atEmission (cfg : Config) (j : Nat) (x : Datapath) : Datapath :=
  { x with j := j, nxt := cfg.firstFree + j, wid := widthAt cfg j }

/-- `out <- out ++ [c]` of the encoder. -/
def Datapath.emitCode (c : Nat) (x : Datapath) : Datapath :=
  { x with outCodes := x.outCodes ++ [c], ocur := x.ocur + 1 }

/-- START (43_lzw_builder.md R151). -/
def actStart (b : Byte) (x : Datapath) : Datapath := { x with cand := some b.toNat }

/-- EXTEND, to the code lookup(CAND, b) (43_lzw_builder.md R152). -/
def actExtend (k : Nat) (x : Datapath) : Datapath := { x with cand := some k }

/-- EMIT_DEFINE with CAND = `p` (43_lzw_builder.md R153 and R155). -/
def actEmitDefine (cfg : Config) (p : Nat) (b : Byte) (x : Datapath) : Except Stop Datapath :=
  (define cfg (cfg.firstFree + x.j) p b (x.emitCode p)).map fun x1 =>
    { x1 with cand := some b.toNat }.atEmission cfg (x1.j + 1)

/-- EMIT_RESET with CAND = `p` (43_lzw_builder.md R154). -/
def actEmitReset (cfg : Config) (p : Nat) (b : Byte) (x : Datapath) : Datapath :=
  { (x.emitCode p).emitCode cfg.resetCode with dict := [], cand := some b.toNat }.atEmission cfg 0

/-- The action on input byte `b` (43_lzw_builder.md R150). -/
def encodeByte (cfg : Config) (b : Byte) (x : Datapath) : Except Stop Datapath :=
  match x.cand with
  | none => .ok (actStart b x)
  | some p =>
    match lookup cfg x.dict p b with
    | some k => .ok (actExtend k x)
    | none =>
      if cfg.firstFree + x.j < cfg.dictLimit then actEmitDefine cfg p b x
      else .ok (actEmitReset cfg p b x)

/-- The encoder loop (43_lzw_builder.md R150), from the byte at CUR on. -/
def encodeLoop (cfg : Config) : List Byte → Datapath → Except Stop Datapath
  | [], x => .ok x
  | b :: bs, x => (encodeByte cfg b x).bind fun x1 => encodeLoop cfg bs { x1 with cur := x1.cur + 1 }

/-- FLUSH (43_lzw_builder.md R156). -/
def actFlush (cfg : Config) (x : Datapath) : Datapath :=
  match x.cand with
  | none => x.emitCode cfg.endCode
  | some p => (x.emitCode p).emitCode cfg.endCode

/-- compressLZW(X) (43_lzw_builder.md R150). -/
def compressLZW (cfg : Config) (bytes : List Byte) : Except Stop (List Nat) :=
  (encodeLoop cfg bytes (Datapath.reset cfg)).map fun x => (actFlush cfg x).outCodes

/-- LZW_ENCODE (45_commands.md R201). -/
def execLzwEncode (s : State) : Host.Outcome State Fault Refusal :=
  let s0 := prologue s
  finish false s0 do
    checkInput false s0
    let cws ← compressLZW s0.cfg (inBytes s0)
    deliver (words16LE cws) none s0

end Sys2Proof.Machine
end

