-- ==== Sys2Proof/Machine/Expander.lean ====
section
/-! DEFINITION. The LZW engine, decompress direction (42_lzw_expander.md): the six kinds of codeword, and
LZW_DECODE (45_commands.md R200). -/

namespace Sys2Proof.Machine

/-- What LIT, REF and KWK share: output the phrase `ph`, define N(J) := PREV with the head of `ph` where
`defines`, PREV := `c`, J := J + 1 (42_lzw_expander.md R131 to R134). -/
def emitPhrase (cfg : Config) (ph : List Byte) (c : Nat) (defines : Bool) (x : Datapath) :
    Except Stop Datapath := do
  let x1 := { x with outBytes := x.outBytes ++ ph, ocur := x.ocur + ph.length }
  let x2 ←
    if defines then
      match x1.prev with
      | none => stuck .noPreviousPhrase
      | some p => define cfg (nextCode cfg x1.j) p (ph.headD 0) x1
    else .ok x1
  pure ({ x2 with prev := some c, cur := x2.cur + 1 }.atIndex cfg (x2.j + 1))

/-- execLIT(c) (42_lzw_expander.md R131). -/
def litStep (cfg : Config) (b : Byte) (x : Datapath) : Except Stop Datapath :=
  emitPhrase cfg [b] b.toNat (decide (1 ≤ x.j)) x

/-- execREF(c) (42_lzw_expander.md R132). -/
def refStep (cfg : Config) (c : Nat) (x : Datapath) : Except Stop Datapath :=
  match phrase cfg x.dict c with
  | none => stuck .phraseUndefined
  | some ph => emitPhrase cfg ph c true x

/-- execKWK(c) (42_lzw_expander.md R133): phrase(PREV) ++ [first(PREV)], whose head is first(PREV). -/
def kwkStep (cfg : Config) (c : Nat) (x : Datapath) : Except Stop Datapath :=
  match x.prev with
  | none => stuck .noPreviousPhrase
  | some p =>
    match phrase cfg x.dict p with
    | none => stuck .phraseUndefined
    | some ph => emitPhrase cfg (ph ++ [ph.headD 0]) c true x

/-- execRESET() (42_lzw_expander.md R135). -/
def resetStep (cfg : Config) (x : Datapath) : Datapath :=
  { x with dict := [], prev := none, cur := x.cur + 1 }.atIndex cfg 0

/-- END discards the dictionary (42_lzw_expander.md R136, 10_state.md R33). -/
def endStep (x : Datapath) : Datapath := { x with dict := [], cur := x.cur + 1 }

/-- INVALID raises CorruptStream with classify's cause at the codeword's index (42_lzw_expander.md R137). -/
def invalidStep (cause : InvalidCause) (x : Datapath) : Except Stop Datapath :=
  raise (invalidCause cause) .codeword x.cur

/-- The step of a codeword of each kind (42_lzw_expander.md R130). -/
def codewordStep (cfg : Config) (k : CwKind) (x : Datapath) : Except Stop Datapath :=
  match k with
  | .invalid _ cause => invalidStep cause x
  | .reset => .ok (resetStep cfg x)
  | .endStream => .ok (endStep x)
  | .lit b => litStep cfg b x
  | .ref c => refStep cfg c x
  | .kwk c => kwkStep cfg c x

/-- The expander loop (42_lzw_expander.md R130 and R138), from the codeword at CUR on: it returns at END. -/
def expand (cfg : Config) : List Nat → Datapath → Except Stop Datapath
  | [], x => raise .missingEnd .codeword x.cur
  | c :: cws, x =>
    if classify cfg c x.j = .endStream then .ok (endStep x)
    else (codewordStep cfg (classify cfg c x.j) x).bind (expand cfg cws)

/-- decompressLZW(cws) (42_lzw_expander.md R130). -/
def decompressLZW (cfg : Config) (cws : List Nat) : Except Stop (List Byte) :=
  (expand cfg cws (Datapath.reset cfg)).map (·.outBytes)

/-- LIT as one step of the running stream (42_lzw_expander.md R131). -/
def execLit (b : Byte) (s : State) : Host.Outcome State Fault Refusal := advance s (litStep s.cfg b s.dp)

/-- REF as one step of the running stream (42_lzw_expander.md R132). -/
def execRef (c : Nat) (s : State) : Host.Outcome State Fault Refusal := advance s (refStep s.cfg c s.dp)

/-- KWK as one step of the running stream (42_lzw_expander.md R133). -/
def execKwk (c : Nat) (s : State) : Host.Outcome State Fault Refusal := advance s (kwkStep s.cfg c s.dp)

/-- RESET as one step of the running stream (42_lzw_expander.md R135). -/
def execReset (s : State) : Host.Outcome State Fault Refusal := advance s (.ok (resetStep s.cfg s.dp))

/-- INVALID as one step of the running stream (42_lzw_expander.md R137). -/
def execInvalid (cause : InvalidCause) (s : State) : Host.Outcome State Fault Refusal :=
  advance s (invalidStep cause s.dp)

/-- END as one step of the running stream (42_lzw_expander.md R136): decoding stops and the output goes to
LZW_DECODE's epilogue (45_commands.md R195 and R200), or becomes the token stream of DECOMPRESS's RLE
stage (R190), which begins with the internal registers at their reset values (log entry 15). -/
def execEndStream (s : State) : Host.Outcome State Fault Refusal :=
  match s.stage with
  | .expand .deliver _ => finish false s (deliver (endStep s.dp).outBytes none s)
  | .expand (.rle n) _ =>
    .next { s with stage := .tokens (some n) (endStep s.dp).outBytes, dp := Datapath.reset s.cfg }
  | .tokens _ _ => .fault .noStreamRunning
  | .idle => .fault .noStreamRunning

/-- LZW_DECODE (45_commands.md R200). -/
def execLzwDecode (s : State) : Host.Outcome State Fault Refusal :=
  let s0 := prologue s
  finish false s0 do
    checkInput true s0
    let output ← decompressLZW s0.cfg (inCodes s0)
    deliver output none s0

end Sys2Proof.Machine
end

