-- ==== Sys2Proof/Machine/Rle.lean ====
section
/-! DEFINITION. The RLE engine (44_rle.md): the two kinds of token, the decoder, the encoder, and RLE_DECODE
and RLE_ENCODE (45_commands.md R202 and R203). -/

namespace Sys2Proof.Machine

/-! ## The decoder -/

/-- LIT, a literal RLE token (44_rle.md R171). -/
def rlitStep (b : Byte) (x : Datapath) : Datapath :=
  { x with outBytes := x.outBytes ++ [b], ocur := x.ocur + 1, cur := x.cur + 1 }

/-- execESC(i), with i = CUR (44_rle.md R172 to R174): the truncation check first. -/
def escStep (cfg : Config) (body : EscBody) (x : Datapath) : Except Stop Datapath :=
  match body with
  | .cut _ => raise .rleTruncated .byte x.cur
  | .whole n f =>
    if n.toNat + cfg.rleBias = 0 then raise .rleZeroCount .byte x.cur
    else
      .ok
        { x with
          outBytes := x.outBytes ++ List.replicate (n.toNat + cfg.rleBias) f
          ocur := x.ocur + (n.toNat + cfg.rleBias)
          cur := x.cur + 3 }

/-- The token loop of decompressRLE (44_rle.md R170), from the byte at CUR on. Every token takes at least
one byte, so `fuel` of the number of bytes never runs out. -/
def tokenLoop (cfg : Config) : Nat → List Byte → Datapath → Except Stop Datapath
  | 0, _, x => .ok x
  | fuel + 1, ys, x =>
    match decodeToken cfg ys with
    | none => .ok x
    | some (.rlit b, rest) => tokenLoop cfg fuel rest (rlitStep b x)
    | some (.esc body, rest) => (escStep cfg body x).bind (tokenLoop cfg fuel rest)

/-- decompressRLE(Y) (44_rle.md R170). -/
def decompressRLE (cfg : Config) (ys : List Byte) : Except Stop (List Byte) :=
  (tokenLoop cfg ys.length ys (Datapath.reset cfg)).map (·.outBytes)

/-! ## The encoder -/

/-- The encoding of one chunk of `c` copies of `b` (44_rle.md R176 to R178). -/
def emitChunk (cfg : Config) (b : Byte) (c : Nat) : List Byte :=
  if b = cfg.rleMarker ∨ cfg.rleMinRun ≤ c then [cfg.rleMarker, BitVec.ofNat 8 (c - cfg.rleBias), b]
  else List.replicate c b

/-- The chunks of a run, at most `fuel` of them. -/
def emitRunFuel (cfg : Config) (b : Byte) : Nat → Nat → List Byte
  | 0, _ => []
  | fuel + 1, len =>
    if len = 0 then []
    else emitChunk cfg b (min len cfg.rleMaxRun) ++ emitRunFuel cfg b fuel (len - min len cfg.rleMaxRun)

/-- emitRun(b, L) (44_rle.md R176). Every chunk takes at least one byte of the run. -/
def emitRun (cfg : Config) (b : Byte) (len : Nat) : List Byte := emitRunFuel cfg b len len

/-- Output the run in RUNB and RUNL. -/
def endRun (cfg : Config) (x : Datapath) : Datapath :=
  let bs := emitRun cfg x.runb x.runl
  { x with outBytes := x.outBytes ++ bs, ocur := x.ocur + bs.length }

/-- One input byte of compressRLE: it starts the first run, extends the run, or ends it and starts the
next (44_rle.md R175, log entry 16). -/
def runByte (cfg : Config) (x : Datapath) (b : Byte) : Datapath :=
  if x.runl = 0 then { x with runb := b, runl := 1, cur := x.cur + 1 }
  else if b = x.runb then { x with runl := x.runl + 1, cur := x.cur + 1 }
  else { endRun cfg x with runb := b, runl := 1, cur := x.cur + 1 }

/-- compressRLE(Y) (44_rle.md R175). -/
def compressRLE (cfg : Config) (ys : List Byte) : List Byte :=
  (endRun cfg (ys.foldl (runByte cfg) (Datapath.reset cfg))).outBytes

/-! ## The instructions -/

/-- RLIT as one step of the running token stream (44_rle.md R171). -/
def execRlit (b : Byte) (s : State) : Host.Outcome State Fault Refusal := advance s (.ok (rlitStep b s.dp))

/-- ESC as one step of the running token stream (44_rle.md R172). -/
def execEsc (body : EscBody) (s : State) : Host.Outcome State Fault Refusal :=
  advance s (escStep s.cfg body s.dp)

/-- RLE_DECODE (45_commands.md R202). -/
def execRleDecode (s : State) : Host.Outcome State Fault Refusal :=
  let s0 := prologue s
  finish false s0 do
    checkInput false s0
    let output ← decompressRLE s0.cfg (inBytes s0)
    deliver output none s0

/-- RLE_ENCODE (45_commands.md R203). -/
def execRleEncode (s : State) : Host.Outcome State Fault Refusal :=
  let s0 := prologue s
  finish false s0 do
    checkInput false s0
    deliver (compressRLE s0.cfg (inBytes s0)) none s0

end Sys2Proof.Machine
end

