-- ==== Sys2Proof/Machine/BitPack.lean ====
section
/-! DEFINITION. The bit reader/writer (40_bitpack.md) and its commands READ_BITS and WRITE_BITS
(45_commands.md R196 and R197). -/

namespace Sys2Proof.Machine

/-- The bit of byte q div 8 that is stream bit `q` (20_memory.md R56). -/
def bitIndex (order : BitOrder) (q : Nat) : Nat :=
  match order with
  | .lsbFirst => q % 8
  | .msbFirst => 7 - q % 8

/-- The bit of a `w`-bit value that is its `i`-th stream bit (40_bitpack.md R100). -/
def valueIndex (order : BitOrder) (w i : Nat) : Nat :=
  match order with
  | .lsbFirst => i
  | .msbFirst => w - 1 - i

/-- streamBit(buf, q) (40_bitpack.md R100). -/
def streamBit (order : BitOrder) (buf : List Byte) (q : Nat) : Bool :=
  (buf.getD (q / 8) 0).getLsbD (bitIndex order q)

/-- setStreamBit(buf, q, b): changes exactly one bit of byte q div 8 (40_bitpack.md R101). -/
def setStreamBit (order : BitOrder) (buf : List Byte) (q : Nat) (b : Bool) : List Byte :=
  buf.modify (q / 8) fun x =>
    (x &&& ~~~(1#8 <<< bitIndex order q)) ||| (if b then 1#8 <<< bitIndex order q else 0#8)

/-- The value after the first `n` stream bits from `p` of a `w`-bit read. -/
def gatherBits (order : BitOrder) (buf : List Byte) (p w : Nat) : Nat → Nat
  | 0 => 0
  | n + 1 =>
    gatherBits order buf p w n ||| ((streamBit order buf (p + n)).toNat <<< valueIndex order w n)

/-- The buffer after the first `n` stream bits from `p` of a `w`-bit write of `v`. -/
def scatterBits (order : BitOrder) (buf : List Byte) (p v w : Nat) : Nat → List Byte
  | 0 => buf
  | n + 1 =>
    setStreamBit order (scatterBits order buf p v w n) (p + n) (v.testBit (valueIndex order w n))

/-- readBits(buf, p, w) -> (v, p') (40_bitpack.md R100). -/
def readBits (cfg : Config) (buf : List Byte) (p w : Nat) : Except Stop (Nat × Nat) :=
  if 8 * buf.length < p + w then raise .bitReadPastEnd .bit p
  else .ok (gatherBits cfg.bitOrder buf p w w, p + w)

/-- writeBits(buf, p, v, w) -> (buf', p') (40_bitpack.md R101). -/
def writeBits (cfg : Config) (buf : List Byte) (p v w : Nat) : Except Stop (List Byte × Nat) :=
  if 2 ^ w ≤ v then raise .valueTooWide .bit p
  else if 8 * buf.length < p + w then raise .bitWritePastEnd .bit p
  else .ok (scatterBits cfg.bitOrder buf p v w w, p + w)

/-- readBits at CUR, which advances by the width (10_state.md R22, 40_bitpack.md R100). -/
def readUnit (cfg : Config) (buf : List Byte) (w : Nat) (x : Datapath) : Except Stop (Nat × Datapath) :=
  (readBits cfg buf x.cur w).map fun r => (r.1, { x with cur := r.2 })

/-- writeBits into the output sequence at OCUR, which advances by the width (10_state.md R23, 40_bitpack.md
R104). -/
def writeUnit (cfg : Config) (v w : Nat) (x : Datapath) : Except Stop Datapath :=
  (writeBits cfg x.outBytes x.ocur v w).map fun r => { x with outBytes := r.1, ocur := r.2 }

/-- READ_BITS (45_commands.md R196): CUR starts at ARG_OFFSET and ends at the new bit position, RES_POS. -/
def execReadBits (s : State) : Host.Outcome State Fault Refusal :=
  let s0 := prologue s
  finish true s0 do
    checkInput false s0
    checkWidth s0
    let (v, x) ← readUnit s0.cfg (inBytes s0) (widthArg s0) { s0.dp with cur := s0.argOffset.toNat }
    pure (complete
      { s0 with dp := x, resValue := BitVec.ofNat 32 v, resPos := BitVec.ofNat 32 x.cur })

/-- The bytes WRITE_BITS writes into: OUT_BUF below OUT_LEN, zero-filled up to `e` (45_commands.md R197). -/
def zeroFilled (s : State) (e : Nat) : List Byte :=
  outBytes s ++ List.replicate (e - s.outLen.toNat) 0

/-- WRITE_BITS (45_commands.md R197). Bytes from the new OUT_LEN up have no value (20_memory.md R53, log
entry 24). What OCUR counts in this write in place is open (10_state.md R23). DESIGN CHOICE: it starts at
ARG_OFFSET and ends at the new bit position (log entry 25). -/
def execWriteBits (s : State) : Host.Outcome State Fault Refusal :=
  let s0 := prologue s
  let p := s0.argOffset.toNat
  let v := s0.argValue.toNat
  let w := widthArg s0
  finish true s0 do
    checkWidth s0
    if 2 ^ w ≤ v then raise .valueTooWide .bit p
    if 8 * s0.cfg.outCap < p + w then raise .bitWritePastEnd .bit p
    let x ← writeUnit s0.cfg v w
      { s0.dp with ocur := p, outBytes := zeroFilled s0 (ceilDiv (p + w) 8) }
    pure (complete
      { s0 with
        dp := x
        outBuf := Memory.ofBytes x.outBytes
        outLen := BitVec.ofNat 32 x.outBytes.length
        resPos := BitVec.ofNat 32 x.ocur })

end Sys2Proof.Machine
end

