-- ==== Sys2Proof/Machine/Stream.lean ====
section
/-! DEFINITION. The codeword stream codec (41_codeword_stream.md) and its commands READ_CODEWORDS and
PACK_CODEWORDS (45_commands.md R198 and R199). -/

namespace Sys2Proof.Machine

/-- The loop of readCodewords (41_codeword_stream.md R115), with p in CUR and the codewords read in the
output sequence. Every codeword takes at least one bit, so `fuel` above the number of bits never runs out:
the read past the end stops the loop first. -/
def readLoop (cfg : Config) (buf : List Byte) : Nat → Datapath → Except Stop Datapath
  | 0, x => raise .bitReadPastEnd .bit x.cur
  | fuel + 1, x => do
    let (c, x0) ← readUnit cfg buf (widthAt cfg x.j) x
    let x1 := { x0 with ocur := x0.ocur + 1, outCodes := x0.outCodes ++ [c] }
    match classify cfg c x.j with
    | .invalid _ cause => raise (invalidCause cause) .bit x.cur
    | .endStream => .ok x1
    | .reset => readLoop cfg buf fuel (x1.atIndex cfg (nextIndex cfg c x.j))
    | .lit _ => readLoop cfg buf fuel (x1.atIndex cfg (nextIndex cfg c x.j))
    | .ref _ => readLoop cfg buf fuel (x1.atIndex cfg (nextIndex cfg c x.j))
    | .kwk _ => readLoop cfg buf fuel (x1.atIndex cfg (nextIndex cfg c x.j))

/-- readCodewords(image, offset) -> (cws, bytesRead) (41_codeword_stream.md R115 and R116). -/
def readCodewords (cfg : Config) (image : List Byte) (offset : Nat) : Except Stop (List Nat × Nat) :=
  if image.length < offset then raise .offsetPastEnd .byte offset
  else do
    let buf := image.drop offset
    let x ← readLoop cfg buf (8 * buf.length + 1) (Datapath.reset cfg)
    pure (x.outCodes, ceilDiv x.cur 8)

/-- The number of bits of a codeword list from index `j` on (41_codeword_stream.md R118). -/
def packedBits (cfg : Config) : Nat → List Nat → Nat
  | _, [] => 0
  | j, c :: cws => widthAt cfg j + packedBits cfg (nextIndex cfg c j) cws

/-- The writing loop of packCodewords (41_codeword_stream.md R118), with the buffer as the output sequence
and p in OCUR. -/
def packLoop (cfg : Config) : List Nat → Datapath → Except Stop Datapath
  | [], x => .ok x
  | c :: cws, x => do
    let x1 ← writeUnit cfg c (widthAt cfg x.j) x
    let j := nextIndex cfg c x.j
    packLoop cfg cws { x1 with cur := x1.cur + 1, j := j, wid := widthAt cfg j }

/-- packCodewords(cws) (41_codeword_stream.md R118). -/
def packCodewords (cfg : Config) (cws : List Nat) : Except Stop (List Byte) :=
  (packLoop cfg cws
    { Datapath.reset cfg with
      outBytes := List.replicate (ceilDiv (packedBits cfg 0 cws) 8) 0 }).map (·.outBytes)

/-- READ_CODEWORDS (45_commands.md R198). -/
def execReadCodewords (s : State) : Host.Outcome State Fault Refusal :=
  let s0 := prologue s
  finish false s0 do
    let (cws, n) ← readCodewords s0.cfg (imageBytes s0) s0.argOffset.toNat
    deliver (words16LE cws) (some n) s0

/-- PACK_CODEWORDS (45_commands.md R199). -/
def execPackCodewords (s : State) : Host.Outcome State Fault Refusal :=
  let s0 := prologue s
  finish false s0 do
    checkInput true s0
    let output ← packCodewords s0.cfg (inCodes s0)
    deliver output none s0

end Sys2Proof.Machine
end

