-- ==== Sys2Proof/Machine/Pipeline.lean ====
section
/-! DEFINITION. The two pipeline compositions (45_commands.md R190 and R191) and DECOMPRESS and COMPRESS
(R204 and R205). -/

namespace Sys2Proof.Machine

/-- decompress(image, offset) -> (bytes, bytesRead) (45_commands.md R190). -/
def decompress (cfg : Config) (image : List Byte) (offset : Nat) : Except Stop (List Byte × Nat) := do
  let (cws, n) ← readCodewords cfg image offset
  let y ← decompressLZW cfg cws
  let raw ← decompressRLE cfg y
  pure (raw, n)

/-- compress(raw) -> buf (45_commands.md R191). -/
def compress (cfg : Config) (raw : List Byte) : Except Stop (List Byte) := do
  let cws ← compressLZW cfg (compressRLE cfg raw)
  packCodewords cfg cws

/-- DECOMPRESS (45_commands.md R204). -/
def execDecompress (s : State) : Host.Outcome State Fault Refusal :=
  let s0 := prologue s
  finish false s0 do
    let (output, n) ← decompress s0.cfg (imageBytes s0) s0.argOffset.toNat
    deliver output (some n) s0

/-- COMPRESS (45_commands.md R205). -/
def execCompress (s : State) : Host.Outcome State Fault Refusal :=
  let s0 := prologue s
  finish false s0 do
    checkInput false s0
    let output ← compress s0.cfg (inBytes s0)
    deliver output none s0

end Sys2Proof.Machine
end

