-- ==== Sys2Proof/Machine/System.lean ====
section
/-! DEFINITION. SOFT_RESET (45_commands.md R206) and the reserved OPCODEs (R207). -/

namespace Sys2Proof.Machine

/-- SOFT_RESET: reset(), with no epilogue (45_commands.md R206). -/
def execSoftReset (s : State) : Host.Outcome State Fault Refusal := .next (resetCore (prologue s))

/-- The body of a reserved OPCODE: BadCommand(ILLEGAL_OPCODE, 0) (45_commands.md R207). -/
def rejectOpcode (s : State) : Host.Outcome State Fault Refusal :=
  finish false (prologue s) (raise .illegalOpcode .nothing 0)

/-- OPCODE 0x0 (45_commands.md R207). -/
def execReserved0 (s : State) : Host.Outcome State Fault Refusal := rejectOpcode s

/-- OPCODE 0xB (45_commands.md R207). -/
def execReservedB (s : State) : Host.Outcome State Fault Refusal := rejectOpcode s

/-- OPCODE 0xC (45_commands.md R207). -/
def execReservedC (s : State) : Host.Outcome State Fault Refusal := rejectOpcode s

/-- OPCODE 0xD (45_commands.md R207). -/
def execReservedD (s : State) : Host.Outcome State Fault Refusal := rejectOpcode s

/-- OPCODE 0xE (45_commands.md R207). -/
def execReservedE (s : State) : Host.Outcome State Fault Refusal := rejectOpcode s

end Sys2Proof.Machine
end

