-- ==== Sys2Proof/Machine/Dispatch.lean ====
section
/-! DEFINITION. One arm per row of spec/opcode_table.json. -/

namespace Sys2Proof.Machine

def exec (i : Instr) (s : State) : Host.Outcome State Fault Refusal :=
  match i with
  -- host commands (45_commands.md R196 to R207)
  | .readBits => Sys2Proof.Machine.execReadBits s
  | .writeBits => Sys2Proof.Machine.execWriteBits s
  | .readCodewords => Sys2Proof.Machine.execReadCodewords s
  | .packCodewords => Sys2Proof.Machine.execPackCodewords s
  | .lzwDecode => Sys2Proof.Machine.execLzwDecode s
  | .lzwEncode => Sys2Proof.Machine.execLzwEncode s
  | .rleDecode => Sys2Proof.Machine.execRleDecode s
  | .rleEncode => Sys2Proof.Machine.execRleEncode s
  | .decompress => Sys2Proof.Machine.execDecompress s
  | .compress => Sys2Proof.Machine.execCompress s
  | .softReset => Sys2Proof.Machine.execSoftReset s
  | .reserved0 => Sys2Proof.Machine.execReserved0 s
  | .reservedB => Sys2Proof.Machine.execReservedB s
  | .reservedC => Sys2Proof.Machine.execReservedC s
  | .reservedD => Sys2Proof.Machine.execReservedD s
  | .reservedE => Sys2Proof.Machine.execReservedE s
  -- codewords (42_lzw_expander.md R131 to R137)
  | .reset => Sys2Proof.Machine.execReset s
  | .endStream => Sys2Proof.Machine.execEndStream s
  | .lit b => Sys2Proof.Machine.execLit b s
  | .ref c => Sys2Proof.Machine.execRef c s
  | .kwk c => Sys2Proof.Machine.execKwk c s
  | .invalid _ cause => Sys2Proof.Machine.execInvalid cause s
  -- RLE tokens (44_rle.md R171 and R172)
  | .rlit b => Sys2Proof.Machine.execRlit b s
  | .esc body => Sys2Proof.Machine.execEsc body s

end Sys2Proof.Machine
end

