-- ==== Sys2Proof/Machine/Step.lean ====
section
/-! DEFINITION. One step of the machine: the next instruction, host access or end of a stream. -/

namespace Sys2Proof.Machine

/-- What step does next, in a well-formed configuration. -/
def stepPending (s : State) : Pending → Host.Outcome State Fault Refusal
  | .nothing => .next s
  | .streamEnd => endOfStream s
  | .access a s1 => applyAccess a s1
  | .instr u s1 =>
    match decode s1.cfg s1.dp.j u with
    | .ok i => exec i s1
    | .error why => .refused (.undecodable why)

/-- One step. In an ill-formed configuration there is no machine (00_scope.md R8). A fetched instruction is
decoded and executed: a command as one atomic transition (45_commands.md R193), a codeword or token of a
stream in progress as one step of it (log entry 6). With nothing to do the state stays
(60_exceptions.md R240). -/
def step (s : State) : Host.Outcome State Fault Refusal := whenWf s.cfg (stepPending s (fetch s))

/-- `s` with a word of the opcode table stored where step fetches its next instruction (log entries 7 and
8). -/
def State.withFetchWord (s : State) (nbits w : Nat) : State := placeWord s nbits w

end Sys2Proof.Machine
end

