-- ==== Sys2Proof/Safety.lean ====
section
/-! DEFINITION. What counts as a well-formed state and a safe run, the step-by-step run of a stream in
progress, and the vocabulary the statements use: well-formed codeword lists, streams that hold a list,
token lists. -/

namespace Sys2Proof.Machine

/-! ## Invariants -/

/-- `c` is a base phrase or one of the first `n` dictionary codes. -/
def codeDefined (cfg : Config) (n c : Nat) : Prop :=
  c ≤ 255 ∨ (cfg.firstFree ≤ c ∧ c < cfg.firstFree + n)

/-- Entry `i` extends a code below its own, and its FIRST and LEN are those of its phrase
(10_state.md R30 and R31). -/
def Dict.entryOk (cfg : Config) (dict : Dict) (i : Nat) : Bool :=
  match dict[i]? with
  | none => false
  | some e =>
    (decide (e.parent ≤ 255) || (decide (cfg.firstFree ≤ e.parent) && decide (e.parent < cfg.firstFree + i)))
      && (match phrase cfg dict (cfg.firstFree + i) with
          | none => false
          | some ph => decide (ph.head? = some e.first) && decide (ph.length = e.len))

/-- The dictionary is one that `define` built (10_state.md R30 to R33, 42_lzw_expander.md R134). -/
structure DictInv (cfg : Config) (dict : Dict) : Prop where
  bounded : cfg.firstFree + dict.length ≤ cfg.dictLimit
  entries : ∀ i, i < dict.length → Dict.entryOk cfg dict i = true

/-- PREV is NONE exactly at J = 0, and otherwise a code with a phrase (10_state.md R27). -/
def prevOk (cfg : Config) (x : Datapath) : Bool :=
  match x.prev with
  | none => decide (x.j = 0)
  | some p =>
    decide (1 ≤ x.j)
      && (decide (p ≤ 255) || (decide (cfg.firstFree ≤ p) && decide (p < cfg.firstFree + (x.j - 1))))

/-- The internal registers of the expander between two codewords (10_state.md R23 to R27, R30 to R33): before
codeword J the dictionary holds max(0, J - 1) entries (41_codeword_stream.md R110), NXT = N(J) and
WID = W(J). -/
structure ExpanderInv (cfg : Config) (x : Datapath) : Prop where
  dict : DictInv cfg x.dict
  count : x.dict.length = x.j - 1
  next : x.nxt = nextCode cfg x.j
  range : x.nxt ≤ cfg.dictLimit
  width : x.wid = widthAt cfg x.j
  prev : prevOk cfg x = true
  counted : x.ocur = x.outBytes.length

/-- The internal registers and STATUS in each stage: with the core idle every internal register holds its
reset value (10_state.md R21 and R41) and BUSY = 0; a running stream has BUSY = 1, DONE and ERROR 0, no
error recorded (R36), and CUR inside its input (R22). -/
def StageInv (s : State) : Prop :=
  match s.stage with
  | .idle => s.dp = Datapath.reset s.cfg ∧ s.status ∈ [statusWord false false false, statusWord false true false, statusWord false true true]
  | .expand _ cws =>
    ExpanderInv s.cfg s.dp ∧ s.dp.cur ≤ cws.length ∧ (∀ c ∈ cws, c < 2 ^ 16)
      ∧ s.status = statusWord true false false
  | .tokens _ ys =>
    s.dp.ocur = s.dp.outBytes.length ∧ s.dp.cur ≤ ys.length ∧ s.status = statusWord true false false

/-- A well-formed state. -/
structure State.Inv (s : State) : Prop where
  /-- 00_scope.md R8 -/
  config : s.cfg.wf = true
  /-- the canonical form, and no address outside the space (20_memory.md R60) -/
  image : s.image.wf = true ∧ s.image.within s.cfg.imgLen = true
  inBuf : s.inBuf.wf = true ∧ s.inBuf.within s.cfg.inCap = true
  outBuf : s.outBuf.wf = true ∧ s.outBuf.within s.cfg.outCap = true
  /-- OUT_BUF holds a value at every byte below OUT_LEN (20_memory.md R53) -/
  outLen : s.outLen.toNat ≤ s.cfg.outCap
  outListed : ∀ a, a < s.outLen.toNat → (s.outBuf.read? a).isSome = true
  /-- reserved bits read 0 (10_state.md R34) -/
  errReserved : s.err.toNat < 2 ^ 18
  argWidthReserved : s.argWidth.toNat < 2 ^ 5
  /-- without an error ERR and ERR_POS are 0 (10_state.md R37) -/
  errClear : errorFlag s.status = false → s.err = 0 ∧ s.errPos = 0
  stage : StageInv s

/-- An access inside the binding: an aligned 32-bit access to REGS (20_memory.md R54), an address its space
has (R50). -/
def HostAccess.legal (cfg : Config) : HostAccess → Bool
  | .regWrite offset size _ => alignedWord offset size
  | .regRead offset size => alignedWord offset size
  | .inWrite address _ => decide (address < cfg.inCap)
  | .outRead address => decide (address < cfg.outCap)
  | .imageLoad address _ => decide (address < cfg.imgLen)
  | .powerOn => true

/-- A safe step: it ends in a next state. -/
def Safe (s : State) : Prop := ∃ t, step s = .next t

/-! ## What a command leaves -/

/-- Success completion (60_exceptions.md R232): DONE alone in STATUS, ERR and ERR_POS 0, the internal
registers at their reset values (10_state.md R21 and R41, log entry 5), no stream in progress (log entry 6);
everything else as it was. -/
def afterSuccess (s : State) : State :=
  { s with status := 0x2, err := 0, errPos := 0, dp := Datapath.reset s.cfg, stage := .idle }

/-- Success completion with `output` in OUT_BUF from address 0 and its length in OUT_LEN
(45_commands.md R195). -/
def delivered (output : List Byte) (s : State) : State :=
  { afterSuccess s with outBuf := Memory.ofBytes output, outLen := BitVec.ofNat 32 output.length }

/-- Error completion (60_exceptions.md R231) with the given ERR word and position: DONE and ERROR in STATUS;
OUT_LEN = 0 and OUT_BUF with no value, unless `keep`; the internal registers and the stage as after success
(log entries 5 and 6); everything else as it was. -/
def afterError (keep : Bool) (err : Word) (pos : Nat) (s : State) : State :=
  { s with
    status := 0x6
    err := err
    errPos := BitVec.ofNat 32 pos
    outLen := if keep then s.outLen else 0
    outBuf := if keep then s.outBuf else []
    dp := Datapath.reset s.cfg
    stage := .idle }

/-- The errors each command can raise in a state, with the unit and position of 60_exceptions.md R221: those of
its checks, of the operation it runs, and OUTPUT_FULL of its epilogue (45_commands.md R194 to R207). -/
def raisedBy (s : State) (i : Instr) (e : Err) : Prop :=
  let operand : Err := ⟨.operandOutOfRange, .nothing, 0⟩
  let full : Err := ⟨.outputFull, .byte, s.cfg.outCap⟩
  match i with
  | .readBits => e = operand ∨ e = ⟨.bitReadPastEnd, .bit, s.argOffset.toNat⟩
  | .writeBits =>
    e = operand ∨ e = ⟨.valueTooWide, .bit, s.argOffset.toNat⟩ ∨ e = ⟨.bitWritePastEnd, .bit, s.argOffset.toNat⟩
  | .readCodewords => readCodewords s.cfg (imageBytes s) s.argOffset.toNat = .error (.raised e) ∨ e = full
  | .packCodewords => e = operand ∨ packCodewords s.cfg (inCodes s) = .error (.raised e) ∨ e = full
  | .lzwDecode => e = operand ∨ decompressLZW s.cfg (inCodes s) = .error (.raised e) ∨ e = full
  | .rleDecode => e = operand ∨ decompressRLE s.cfg (inBytes s) = .error (.raised e) ∨ e = full
  | .decompress => decompress s.cfg (imageBytes s) s.argOffset.toNat = .error (.raised e) ∨ e = full
  | .compress => e = operand ∨ compress s.cfg (inBytes s) = .error (.raised e) ∨ e = full
  | .lzwEncode | .rleEncode => e = operand ∨ e = full
  | .reserved0 | .reservedB | .reservedC | .reservedD | .reservedE => e = ⟨.illegalOpcode, .nothing, 0⟩
  | .softReset | .reset | .endStream | .lit _ | .ref _ | .kwk _ | .invalid _ _ | .rlit _ | .esc _ => False

/-- The ERR word of an INVALID codeword (60_exceptions.md R221), with ERR.UNIT = `unit`. -/
def invalidWord (unit : Nat) (cause : InvalidCause) : Word :=
  match cause with
  | .undefinedReference => BitVec.ofNat 32 (0x2102 + 2 ^ 16 * unit)
  | .firstNotLiteral => BitVec.ofNat 32 (0x2202 + 2 ^ 16 * unit)
  | .dictionaryFull => BitVec.ofNat 32 (0x2302 + 2 ^ 16 * unit)
  | .reservedCode => BitVec.ofNat 32 (0x2702 + 2 ^ 16 * unit)

/-! ## The step-by-step run of a stream -/

/-- Steps until no stream is in progress, at most `fuel` of them. -/
def runStream : Nat → State → Host.Outcome State Fault Refusal
  | 0, s => .next s
  | fuel + 1, s =>
    match s.stage with
    | .idle => .next s
    | .expand _ _ =>
      match step s with
      | .next t => runStream fuel t
      | .fault f => .fault f
      | .refused r => .refused r
    | .tokens _ _ =>
      match step s with
      | .next t => runStream fuel t
      | .fault f => .fault f
      | .refused r => .refused r

/-! ## Codeword lists and streams -/

/-- Every element of the list, from index `j` on, is valid where it stands, and END occurs exactly once, as
the last element (41_codeword_stream.md R119). -/
def wellFormedCodes (cfg : Config) : Nat → List Nat → Bool
  | _, [] => false
  | j, c :: cws =>
    match classify cfg c j with
    | .invalid _ _ => false
    | .endStream => cws.isEmpty
    | .reset => wellFormedCodes cfg (nextIndex cfg c j) cws
    | .lit _ => wellFormedCodes cfg (nextIndex cfg c j) cws
    | .ref _ => wellFormedCodes cfg (nextIndex cfg c j) cws
    | .kwk _ => wellFormedCodes cfg (nextIndex cfg c j) cws

/-- Every element of the list, from index `j` on, is valid where it stands and none is END: a stream may
have begun with it. -/
def openCodes (cfg : Config) : Nat → List Nat → Bool
  | _, [] => true
  | j, c :: cws =>
    match classify cfg c j with
    | .invalid _ _ => false
    | .endStream => false
    | .reset => openCodes cfg (nextIndex cfg c j) cws
    | .lit _ => openCodes cfg (nextIndex cfg c j) cws
    | .ref _ => openCodes cfg (nextIndex cfg c j) cws
    | .kwk _ => openCodes cfg (nextIndex cfg c j) cws

/-- The codeword index after the list, from index `j` on (41_codeword_stream.md R110). -/
def indexAfter (cfg : Config) (j : Nat) (cws : List Nat) : Nat :=
  cws.foldl (fun k c => nextIndex cfg c k) j

/-- Every element of the list, from index `j` on, fits its width (41_codeword_stream.md R118). -/
def fitsWidths (cfg : Config) : Nat → List Nat → Bool
  | _, [] => true
  | j, c :: cws => decide (c < 2 ^ widthAt cfg j) && fitsWidths cfg (nextIndex cfg c j) cws

/-- From bit `p` and index `j` on, the stream in `buf` is the list, each element at its width
(20_memory.md R56, 41_codeword_stream.md R111). -/
def holdsCodes (cfg : Config) (buf : List Byte) : Nat → Nat → List Nat → Bool
  | _, _, [] => true
  | p, j, c :: cws =>
    decide (p + widthAt cfg j ≤ 8 * buf.length) && decide (c < 2 ^ widthAt cfg j)
      && (List.range (widthAt cfg j)).all (fun i =>
        streamBit cfg.bitOrder buf (p + i) == c.testBit (valueIndex cfg.bitOrder (widthAt cfg j) i))
      && holdsCodes cfg buf (p + widthAt cfg j) (nextIndex cfg c j) cws

/-- The expander's state after executing each codeword of the list (42_lzw_expander.md R130), for a list that
a stream may have begun with. -/
def expandCodes (cfg : Config) : List Nat → Datapath → Except Stop Datapath
  | [], x => .ok x
  | c :: cws, x => (codewordStep cfg (classify cfg c x.j) x).bind (expandCodes cfg cws)

/-! ## Token lists -/

/-- A token the decoder expands: a literal other than the marker, or an escape with a count of at least 1
(30_encoding.md R76 and R78). -/
def Token.valid (cfg : Config) : Token → Bool
  | .rlit b => decide (b ≠ cfg.rleMarker)
  | .esc (.whole n _) => decide (n ≠ 0)
  | .esc (.cut _) => false

/-- The bytes of a token (30_encoding.md R76). -/
def Token.bytes (cfg : Config) : Token → List Byte
  | .rlit b => [b]
  | .esc body => cfg.rleMarker :: body.bytes

/-- What a valid token expands to (44_rle.md R171 and R172, with RLE_BIAS = 0). -/
def Token.expansion : Token → List Byte
  | .rlit b => [b]
  | .esc (.whole n f) => List.replicate n.toNat f
  | .esc (.cut _) => []

/-! ## Values of a sequence, one after another -/

/-- writeBits of each (value, width), each at the previous call's new position (40_bitpack.md R103). -/
def writeSeq (cfg : Config) : List (Nat × Nat) → List Byte → Nat → Except Stop (List Byte × Nat)
  | [], buf, p => .ok (buf, p)
  | (v, w) :: vs, buf, p => (writeBits cfg buf p v w).bind fun r => writeSeq cfg vs r.1 r.2

/-- readBits of each width, each at the previous call's new position (40_bitpack.md R103). -/
def readSeq (cfg : Config) (buf : List Byte) : List Nat → Nat → Except Stop (List Nat × Nat)
  | [], p => .ok ([], p)
  | w :: ws, p =>
    (readBits cfg buf p w).bind fun r => (readSeq cfg buf ws r.2).map fun q => (r.1 :: q.1, q.2)

/-- A host command (30_encoding.md R70). -/
def isCommand (cfg : Config) (i : Instr) : Bool :=
  match encode cfg i with
  | .command _ => true
  | .codeword _ => false
  | .token _ => false

end Sys2Proof.Machine
end

