-- ==== Sys2Proof/Certificates/Slice0/Obligations.lean ====
section
/-! DEFINITION. The statements for the provers. -/

open Sys2Proof Sys2Proof.Machine

/-! ## Encoding -/

/-- Decoding the encoded form of an instruction that can stand at codeword index `j` gives it back, for
every instruction and every operand (30_encoding.md R72, R76, R80). -/
def Obligations.DecodeEncodeRoundTrip : Prop :=
  ∀ (cfg : Config) (j : Nat) (i : Instr), cfg.wf = true → i.wfAt cfg j = true →
    decode cfg j (encode cfg i) = .ok i

/-- Every CMD word, every 16-bit codeword at an index a stream can reach and every non-empty token stream
decodes to a well-formed instruction, whose encoding is the word's OPCODE, the codeword, the token's
bytes (30_encoding.md R72, R75, R76, R79). -/
def Obligations.EncodeDecodeRoundTrip : Prop :=
  ∀ (cfg : Config), cfg.wf = true →
    (∀ v : Word, encode cfg (decodeCommand v) = .command (v &&& 0xF)) ∧
    (∀ j c, nextCode cfg j ≤ cfg.dictLimit → c < 2 ^ 16 →
      ∃ i, decode cfg j (.codeword c) = .ok i ∧ i.wfAt cfg j = true ∧ encode cfg i = .codeword c) ∧
    (∀ ys : List Byte, ys ≠ [] →
      ∃ t rest, decodeToken cfg ys = some (t, rest) ∧ t.toInstr.wfAt cfg 0 = true ∧
        encode cfg t.toInstr = .token (Token.bytes cfg t) ∧ Token.bytes cfg t ++ rest = ys)

/-- Words written out from the spec's encodings decode to the instructions they stand for
(30_encoding.md R72, R76, R80; 95_test_vectors.md T-CL). -/
def Obligations.SpecWordsDecode : Prop :=
  decodeCommand 0b00000000000000000000000000000001#32 = .readBits ∧
  decodeCommand 0b00000000000000000000000000001001#32 = .decompress ∧
  decodeCommand 0b11111111111111111111111111111111#32 = .softReset ∧
  decodeCommand 0b00000000000000000000000000011110#32 = .reservedE ∧
  decode Config.reference 0 (.codeword 0x100) = .ok .reset ∧
  decode Config.reference 3839 (.codeword 0x101) = .ok .endStream ∧
  decode Config.reference 0 (.codeword 0x041) = .ok (.lit 0x41) ∧
  decode Config.reference 2 (.codeword 0x102) = .ok (.ref 0x102) ∧
  decode Config.reference 2 (.codeword 0x103) = .ok (.kwk 0x103) ∧
  decode Config.reference 2 (.codeword 0x104) = .ok (.invalid 0x104 .undefinedReference) ∧
  decode Config.reference 3839 (.codeword 0x041) = .ok (.invalid 0x041 .dictionaryFull) ∧
  decode Config.reference 0 (.token [0x41, 0xFF]) = .ok (.rlit 0x41) ∧
  decode Config.reference 0 (.token [0xFF, 0xC8, 0x41]) = .ok (.esc (.whole 0xC8 0x41))

/-- 30_encoding.md R74: every valid codeword value fits its width, and what each index can hold. -/
def Obligations.ValidCodewordFitsWidth : Prop :=
  ∀ (cfg : Config) (j : Nat), cfg.wf = true → nextCode cfg j ≤ cfg.dictLimit →
    (∀ c, (∀ cause, classify cfg c j ≠ .invalid c cause) → c < 2 ^ widthAt cfg j) ∧
    (1 ≤ j → nextCode cfg j < cfg.dictLimit →
      classify cfg (nextCode cfg j) j = .kwk (nextCode cfg j) ∧ nextCode cfg j < 2 ^ widthAt cfg j ∧
      ∀ c, nextCode cfg j < c → classify cfg c j = .invalid c .undefinedReference) ∧
    (j = 0 → 255 < 2 ^ cfg.minWidth ∧ classify cfg 255 j = .lit 255 ∧
      ∀ c, 255 < c → c ≠ cfg.resetCode → c ≠ cfg.endCode → ∃ cause, classify cfg c j = .invalid c cause) ∧
    cfg.resetCode < cfg.firstFree ∧ cfg.endCode < cfg.firstFree ∧ cfg.firstFree < 2 ^ cfg.minWidth

/-- 41_codeword_stream.md R112: the table of the reference schedule, the index at which each width first
holds, and the last index that can hold a data codeword. -/
def Obligations.WidthSchedule : Prop :=
  (∀ j, j ≤ 254 → widthAt Config.reference j = 9 ∧
    0x102 ≤ nextCode Config.reference j ∧ nextCode Config.reference j ≤ 0x1FF) ∧
  (∀ j, 255 ≤ j → j ≤ 766 → widthAt Config.reference j = 10 ∧
    0x200 ≤ nextCode Config.reference j ∧ nextCode Config.reference j ≤ 0x3FF) ∧
  (∀ j, 767 ≤ j → j ≤ 1790 → widthAt Config.reference j = 11 ∧
    0x400 ≤ nextCode Config.reference j ∧ nextCode Config.reference j ≤ 0x7FF) ∧
  (∀ j, 1791 ≤ j → j ≤ 3839 → widthAt Config.reference j = 12 ∧
    0x800 ≤ nextCode Config.reference j ∧ nextCode Config.reference j ≤ 0x1000) ∧
  ∀ (cfg : Config), cfg.wf = true →
    (∀ w, cfg.minWidth ≤ w → w < cfg.maxWidth →
      widthAt cfg (2 ^ w - cfg.firstFree + 1) = w + 1 ∧
      ∀ j, j < 2 ^ w - cfg.firstFree + 1 → widthAt cfg j ≤ w) ∧
    nextCode cfg (cfg.dictLimit - cfg.firstFree) = cfg.dictLimit - 1 ∧
    (∃ c, classify cfg c (cfg.dictLimit - cfg.firstFree) = .kwk c) ∧
    nextCode cfg (cfg.dictLimit - cfg.firstFree + 1) = cfg.dictLimit ∧
    (∀ c, c ≠ cfg.resetCode → c ≠ cfg.endCode →
      ∃ cause, classify cfg c (cfg.dictLimit - cfg.firstFree + 1) = .invalid c cause) ∧
    classify cfg cfg.resetCode (cfg.dictLimit - cfg.firstFree + 1) = .reset ∧
    classify cfg cfg.endCode (cfg.dictLimit - cfg.firstFree + 1) = .endStream

/-- 30_encoding.md R84: `RUNS n, b` decodes to n copies of b, and equals the encoder's own output only
when n mod 255 = 0, n mod 255 >= RLE_MIN_RUN or b = RLE_MARKER (with RLE_MAX_RUN = 255). -/
def Obligations.RunsExpansionDecodes : Prop :=
  ∀ (cfg : Config) (n : Nat) (b : Byte), cfg.wf = true → 255 < n →
    ∃ bs, assembleRleLine cfg (.runs n b) = some bs ∧ decompressRLE cfg bs = .ok (List.replicate n b) ∧
      (cfg.rleMaxRun = 255 →
        (bs = compressRLE cfg (List.replicate n b) ↔
          n % 255 = 0 ∨ cfg.rleMinRun ≤ n % 255 ∨ b = cfg.rleMarker))

/-! ## The bit reader/writer -/

/-- 40_bitpack.md R103: what writeBits writes readBits reads, and a sequence of values written one after
another reads back, each call at the previous one's new position. -/
def Obligations.WriteThenReadBits : Prop :=
  (∀ (cfg : Config) (buf : List Byte) (p v w : Nat), v < 2 ^ w → p + w ≤ 8 * buf.length →
    ∃ buf', writeBits cfg buf p v w = .ok (buf', p + w) ∧ readBits cfg buf' p w = .ok (v, p + w)) ∧
  ∀ (cfg : Config) (vs : List (Nat × Nat)) (buf : List Byte) (p : Nat),
    (∀ x ∈ vs, x.1 < 2 ^ x.2) → p + (vs.map (·.2)).sum ≤ 8 * buf.length →
    ∃ buf', writeSeq cfg vs buf p = .ok (buf', p + (vs.map (·.2)).sum) ∧
      readSeq cfg buf' (vs.map (·.2)) p = .ok (vs.map (·.1), p + (vs.map (·.2)).sum)

/-- READ_BITS completes (45_commands.md R196): RES_VALUE is the value whose bits are the `w` stream bits
from `p`, RES_POS is p + w, and nothing else changes but what completion writes.
The internal registers that a completed command leaves are the model's reading (log entry 5). -/
def Obligations.ReadBitsCompletes : Prop :=
  ∀ (s : State), s.inLen.toNat ≤ s.cfg.inCap →
    s.cfg.minWidth ≤ widthArg s → widthArg s ≤ s.cfg.maxWidth →
    s.argOffset.toNat + widthArg s ≤ 8 * s.inLen.toNat →
    ∃ v, v < 2 ^ widthArg s ∧
      (∀ i, i < widthArg s → v.testBit (valueIndex s.cfg.bitOrder (widthArg s) i) =
        streamBit s.cfg.bitOrder (inBytes s) (s.argOffset.toNat + i)) ∧
      exec .readBits s = .next
        { afterSuccess s with
          resValue := BitVec.ofNat 32 v
          resPos := BitVec.ofNat 32 (s.argOffset.toNat + widthArg s) }

/-- Where READ_BITS raises, with which error, and that it leaves every result register and OUT_BUF as they
were (45_commands.md R196, 60_exceptions.md R221, R231).
The internal registers that a completed command leaves are the model's reading (log entry 5). -/
def Obligations.ReadBitsErrors : Prop :=
  ∀ (s : State),
    (s.cfg.inCap < s.inLen.toNat ∨ widthArg s < s.cfg.minWidth ∨ s.cfg.maxWidth < widthArg s →
      exec .readBits s = .next (afterError true 0x00004204 0 s)) ∧
    (s.inLen.toNat ≤ s.cfg.inCap → s.cfg.minWidth ≤ widthArg s → widthArg s ≤ s.cfg.maxWidth →
      8 * s.inLen.toNat < s.argOffset.toNat + widthArg s →
      exec .readBits s = .next (afterError true 0x00011101 s.argOffset.toNat s))

/-- WRITE_BITS completes (45_commands.md R197): of OUT_BUF below the new OUT_LEN only the bits written
change, bytes from the old OUT_LEN up are zero before the write, OUT_LEN = max(OUT_LEN, E) and
RES_POS = p + w.
The internal registers that a completed command leaves are the model's reading (log entry 5). -/
def Obligations.WriteBitsCompletes : Prop :=
  ∀ (s : State), s.cfg.minWidth ≤ widthArg s → widthArg s ≤ s.cfg.maxWidth →
    s.argValue.toNat < 2 ^ widthArg s → s.argOffset.toNat + widthArg s ≤ 8 * s.cfg.outCap →
    ∃ buf : List Byte,
      buf.length = max s.outLen.toNat (ceilDiv (s.argOffset.toNat + widthArg s) 8) ∧
      (∀ q, q < 8 * buf.length → streamBit s.cfg.bitOrder buf q =
        if s.argOffset.toNat ≤ q ∧ q < s.argOffset.toNat + widthArg s then
          s.argValue.toNat.testBit (valueIndex s.cfg.bitOrder (widthArg s) (q - s.argOffset.toNat))
        else if q / 8 < s.outLen.toNat then streamBit s.cfg.bitOrder (outBytes s) q
        else false) ∧
      exec .writeBits s = .next
        { delivered buf s with resPos := BitVec.ofNat 32 (s.argOffset.toNat + widthArg s) }

/-- Where WRITE_BITS raises, in the order of its checks, with nothing written (45_commands.md R197,
60_exceptions.md R227, R231).
The internal registers that a completed command leaves are the model's reading (log entry 5). -/
def Obligations.WriteBitsErrors : Prop :=
  ∀ (s : State),
    (widthArg s < s.cfg.minWidth ∨ s.cfg.maxWidth < widthArg s →
      exec .writeBits s = .next (afterError true 0x00004204 0 s)) ∧
    (s.cfg.minWidth ≤ widthArg s → widthArg s ≤ s.cfg.maxWidth → 2 ^ widthArg s ≤ s.argValue.toNat →
      exec .writeBits s = .next (afterError true 0x00013103 s.argOffset.toNat s)) ∧
    (s.cfg.minWidth ≤ widthArg s → widthArg s ≤ s.cfg.maxWidth → s.argValue.toNat < 2 ^ widthArg s →
      8 * s.cfg.outCap < s.argOffset.toNat + widthArg s →
      exec .writeBits s = .next (afterError true 0x00011301 s.argOffset.toNat s))

/-! ## The codeword stream codec -/

/-- READ_CODEWORDS completes (45_commands.md R198, 41_codeword_stream.md R115 to R117) on every image whose
view from ARG_OFFSET begins with a stream of valid codewords up to an END, whatever its padding bits and
the bytes after it are: OUT_BUF holds the list, BYTES_READ the stream's bits rounded up to bytes.
The internal registers that a completed command leaves are the model's reading (log entry 5). -/
def Obligations.ReadCodewordsCompletes : Prop :=
  ∀ (s : State) (cws : List Nat), s.cfg.wf = true → s.argOffset.toNat ≤ s.cfg.imgLen →
    wellFormedCodes s.cfg 0 cws = true →
    holdsCodes s.cfg ((imageBytes s).drop s.argOffset.toNat) 0 0 cws = true →
    2 * cws.length ≤ s.cfg.outCap →
    exec .readCodewords s = .next
      { delivered (words16LE cws) s with
        bytesRead := BitVec.ofNat 32 (ceilDiv (packedBits s.cfg 0 cws) 8) }

/-- Where READ_CODEWORDS raises (41_codeword_stream.md R115, 60_exceptions.md R221, R227): an offset past
the image; a read past its end after the valid codewords `done`; the first INVALID codeword, after
`done`; an output longer than OUT_CAP. BYTES_READ stays.
The internal registers that a completed command leaves are the model's reading (log entry 5). -/
def Obligations.ReadCodewordsErrors : Prop :=
  ∀ (s : State), s.cfg.wf = true →
    (s.cfg.imgLen < s.argOffset.toNat →
      exec .readCodewords s = .next (afterError false 0x00031201 s.argOffset.toNat s)) ∧
    (∀ done : List Nat, s.argOffset.toNat ≤ s.cfg.imgLen → openCodes s.cfg 0 done = true →
      holdsCodes s.cfg ((imageBytes s).drop s.argOffset.toNat) 0 0 done = true →
      8 * (s.cfg.imgLen - s.argOffset.toNat)
        < packedBits s.cfg 0 done + widthAt s.cfg (indexAfter s.cfg 0 done) →
      exec .readCodewords s = .next (afterError false 0x00011101 (packedBits s.cfg 0 done) s)) ∧
    (∀ (done : List Nat) (c : Nat) (cause : InvalidCause), s.argOffset.toNat ≤ s.cfg.imgLen →
      openCodes s.cfg 0 done = true →
      holdsCodes s.cfg ((imageBytes s).drop s.argOffset.toNat) 0 0 (done ++ [c]) = true →
      classify s.cfg c (indexAfter s.cfg 0 done) = .invalid c cause →
      exec .readCodewords s = .next (afterError false (invalidWord 1 cause) (packedBits s.cfg 0 done) s)) ∧
    (∀ cws : List Nat, s.argOffset.toNat ≤ s.cfg.imgLen → wellFormedCodes s.cfg 0 cws = true →
      holdsCodes s.cfg ((imageBytes s).drop s.argOffset.toNat) 0 0 cws = true →
      s.cfg.outCap < 2 * cws.length →
      exec .readCodewords s = .next (afterError false 0x00031401 s.cfg.outCap s))

/-- PACK_CODEWORDS completes (45_commands.md R199, 41_codeword_stream.md R118) on every list whose elements
fit their widths, whatever their kinds: OUT_BUF holds the list as a stream, each element at its width, the
rest of the last byte zero.
The internal registers that a completed command leaves are the model's reading (log entry 5). -/
def Obligations.PackCodewordsCompletes : Prop :=
  ∀ (s : State), s.inLen.toNat ≤ s.cfg.inCap → s.inLen.toNat % 2 = 0 →
    fitsWidths s.cfg 0 (inCodes s) = true → ceilDiv (packedBits s.cfg 0 (inCodes s)) 8 ≤ s.cfg.outCap →
    ∃ buf : List Byte, buf.length = ceilDiv (packedBits s.cfg 0 (inCodes s)) 8 ∧
      holdsCodes s.cfg buf 0 0 (inCodes s) = true ∧
      (∀ q, packedBits s.cfg 0 (inCodes s) ≤ q → q < 8 * buf.length →
        streamBit s.cfg.bitOrder buf q = false) ∧
      exec .packCodewords s = .next (delivered buf s)

/-- Where PACK_CODEWORDS raises (45_commands.md R194, R199, 41_codeword_stream.md R118): the operand checks;
the first codeword that is too wide, at its bit position; an output longer than OUT_CAP.
The internal registers that a completed command leaves are the model's reading (log entry 5). -/
def Obligations.PackCodewordsErrors : Prop :=
  ∀ (s : State),
    (s.cfg.inCap < s.inLen.toNat ∨ s.inLen.toNat % 2 = 1 →
      exec .packCodewords s = .next (afterError false 0x00004204 0 s)) ∧
    (s.inLen.toNat ≤ s.cfg.inCap → s.inLen.toNat % 2 = 0 →
      ∀ (done : List Nat) (c : Nat) (rest : List Nat), inCodes s = done ++ c :: rest →
        fitsWidths s.cfg 0 done = true → 2 ^ widthAt s.cfg (indexAfter s.cfg 0 done) ≤ c →
        exec .packCodewords s = .next (afterError false 0x00013103 (packedBits s.cfg 0 done) s)) ∧
    (s.inLen.toNat ≤ s.cfg.inCap → s.inLen.toNat % 2 = 0 → fitsWidths s.cfg 0 (inCodes s) = true →
      s.cfg.outCap < ceilDiv (packedBits s.cfg 0 (inCodes s)) 8 →
      exec .packCodewords s = .next (afterError false 0x00031401 s.cfg.outCap s))

/-- 41_codeword_stream.md R119: the structural round-trip law. -/
def Obligations.StructuralRoundTrip : Prop :=
  ∀ (cfg : Config) (cws : List Nat), cfg.wf = true → wellFormedCodes cfg 0 cws = true →
    ∃ buf, packCodewords cfg cws = .ok buf ∧ readCodewords cfg buf 0 = .ok (cws, buf.length)

/-- 41_codeword_stream.md R120: the packed length is the sum of the widths, in bytes rounded up; at the
reference values, for m <= 255 codewords and no RESET, ceil_div(9m, 8). -/
def Obligations.PackedLength : Prop :=
  (∀ (cfg : Config) (cws : List Nat) (buf : List Byte), packCodewords cfg cws = .ok buf →
    buf.length = ceilDiv
      ((List.range cws.length).map fun i => widthAt cfg (indexAfter cfg 0 (cws.take i))).sum 8) ∧
  ∀ (cws : List Nat) (buf : List Byte), cws.length ≤ 255 → Config.reference.resetCode ∉ cws →
    packCodewords Config.reference cws = .ok buf → buf.length = ceilDiv (9 * cws.length) 8

/-! ## The expander -/

/-- LIT (42_lzw_expander.md R131) completes in every state of a stream where a literal can stand: it outputs
the byte, at J >= 1 defines N(J) := PREV's phrase and the byte, sets PREV and J, and changes nothing
else. -/
def Obligations.LitCompletes : Prop :=
  ∀ (s : State) (b : Byte), s.cfg.wf = true → ExpanderInv s.cfg s.dp →
    (Instr.lit b).wfAt s.cfg s.dp.j = true →
    ∃ d : Dict,
      (s.dp.j = 0 → d = s.dp.dict) ∧
      (1 ≤ s.dp.j → ∃ p ph, s.dp.prev = some p ∧ phrase s.cfg s.dp.dict p = some ph ∧
        d = s.dp.dict ++ [⟨p, b, ph.headD 0, ph.length + 1⟩] ∧
        phrase s.cfg d (nextCode s.cfg s.dp.j) = some (ph ++ [b])) ∧
      exec (.lit b) s = .next
        { s with
          dp :=
            { s.dp with
              outBytes := s.dp.outBytes ++ [b]
              ocur := s.dp.ocur + 1
              cur := s.dp.cur + 1
              prev := some b.toNat
              dict := d
              j := s.dp.j + 1
              nxt := nextCode s.cfg (s.dp.j + 1)
              wid := widthAt s.cfg (s.dp.j + 1) } }

/-- REF (42_lzw_expander.md R132) completes in every state of a stream where it can stand: it outputs the
phrase, defines N(J) := PREV's phrase and the phrase's first byte, sets PREV and J, and changes nothing
else. -/
def Obligations.RefCompletes : Prop :=
  ∀ (s : State) (c : Nat), s.cfg.wf = true → ExpanderInv s.cfg s.dp →
    (Instr.ref c).wfAt s.cfg s.dp.j = true →
    ∃ p pp ph, s.dp.prev = some p ∧ phrase s.cfg s.dp.dict p = some pp ∧
      phrase s.cfg s.dp.dict c = some ph ∧ ph ≠ [] ∧
      phrase s.cfg (s.dp.dict ++ [⟨p, ph.headD 0, pp.headD 0, pp.length + 1⟩]) (nextCode s.cfg s.dp.j)
        = some (pp ++ [ph.headD 0]) ∧
      exec (.ref c) s = .next
        { s with
          dp :=
            { s.dp with
              outBytes := s.dp.outBytes ++ ph
              ocur := s.dp.ocur + ph.length
              cur := s.dp.cur + 1
              prev := some c
              dict := s.dp.dict ++ [⟨p, ph.headD 0, pp.headD 0, pp.length + 1⟩]
              j := s.dp.j + 1
              nxt := nextCode s.cfg (s.dp.j + 1)
              wid := widthAt s.cfg (s.dp.j + 1) } }

/-- KWK (42_lzw_expander.md R133) completes in every state of a stream where it can stand: it outputs PREV's
phrase and its first byte, which afterwards is the phrase of the new entry N(J), sets PREV and J, and
changes nothing else. -/
def Obligations.KwkCompletes : Prop :=
  ∀ (s : State) (c : Nat), s.cfg.wf = true → ExpanderInv s.cfg s.dp →
    (Instr.kwk c).wfAt s.cfg s.dp.j = true →
    ∃ p pp, s.dp.prev = some p ∧ phrase s.cfg s.dp.dict p = some pp ∧ pp ≠ [] ∧
      phrase s.cfg (s.dp.dict ++ [⟨p, pp.headD 0, pp.headD 0, pp.length + 1⟩]) c
        = some (pp ++ [pp.headD 0]) ∧
      exec (.kwk c) s = .next
        { s with
          dp :=
            { s.dp with
              outBytes := s.dp.outBytes ++ (pp ++ [pp.headD 0])
              ocur := s.dp.ocur + (pp.length + 1)
              cur := s.dp.cur + 1
              prev := some c
              dict := s.dp.dict ++ [⟨p, pp.headD 0, pp.headD 0, pp.length + 1⟩]
              j := s.dp.j + 1
              nxt := nextCode s.cfg (s.dp.j + 1)
              wid := widthAt s.cfg (s.dp.j + 1) } }

/-- RESET (42_lzw_expander.md R135) completes in every state: the dictionary is cleared, PREV is NONE and J
is 0, so that the next codeword is read at MIN_WIDTH; it outputs nothing and changes nothing else. -/
def Obligations.ResetCodewordCompletes : Prop :=
  ∀ (s : State), s.cfg.wf = true →
    exec .reset s = .next
      { s with
        dp :=
          { s.dp with
            dict := []
            prev := none
            j := 0
            nxt := s.cfg.firstFree
            wid := s.cfg.minWidth
            cur := s.dp.cur + 1 } }

/-- END (42_lzw_expander.md R136) ends the stream: in LZW_DECODE the output so far is delivered, in
DECOMPRESS it becomes the token stream of the RLE stage (45_commands.md R190); an output longer than
OUT_CAP is OUTPUT_FULL (R195). Outside a stream there is nothing to return from and the model stops.
The internal registers that a completed command leaves are the model's reading (log entry 5). -/
def Obligations.EndCompletes : Prop :=
  ∀ (s : State),
    (∀ cws, s.stage = .expand .deliver cws → s.err = 0 → s.errPos = 0 →
      s.dp.outBytes.length ≤ s.cfg.outCap →
      exec .endStream s = .next (delivered s.dp.outBytes s)) ∧
    (∀ n cws, s.stage = .expand (.rle n) cws →
      exec .endStream s = .next
        { s with stage := .tokens (some n) s.dp.outBytes, dp := Datapath.reset s.cfg }) ∧
    (∀ cws, s.stage = .expand .deliver cws → s.cfg.outCap < s.dp.outBytes.length →
      exec .endStream s = .next (afterError false 0x00031401 s.cfg.outCap s)) ∧
    ((s.stage = .idle ∨ ∃ n ys, s.stage = .tokens n ys) →
      exec .endStream s = .fault .noStreamRunning)

/-- INVALID (42_lzw_expander.md R137) always raises CorruptStream with its cause at the codeword's index, and
nothing is output.
The internal registers that a completed command leaves are the model's reading (log entry 5). -/
def Obligations.InvalidRaises : Prop :=
  ∀ (s : State) (c : Nat) (cause : InvalidCause),
    exec (.invalid c cause) s = .next (afterError false (invalidWord 2 cause) s.dp.cur s)

/-- A codeword list valid up to its END expands: the expander neither raises nor stops on it, and what
follows the END is not read (42_lzw_expander.md R130, R136). -/
def Obligations.WellFormedCodesExpand : Prop :=
  ∀ (cfg : Config) (cws rest : List Nat), cfg.wf = true → wellFormedCodes cfg 0 cws = true →
    ∃ out, decompressLZW cfg cws = .ok out ∧ decompressLZW cfg (cws ++ rest) = .ok out

/-- Each data codeword adds at least one and at most J + 1 bytes to the output, J its index, and RESET none
(42_lzw_expander.md R140). -/
def Obligations.CodewordOutputBounds : Prop :=
  ∀ (cfg : Config) (done : List Nat) (c : Nat), cfg.wf = true → openCodes cfg 0 (done ++ [c]) = true →
    ∃ before ph, decompressLZW cfg (done ++ [cfg.endCode]) = .ok before ∧
      decompressLZW cfg (done ++ [c, cfg.endCode]) = .ok (before ++ ph) ∧
      (c = cfg.resetCode → ph = []) ∧
      (c ≠ cfg.resetCode → 1 ≤ ph.length ∧ ph.length ≤ indexAfter cfg 0 done + 1)

/-- LZW_DECODE completes (45_commands.md R200) on every list that begins with codewords valid up to an END,
with the expander's output in OUT_BUF.
The internal registers that a completed command leaves are the model's reading (log entry 5). -/
def Obligations.LzwDecodeCompletes : Prop :=
  ∀ (s : State) (cws rest : List Nat) (out : List Byte), s.cfg.wf = true →
    s.inLen.toNat ≤ s.cfg.inCap → s.inLen.toNat % 2 = 0 → inCodes s = cws ++ rest →
    wellFormedCodes s.cfg 0 cws = true → decompressLZW s.cfg cws = .ok out → out.length ≤ s.cfg.outCap →
    exec .lzwDecode s = .next (delivered out s)

/-- Where LZW_DECODE raises (45_commands.md R194, R200; 42_lzw_expander.md R137, R138): the operand checks;
the first INVALID codeword, at its index; no END; an output longer than OUT_CAP.
The internal registers that a completed command leaves are the model's reading (log entry 5). -/
def Obligations.LzwDecodeErrors : Prop :=
  ∀ (s : State), s.cfg.wf = true →
    (s.cfg.inCap < s.inLen.toNat ∨ s.inLen.toNat % 2 = 1 →
      exec .lzwDecode s = .next (afterError false 0x00004204 0 s)) ∧
    (s.inLen.toNat ≤ s.cfg.inCap → s.inLen.toNat % 2 = 0 →
      ∀ (done : List Nat) (c : Nat) (rest : List Nat) (cause : InvalidCause),
        inCodes s = done ++ c :: rest → openCodes s.cfg 0 done = true →
        classify s.cfg c (indexAfter s.cfg 0 done) = .invalid c cause →
        exec .lzwDecode s = .next (afterError false (invalidWord 2 cause) done.length s)) ∧
    (s.inLen.toNat ≤ s.cfg.inCap → s.inLen.toNat % 2 = 0 → openCodes s.cfg 0 (inCodes s) = true →
      exec .lzwDecode s = .next (afterError false 0x00022402 (inCodes s).length s)) ∧
    (s.inLen.toNat ≤ s.cfg.inCap → s.inLen.toNat % 2 = 0 →
      ∀ (cws rest : List Nat) (out : List Byte), inCodes s = cws ++ rest →
        wellFormedCodes s.cfg 0 cws = true → decompressLZW s.cfg cws = .ok out →
        s.cfg.outCap < out.length →
        exec .lzwDecode s = .next (afterError false 0x00031401 s.cfg.outCap s))

/-! ## The dictionary builder -/

/-- 43_lzw_builder.md R159: every output of compressLZW is valid at every index with one END, the last;
RESET stands only directly after the codeword at index DICT_LIMIT - FIRST_FREE of an epoch; packing it
never raises. compressLZW itself never fails (45_commands.md R191). Each data codeword is greedy (R152): among
the phrases of the dictionary, which is the expander's after it executes that codeword (42_lzw_expander.md
R139), its own is the longest that the rest of the input begins with, and no two entries of the dictionary
have the same PREFIX and SUFFIX (R155). -/
def Obligations.EncoderOutputWellFormed : Prop :=
  ∀ (cfg : Config) (bytes : List Byte), cfg.wf = true →
    ∃ cws, compressLZW cfg bytes = .ok cws ∧ wellFormedCodes cfg 0 cws = true ∧
      cws.getLast? = some cfg.endCode ∧ cws.count cfg.endCode = 1 ∧
      (∀ i, cws[i]? = some cfg.resetCode →
        1 ≤ i ∧ indexAfter cfg 0 (cws.take (i - 1)) = cfg.dictLimit - cfg.firstFree) ∧
      (∃ buf, packCodewords cfg cws = .ok buf ∧ readCodewords cfg buf 0 = .ok (cws, buf.length)) ∧
      ∀ i c, cws[i]? = some c → c ≠ cfg.resetCode → c ≠ cfg.endCode →
        ∃ before now ph,
          expandCodes cfg (cws.take i) (Datapath.reset cfg) = .ok before ∧
          expandCodes cfg (cws.take (i + 1)) (Datapath.reset cfg) = .ok now ∧
          phrase cfg now.dict c = some ph ∧ now.outBytes = before.outBytes ++ ph ∧
          now.outBytes <+: bytes ∧
          (∀ k other, phrase cfg now.dict k = some other → before.outBytes ++ other <+: bytes →
            other.length ≤ ph.length) ∧
          (now.dict.map fun e => (e.parent, e.suffix)).Nodup

/-- 43_lzw_builder.md R160: the LZW round-trip law, for every finite byte sequence. -/
def Obligations.LzwRoundTrip : Prop :=
  ∀ (cfg : Config) (bytes : List Byte), cfg.wf = true →
    ∃ cws, compressLZW cfg bytes = .ok cws ∧ decompressLZW cfg cws = .ok bytes

/-- 43_lzw_builder.md R157 and R158: the empty input, through compressLZW, the full pipeline and back, and
its packed form at the reference values; the two-byte scenario, in every configuration. -/
def Obligations.BoundaryScenarios : Prop :=
  (∀ cfg : Config, cfg.wf = true →
    compressLZW cfg [] = .ok [cfg.endCode] ∧ decompressLZW cfg [cfg.endCode] = .ok [] ∧
    compressRLE cfg [] = [] ∧
    (∃ buf, compress cfg [] = .ok buf ∧ packCodewords cfg [cfg.endCode] = .ok buf ∧
      decompress cfg buf 0 = .ok ([], buf.length)) ∧
    compressLZW cfg [0x41, 0x41] = .ok [0x041, 0x041, cfg.endCode] ∧
    decompressLZW cfg [0x041, 0x041, cfg.endCode] = .ok [0x41, 0x41]) ∧
  compress Config.reference [] = .ok [0x01, 0x01]

/-- LZW_ENCODE completes (45_commands.md R201) on every input that fits IN_BUF whose codeword list fits
OUT_BUF, with that list, two bytes per element, in OUT_BUF; otherwise it raises as R194 and R195 say. That
list is what the encoder's actions leave (43_lzw_builder.md R150), followed by FLUSH (R156); the action on each
byte is START (R151), EXTEND to the entry that lookup finds (R152, 10_state.md R32), EMIT_DEFINE (R153, R155)
or EMIT_RESET (R154).
The internal registers that a completed command leaves are the model's reading (log entry 5). -/
def Obligations.LzwEncodeCompletes : Prop :=
  (∀ (s : State) (cws : List Nat), s.cfg.wf = true →
    (s.inLen.toNat ≤ s.cfg.inCap → compressLZW s.cfg (inBytes s) = .ok cws →
      2 * cws.length ≤ s.cfg.outCap → exec .lzwEncode s = .next (delivered (words16LE cws) s)) ∧
    (s.inLen.toNat ≤ s.cfg.inCap → compressLZW s.cfg (inBytes s) = .ok cws →
      s.cfg.outCap < 2 * cws.length →
      exec .lzwEncode s = .next (afterError false 0x00031401 s.cfg.outCap s)) ∧
    (s.cfg.inCap < s.inLen.toNat → exec .lzwEncode s = .next (afterError false 0x00004204 0 s))) ∧
  (∀ (cfg : Config) (bytes : List Byte) (b : Byte) (x : Datapath),
    encodeLoop cfg bytes (Datapath.reset cfg) = .ok x →
    encodeLoop cfg (bytes ++ [b]) (Datapath.reset cfg)
      = (encodeByte cfg b x).map (fun y => { y with cur := y.cur + 1 }) ∧
    compressLZW cfg bytes = .ok (x.outCodes ++ x.cand.toList ++ [cfg.endCode])) ∧
  ∀ (cfg : Config) (b : Byte) (x : Datapath),
    (x.cand = none → encodeByte cfg b x = .ok { x with cand := some b.toNat }) ∧
    ∀ p, x.cand = some p →
      (∀ i e, x.dict[i]? = some e → e.parent = p → e.suffix = b →
        (x.dict.map fun e => (e.parent, e.suffix)).Nodup →
        encodeByte cfg b x = .ok { x with cand := some (cfg.firstFree + i) }) ∧
      ((∀ e ∈ x.dict, e.parent = p → e.suffix ≠ b) →
        (∀ ph, cfg.firstFree + x.j < cfg.dictLimit → x.dict.length = x.j →
          phrase cfg x.dict p = some ph →
          encodeByte cfg b x = .ok
            { x with
              outCodes := x.outCodes ++ [p]
              ocur := x.ocur + 1
              dict := x.dict ++ [⟨p, b, ph.headD 0, ph.length + 1⟩]
              j := x.j + 1
              nxt := cfg.firstFree + (x.j + 1)
              wid := widthAt cfg (x.j + 1)
              cand := some b.toNat }) ∧
        (cfg.firstFree + x.j = cfg.dictLimit →
          encodeByte cfg b x = .ok
            { x with
              outCodes := x.outCodes ++ [p, cfg.resetCode]
              ocur := x.ocur + 2
              dict := []
              j := 0
              nxt := cfg.firstFree
              wid := widthAt cfg 0
              cand := some b.toNat }))

/-! ## The RLE engine -/

/-- RLIT (44_rle.md R171) completes in every state, for every byte: it outputs the byte, advances CUR by 1 and
changes nothing else. ESC (R172) with a count of at least 1 completes in every state: it outputs that many
copies of the fill byte, advances CUR by 3 and changes nothing else. Truncated it raises RLE_TRUNCATED
(R173), with count 0 RLE_ZERO_COUNT (R174), at the marker's index.
The internal registers that a completed command leaves are the model's reading (log entry 5). -/
def Obligations.RleTokensComplete : Prop :=
  ∀ (s : State), s.cfg.wf = true →
    (∀ b : Byte,
      exec (.rlit b) s = .next
        { s with
          dp :=
            { s.dp with
              outBytes := s.dp.outBytes ++ [b]
              ocur := s.dp.ocur + 1
              cur := s.dp.cur + 1 } }) ∧
    (∀ n f : Byte, n ≠ 0 →
      exec (.esc (.whole n f)) s = .next
        { s with
          dp :=
            { s.dp with
              outBytes := s.dp.outBytes ++ List.replicate n.toNat f
              ocur := s.dp.ocur + n.toNat
              cur := s.dp.cur + 3 } }) ∧
    (∀ f : Byte, exec (.esc (.whole 0 f)) s = .next (afterError false 0x00032602 s.dp.cur s)) ∧
    (∀ n : Option Byte, exec (.esc (.cut n)) s = .next (afterError false 0x00032502 s.dp.cur s))

/-- RLE_DECODE completes (45_commands.md R202, 44_rle.md R170) on every sequence of valid tokens, the forms
the encoder never writes among them (R179), with the concatenation of their expansions in OUT_BUF.
The internal registers that a completed command leaves are the model's reading (log entry 5). -/
def Obligations.RleDecodeCompletes : Prop :=
  ∀ (s : State) (ts : List Token), s.cfg.wf = true → s.inLen.toNat ≤ s.cfg.inCap →
    ts.all (Token.valid s.cfg) = true → inBytes s = ts.flatMap (Token.bytes s.cfg) →
    (ts.flatMap Token.expansion).length ≤ s.cfg.outCap →
    exec .rleDecode s = .next (delivered (ts.flatMap Token.expansion) s)

/-- Where RLE_DECODE raises (45_commands.md R194, R202; 44_rle.md R173, R174): the operand check; the first
faulty escape in byte order, at its marker; an output longer than OUT_CAP.
The internal registers that a completed command leaves are the model's reading (log entry 5). -/
def Obligations.RleDecodeErrors : Prop :=
  ∀ (s : State), s.cfg.wf = true →
    (s.cfg.inCap < s.inLen.toNat → exec .rleDecode s = .next (afterError false 0x00004204 0 s)) ∧
    (s.inLen.toNat ≤ s.cfg.inCap →
      ∀ (ts : List Token) (tail : List Byte), ts.all (Token.valid s.cfg) = true →
        inBytes s = ts.flatMap (Token.bytes s.cfg) ++ s.cfg.rleMarker :: tail → tail.length < 2 →
        exec .rleDecode s =
          .next (afterError false 0x00032502 (ts.flatMap (Token.bytes s.cfg)).length s)) ∧
    (s.inLen.toNat ≤ s.cfg.inCap →
      ∀ (ts : List Token) (f : Byte) (rest : List Byte), ts.all (Token.valid s.cfg) = true →
        inBytes s = ts.flatMap (Token.bytes s.cfg) ++ s.cfg.rleMarker :: 0 :: f :: rest →
        exec .rleDecode s =
          .next (afterError false 0x00032602 (ts.flatMap (Token.bytes s.cfg)).length s)) ∧
    (s.inLen.toNat ≤ s.cfg.inCap →
      ∀ ts : List Token, ts.all (Token.valid s.cfg) = true →
        inBytes s = ts.flatMap (Token.bytes s.cfg) →
        s.cfg.outCap < (ts.flatMap Token.expansion).length →
        exec .rleDecode s = .next (afterError false 0x00031401 s.cfg.outCap s))

/-- RLE_ENCODE completes (45_commands.md R203) on every input that fits IN_BUF whose encoding fits OUT_BUF;
otherwise it raises as R194 and R195 say.
The internal registers that a completed command leaves are the model's reading (log entry 5). -/
def Obligations.RleEncodeCompletes : Prop :=
  ∀ (s : State),
    (s.inLen.toNat ≤ s.cfg.inCap → (compressRLE s.cfg (inBytes s)).length ≤ s.cfg.outCap →
      exec .rleEncode s = .next (delivered (compressRLE s.cfg (inBytes s)) s)) ∧
    (s.inLen.toNat ≤ s.cfg.inCap → s.cfg.outCap < (compressRLE s.cfg (inBytes s)).length →
      exec .rleEncode s = .next (afterError false 0x00031401 s.cfg.outCap s)) ∧
    (s.cfg.inCap < s.inLen.toNat → exec .rleEncode s = .next (afterError false 0x00004204 0 s))

/-- compressRLE encodes each maximal run as floor(L / RLE_MAX_RUN) full chunks and then the remainder; a
chunk is an escape exactly when its byte is RLE_MARKER or it has RLE_MIN_RUN bytes or more
(44_rle.md R175 to R178). -/
def Obligations.RleEncodesMaximalRuns : Prop :=
  ∀ (cfg : Config) (b : Byte) (len : Nat) (rest : List Byte), cfg.wf = true → 1 ≤ len →
    rest.head? ≠ some b →
    compressRLE cfg (List.replicate len b ++ rest) =
      (List.replicate (len / cfg.rleMaxRun)
        [cfg.rleMarker, BitVec.ofNat 8 cfg.rleMaxRun, b]).flatten
      ++ (if len % cfg.rleMaxRun = 0 then []
          else if b = cfg.rleMarker ∨ cfg.rleMinRun ≤ len % cfg.rleMaxRun then
            [cfg.rleMarker, BitVec.ofNat 8 (len % cfg.rleMaxRun), b]
          else List.replicate (len % cfg.rleMaxRun) b)
      ++ compressRLE cfg rest

/-- 44_rle.md R180: the RLE round-trip law, for every finite byte sequence. -/
def Obligations.RleRoundTrip : Prop :=
  ∀ (cfg : Config) (bytes : List Byte), cfg.wf = true →
    decompressRLE cfg (compressRLE cfg bytes) = .ok bytes

/-- 44_rle.md R182: 200 copies of any byte, the marker among them, become one escape and come back. -/
def Obligations.RleScenario : Prop :=
  ∀ (cfg : Config) (v : Byte), cfg.wf = true → cfg.rleMinRun ≤ 200 → 200 ≤ cfg.rleMaxRun →
    compressRLE cfg (List.replicate 200 v) = [cfg.rleMarker, 200, v] ∧
    decompressRLE cfg [cfg.rleMarker, 200, v] = .ok (List.replicate 200 v)

/-- 44_rle.md R183: the size bounds. -/
def Obligations.RleSizeBounds : Prop :=
  ∀ (cfg : Config) (bytes : List Byte), cfg.wf = true →
    (compressRLE cfg bytes).length ≤ 3 * bytes.length ∧
    (cfg.rleMarker ∉ bytes → (compressRLE cfg bytes).length ≤ bytes.length)

/-! ## The pipeline -/

/-- DECOMPRESS completes (45_commands.md R190, R204) where its three stages have results and the final bytes
fit OUT_BUF; the intermediate sequences have no limit.
The internal registers that a completed command leaves are the model's reading (log entry 5). -/
def Obligations.DecompressCompletes : Prop :=
  ∀ (s : State) (cws : List Nat) (n : Nat) (y raw : List Byte),
    readCodewords s.cfg (imageBytes s) s.argOffset.toNat = .ok (cws, n) →
    decompressLZW s.cfg cws = .ok y → decompressRLE s.cfg y = .ok raw → raw.length ≤ s.cfg.outCap →
    exec .decompress s = .next { delivered raw s with bytesRead := BitVec.ofNat 32 n }

/-- Where DECOMPRESS raises (45_commands.md R190, R204; 60_exceptions.md R227): as READ_CODEWORDS does where
the reader raises; the LZW stage never raises on the reader's list; then a faulty RLE escape, at its index
in the intermediate stream; last an output longer than OUT_CAP.
The internal registers that a completed command leaves are the model's reading (log entry 5). -/
def Obligations.DecompressErrors : Prop :=
  ∀ (s : State), s.cfg.wf = true →
    (∀ e, readCodewords s.cfg (imageBytes s) s.argOffset.toNat = .error (.raised e) →
      exec .decompress s = exec .readCodewords s ∧
      exec .decompress s = .next (afterError false (errWord e) e.pos s)) ∧
    (∀ cws n, readCodewords s.cfg (imageBytes s) s.argOffset.toNat = .ok (cws, n) →
      ∃ y, decompressLZW s.cfg cws = .ok y ∧
        (∀ e, decompressRLE s.cfg y = .error (.raised e) →
          (e.cause = .rleTruncated ∨ e.cause = .rleZeroCount) ∧ e.unit = .byte ∧ e.pos < y.length ∧
          exec .decompress s = .next (afterError false (errWord e) e.pos s)) ∧
        (∀ raw, decompressRLE s.cfg y = .ok raw → s.cfg.outCap < raw.length →
          exec .decompress s = .next (afterError false 0x00031401 s.cfg.outCap s)))

/-- COMPRESS completes (45_commands.md R191, R205) on every input that fits IN_BUF whose packed form fits
OUT_BUF, with the packing of the LZW encoding of the RLE encoding; otherwise it raises as R194 and R195 say,
and nothing else is reachable.
The internal registers that a completed command leaves are the model's reading (log entry 5). -/
def Obligations.CompressCompletes : Prop :=
  ∀ (s : State), s.cfg.wf = true →
    ∃ cws buf, compressLZW s.cfg (compressRLE s.cfg (inBytes s)) = .ok cws ∧
      packCodewords s.cfg cws = .ok buf ∧ compress s.cfg (inBytes s) = .ok buf ∧
      (s.inLen.toNat ≤ s.cfg.inCap → buf.length ≤ s.cfg.outCap →
        exec .compress s = .next (delivered buf s)) ∧
      (s.inLen.toNat ≤ s.cfg.inCap → s.cfg.outCap < buf.length →
        exec .compress s = .next (afterError false 0x00031401 s.cfg.outCap s)) ∧
      (s.cfg.inCap < s.inLen.toNat → exec .compress s = .next (afterError false 0x00004204 0 s))

/-- 45_commands.md R208: the full pipeline round-trip, for every finite byte sequence. -/
def Obligations.PipelineRoundTrip : Prop :=
  ∀ (cfg : Config) (z : List Byte), cfg.wf = true →
    ∃ buf, compress cfg z = .ok buf ∧ decompress cfg buf 0 = .ok (z, buf.length)

/-! ## Commands as a whole -/

/-- SOFT_RESET (45_commands.md R206): every register holds its reset value, DONE among them 0; the contents of
IN_BUF and OUT_BUF are unchanged, and so is everything outside the core. -/
def Obligations.SoftResetCompletes : Prop :=
  ∀ (s : State),
    exec .softReset s = .next
      { s with
        status := 0, err := 0, errPos := 0
        argOffset := 0, argWidth := 0, argValue := 0, inLen := 0
        resValue := 0, resPos := 0, outLen := 0, bytesRead := 0
        dp := Datapath.reset s.cfg
        stage := .idle }

/-- The reserved OPCODEs 0x0 and 0xB to 0xE complete with BadCommand(ILLEGAL_OPCODE), which changes only
STATUS, ERR, ERR_POS and OUT_LEN, which becomes 0 (30_encoding.md R81, 45_commands.md R207); OUT_BUF has no
value after it (20_memory.md R53).
The internal registers that a completed command leaves are the model's reading (log entry 5). -/
def Obligations.ReservedOpcodesRaise : Prop :=
  ∀ (s : State) (i : Instr), i ∈ [.reserved0, .reservedB, .reservedC, .reservedD, .reservedE] →
    exec i s = .next (afterError false 0x00004104 0 s) ∧
    ∀ v : Word, decodeCommand v = i ↔ encode s.cfg i = .command (v &&& 0xF)

/-- Every command but SOFT_RESET completes, in every state of a well-formed configuration: with DONE alone and
no error recorded, or with DONE and ERROR; BUSY is 0 and no stream is left (60_exceptions.md R232).
The internal registers that a completed command leaves are the model's reading (log entry 5). -/
def Obligations.CommandsComplete : Prop :=
  ∀ (s : State) (i : Instr), s.cfg.wf = true → isCommand s.cfg i = true → i ≠ .softReset →
    ∃ t, exec i s = .next t ∧ t.stage = .idle ∧ t.dp = Datapath.reset s.cfg ∧
      ((t.status = 0x2 ∧ t.err = 0 ∧ t.errPos = 0) ∨ (t.status = 0x6 ∧ t.err ≠ 0))

/-- 60_exceptions.md R231: what an error leaves behind, for every command: the record is of an error that the
command raised there. -/
def Obligations.ErrorLeaves : Prop :=
  ∀ (s t : State) (i : Instr), isCommand s.cfg i = true → exec i s = .next t →
    errorFlag t.status = true →
    t.status = 0x6 ∧ (∃ e : Err, raisedBy s i e ∧ t.err = errWord e ∧ t.errPos = BitVec.ofNat 32 e.pos) ∧
    (i = .readBits ∨ i = .writeBits →
      t.resValue = s.resValue ∧ t.resPos = s.resPos ∧ t.bytesRead = s.bytesRead ∧
      t.outLen = s.outLen ∧ t.outBuf = s.outBuf) ∧
    (i ≠ .readBits → i ≠ .writeBits →
      t.outLen = 0 ∧ t.outBuf = [] ∧ t.resValue = s.resValue ∧ t.resPos = s.resPos ∧
      t.bytesRead = s.bytesRead) ∧
    t.argOffset = s.argOffset ∧ t.argWidth = s.argWidth ∧ t.argValue = s.argValue ∧
    t.inLen = s.inLen ∧ t.inBuf = s.inBuf

/-- No instruction but SOFT_RESET writes an operand register, and none writes IN_BUF, IMAGE, the
configuration or anything outside the core (10_state.md R38, 20_memory.md R51, R52). -/
def Obligations.CoreNeverWritesInputs : Prop :=
  ∀ (s t : State) (i : Instr), exec i s = .next t →
    (i ≠ .softReset → t.argOffset = s.argOffset ∧ t.argWidth = s.argWidth ∧ t.argValue = s.argValue ∧
      t.inLen = s.inLen) ∧
    t.inBuf = s.inBuf ∧ t.image = s.image ∧ t.cfg = s.cfg ∧ t.host = s.host ∧
    t.hostData = s.hostData ∧ t.draws = s.draws ∧ t.epoch = s.epoch

/-- Which result registers each command may write (10_state.md R39, 30_encoding.md R80): RES_VALUE only
READ_BITS, RES_POS only READ_BITS and WRITE_BITS, BYTES_READ only READ_CODEWORDS and DECOMPRESS, and
READ_BITS neither OUT_LEN nor OUT_BUF. -/
def Obligations.ResultRegisterWriters : Prop :=
  ∀ (s t : State) (i : Instr), isCommand s.cfg i = true → i ≠ .softReset → exec i s = .next t →
    (i ≠ .readBits → t.resValue = s.resValue) ∧
    (i ≠ .readBits → i ≠ .writeBits → t.resPos = s.resPos) ∧
    (i ≠ .readCodewords → i ≠ .decompress → t.bytesRead = s.bytesRead) ∧
    (i = .readBits → t.outLen = s.outLen ∧ t.outBuf = s.outBuf)

/-- No hidden state leaks into a command: its outcome does not depend on the internal registers, STATUS, ERR
or ERR_POS it finds (00_scope.md R4, 10_state.md R41). -/
def Obligations.NoHiddenState : Prop :=
  ∀ (s : State) (x : Datapath) (status err errPos : Word) (i : Instr), isCommand s.cfg i = true →
    exec i { s with dp := x, status := status, err := err, errPos := errPos } = exec i s

/-! ## The step -/

/-- A step runs the decoded instruction: of an idle core the CMD write at the head of the queue, which leaves
the queue; of a running stream the codeword or the token at CUR. -/
def Obligations.StepRunsDecodedInstruction : Prop :=
  ∀ (s : State), s.cfg.wf = true →
    (∀ v rest, s.stage = .idle → s.host = .regWrite 0 4 v :: rest →
      step s = exec (decodeCommand v) { s with host := rest }) ∧
    (∀ ret cws c, s.stage = .expand ret cws → cws[s.dp.cur]? = some c → c < 2 ^ 16 →
      step s = exec (classify s.cfg c s.dp.j).toInstr s) ∧
    (∀ n ys t rest, s.stage = .tokens n ys → decodeToken s.cfg (ys.drop s.dp.cur) = some (t, rest) →
      step s = exec t.toInstr s)

/-- Where a step runs no instruction: an idle core with no access waiting stays as it is
(60_exceptions.md R240); a codeword list with no unit left raises MISSING_END (42_lzw_expander.md R138); a
token stream with none left returns its output (44_rle.md R170, 45_commands.md R195); an ill-formed
configuration is refused (00_scope.md R8).
The internal registers that a completed command leaves are the model's reading (log entry 5). -/
def Obligations.StepWithoutInstruction : Prop :=
  ∀ (s : State),
    (s.cfg.wf = false → step s = .refused .illFormedConfig) ∧
    (s.cfg.wf = true →
      (s.stage = .idle → s.host = [] → step s = .next s) ∧
      (∀ ret cws, s.stage = .expand ret cws → cws.length ≤ s.dp.cur →
        step s = .next (afterError false 0x00022402 s.dp.cur s)) ∧
      (∀ n ys, s.stage = .tokens n ys → ys.length ≤ s.dp.cur → s.err = 0 → s.errPos = 0 →
        s.dp.outBytes.length ≤ s.cfg.outCap →
        step s = .next
          { delivered s.dp.outBytes s with
            bytesRead := match n with | none => s.bytesRead | some k => BitVec.ofNat 32 k }))

/-- Taking a command as one transition is taking its stream step by step (45_commands.md R193): from the
state the prologue leaves, the steps of LZW_DECODE's codewords, of RLE_DECODE's tokens, and of both for
DECOMPRESS end where the command does, errors included. The stages are the model's own (log entry 6). -/
def Obligations.AtomicEqualsStepByStep : Prop :=
  ∀ (s : State), s.cfg.wf = true →
    (s.inLen.toNat ≤ s.cfg.inCap → s.inLen.toNat % 2 = 0 →
      runStream ((inCodes s).length + 1) { prologue s with stage := .expand .deliver (inCodes s) }
        = exec .lzwDecode s) ∧
    (s.inLen.toNat ≤ s.cfg.inCap →
      runStream (s.inLen.toNat + 1) { prologue s with stage := .tokens none (inBytes s) }
        = exec .rleDecode s) ∧
    (∀ cws n, readCodewords s.cfg (imageBytes s) s.argOffset.toNat = .ok (cws, n) →
      ∃ k, runStream k { prologue s with stage := .expand (.rle n) cws } = exec .decompress s)

/-! ## The host's accesses and reset -/

/-- The host's register accesses (10_state.md R34, R38, R40): a write changes its one operand register (of
ARG_WIDTH the bits [4:0]) and no other state, and none at a read-only or reserved offset; a read returns
the register and changes nothing; CMD and reserved offsets read 0. -/
def Obligations.HostRegisterAccess : Prop :=
  ∀ (s : State) (rest : List HostAccess), s.cfg.wf = true → s.stage = .idle →
    (∀ v, s.host = .regWrite 0x10 4 v :: rest → step s = .next { s with host := rest, argOffset := v }) ∧
    (∀ v, s.host = .regWrite 0x14 4 v :: rest →
      step s = .next { s with host := rest, argWidth := v &&& 0x1F }) ∧
    (∀ v, s.host = .regWrite 0x18 4 v :: rest → step s = .next { s with host := rest, argValue := v }) ∧
    (∀ v, s.host = .regWrite 0x1C 4 v :: rest → step s = .next { s with host := rest, inLen := v }) ∧
    (∀ offset v, s.host = .regWrite offset 4 v :: rest → offset % 4 = 0 →
      offset ∉ [0x00, 0x10, 0x14, 0x18, 0x1C] → step s = .next { s with host := rest }) ∧
    (∀ k, ∀ _ : k < 12, s.host = .regRead (4 * k) 4 :: rest →
      step s = .next
        { s with
          host := rest
          hostData := [0, s.status, s.err, s.errPos, s.argOffset, s.argWidth, s.argValue, s.inLen,
            s.resValue, s.resPos, s.outLen, s.bytesRead].getD k 0 }) ∧
    (∀ k, 12 ≤ k → s.host = .regRead (4 * k) 4 :: rest →
      step s = .next { s with host := rest, hostData := 0 })

/-- The accesses from outside to the buffers (20_memory.md R50, R53): a byte written reads back and every other
byte stays; the host reads the output below OUT_LEN and a free value, whatever it is, at or above it
(93_implementation_defined.md I12); an address its space does not have is a fault of the model
(log entry 11). -/
def Obligations.HostBufferAccess : Prop :=
  ∀ (s : State) (rest : List HostAccess) (a : Nat), s.cfg.wf = true → s.stage = .idle →
    (∀ b, s.host = .inWrite a b :: rest → a < s.cfg.inCap →
      ∃ m : Memory, step s = .next { s with host := rest, inBuf := m } ∧ m.read? a = some b ∧
        ∀ k, k ≠ a → m.read? k = s.inBuf.read? k) ∧
    (∀ b, s.host = .imageLoad a b :: rest → a < s.cfg.imgLen →
      ∃ m : Memory, step s = .next { s with host := rest, image := m } ∧ m.read? a = some b ∧
        ∀ k, k ≠ a → m.read? k = s.image.read? k) ∧
    (∀ b, s.host = .outRead a :: rest → a < s.cfg.outCap → a < s.outLen.toNat →
      s.outBuf.read? a = some b →
      step s = .next { s with host := rest, hostData := b.setWidth 32 }) ∧
    (s.host = .outRead a :: rest → a < s.cfg.outCap → s.outLen.toNat ≤ a →
      step s = .next
        { s with
          host := rest
          hostData := (Config.freeByte .outBuf s.draws a).setWidth 32
          draws := s.draws + 1 }) ∧
    (∀ b, s.host = .inWrite a b :: rest → s.cfg.inCap ≤ a → step s = .fault .noSuchAddress) ∧
    (∀ b, s.host = .imageLoad a b :: rest → s.cfg.imgLen ≤ a → step s = .fault .noSuchAddress) ∧
    (s.host = .outRead a :: rest → s.cfg.outCap ≤ a → step s = .fault .noSuchAddress)

/-- 20_memory.md R54: a narrower, wider or misaligned host access to REGS has no transition. -/
def Obligations.UnalignedAccessRefused : Prop :=
  ∀ (s : State) (rest : List HostAccess) (offset size : Nat) (v : Word), s.cfg.wf = true →
    s.stage = .idle → size ≠ 4 ∨ offset % 4 ≠ 0 →
    s.host = .regWrite offset size v :: rest ∨ s.host = .regRead offset size :: rest →
    step s = .refused .notAnAlignedWordAccess

/-- Power-on reset (70_reset_and_hazards.md R250, R251): every register and every internal register at its
reset value, IN_BUF and OUT_BUF with no value, IMAGE and the configuration untouched. The queue of
accesses and the draw counters are the model's own (log entries 3, 4 and 7). -/
def Obligations.PowerOnReset : Prop :=
  ∀ (s : State) (rest : List HostAccess), s.cfg.wf = true → s.stage = .idle → s.host = .powerOn :: rest →
    step s = .next
      { State.powerOn s.cfg s.image with
        host := rest, hostData := s.hostData, draws := s.draws, epoch := s.epoch + 1 }

/-! ## Invariants -/

/-- The reset state is well formed, and so is the power-on state of every well-formed configuration and
image. -/
def Obligations.ResetIsWellFormed : Prop :=
  State.reset.Inv ∧
  ∀ (cfg : Config) (image : Memory), cfg.wf = true → image.wf = true → image.within cfg.imgLen = true →
    (State.powerOn cfg image).Inv

/-- Every step keeps the invariant: memories stay canonical and inside their spaces, OUT_BUF holds a value at
every byte below OUT_LEN, reserved bits read 0, no error is recorded without ERROR, the expander's
dictionary, PREV, NXT and WID agree with J, and an idle core's internal registers are at reset. -/
def Obligations.StepKeepsInvariant : Prop :=
  ∀ (s t : State), s.Inv → step s = .next t → t.Inv

/-- From every well-formed state a step ends in a next state, whatever command, codeword or token it runs,
if the access that waits is one the binding has (20_memory.md R50, R54). -/
def Obligations.LegalStepsAreSafe : Prop :=
  ∀ (s : State), s.Inv → (∀ a rest, s.host = a :: rest → a.legal s.cfg = true) → Safe s
end

