-- ==== Sys2Proof/Laws/Memory.lean ====
section
/-! SUPPORT. The laws of byte memory: reading after writing, and the canonical form. -/

namespace Sys2Proof.Machine

theorem read?_write_same (m : Memory) (k : Nat) (v : Byte) : (m.write k v).read? k = some v := by
  induction m with
  | nil => simp [Memory.write, Memory.read?]
  | cons c m ih =>
    obtain ⟨a, b⟩ := c
    unfold Memory.write
    split
    · simp [Memory.read?]
    · split
      · simp [Memory.read?]
      · rename_i h
        simpa [Memory.read?, Ne.symm h] using ih

theorem read?_write_other (m : Memory) {k l : Nat} (v : Byte) (h : l ≠ k) :
    (m.write k v).read? l = m.read? l := by
  induction m with
  | nil => simp [Memory.write, Memory.read?, Ne.symm h]
  | cons c m ih =>
    obtain ⟨a, b⟩ := c
    unfold Memory.write
    split
    · simp [Memory.read?, Ne.symm h]
    · split
      · rename_i hk
        subst hk
        simp [Memory.read?, Ne.symm h]
      · simp only [Memory.read?, ih]

/-- The canonical form as a list fact: each address is below all later ones. -/
theorem wf_cons_iff (a : Nat) (b : Byte) (m : Memory) :
    Memory.wf ((a, b) :: m) = true ↔ (∀ c ∈ m, a < c.1) ∧ m.wf = true := by
  induction m generalizing a b with
  | nil => simp [Memory.wf]
  | cons c m ih =>
    obtain ⟨a', b'⟩ := c
    simp only [Memory.wf, Bool.and_eq_true, decide_eq_true_eq, List.forall_mem_cons]
    constructor
    · rintro ⟨hlt, hw⟩
      have := (ih a' b').1 hw
      exact ⟨⟨hlt, fun c hc => hlt.trans (this.1 c hc)⟩, hw⟩
    · rintro ⟨⟨hlt, _⟩, hw⟩
      exact ⟨hlt, hw⟩

theorem mem_write {m : Memory} {k : Nat} {v : Byte} {c : Host.Cell} (h : c ∈ m.write k v) :
    c = (k, v) ∨ c ∈ m := by
  induction m with
  | nil => simpa [Memory.write] using h
  | cons d m ih =>
    obtain ⟨a, b⟩ := d
    unfold Memory.write at h
    split at h
    · simpa using h
    · split at h
      · simp only [List.mem_cons] at h ⊢
        tauto
      · simp only [List.mem_cons] at h ⊢
        rcases h with h | h
        · exact .inr (.inl h)
        · exact (ih h).imp id .inr

theorem write_wf {m : Memory} (k : Nat) (v : Byte) (h : m.wf = true) : (m.write k v).wf = true := by
  induction m with
  | nil => rfl
  | cons c m ih =>
    obtain ⟨a, b⟩ := c
    have h' := (wf_cons_iff a b m).1 h
    unfold Memory.write
    split
    · rename_i hlt
      refine (wf_cons_iff _ _ _).2 ⟨fun c hc => ?_, h⟩
      rcases List.mem_cons.1 hc with rfl | hc
      · exact hlt
      · exact hlt.trans (h'.1 c hc)
    · split
      · rename_i hk
        subst hk
        exact (wf_cons_iff _ _ _).2 h'
      · rename_i hge hne
        refine (wf_cons_iff _ _ _).2 ⟨fun c hc => ?_, ih h'.2⟩
        rcases mem_write hc with rfl | hc
        · simp only
          omega
        · exact h'.1 c hc

theorem within_iff (size : Nat) (m : Memory) : m.within size = true ↔ ∀ c ∈ m, c.1 < size := by
  simp [Memory.within]

theorem write_within {m : Memory} {size k : Nat} (v : Byte) (hk : k < size) (h : m.within size = true) :
    (m.write k v).within size = true := by
  rw [within_iff] at *
  intro c hc
  rcases mem_write hc with rfl | hc
  · exact hk
  · exact h c hc

theorem mem_ofBytesFrom {base : Nat} {bs : List Byte} {c : Host.Cell} (h : c ∈ Memory.ofBytesFrom base bs) :
    base ≤ c.1 ∧ c.1 < base + bs.length := by
  induction bs generalizing base with
  | nil => simp [Memory.ofBytesFrom] at h
  | cons b bs ih =>
    simp only [Memory.ofBytesFrom, List.mem_cons] at h
    rcases h with rfl | h
    · simp
    · have := ih h
      simp only [List.length_cons]
      omega

theorem ofBytesFrom_wf (base : Nat) (bs : List Byte) : (Memory.ofBytesFrom base bs).wf = true := by
  induction bs generalizing base with
  | nil => rfl
  | cons b bs ih =>
    refine (wf_cons_iff _ _ _).2 ⟨fun c hc => ?_, ih (base + 1)⟩
    have := mem_ofBytesFrom hc
    omega

theorem read?_ofBytesFrom (base : Nat) (bs : List Byte) (k : Nat) :
    (Memory.ofBytesFrom base bs).read? k = if k < base then none else bs[k - base]? := by
  induction bs generalizing base with
  | nil => simp [Memory.ofBytesFrom, Memory.read?]
  | cons b bs ih =>
    simp only [Memory.ofBytesFrom, Memory.read?]
    by_cases h : base = k
    · simp [h]
    · simp only [h, if_false, ih]
      by_cases hk : k < base
      · simp [hk, show k < base + 1 by omega]
      · simp [hk, show ¬k < base + 1 by omega, show k - base = k - (base + 1) + 1 by omega]

theorem ofBytes_wf (bs : List Byte) : (Memory.ofBytes bs).wf = true := ofBytesFrom_wf 0 bs

theorem read?_ofBytes (bs : List Byte) (k : Nat) : (Memory.ofBytes bs).read? k = bs[k]? := by
  simp [Memory.ofBytes, read?_ofBytesFrom]

theorem ofBytes_within {bs : List Byte} {size : Nat} (h : bs.length ≤ size) :
    (Memory.ofBytes bs).within size = true := by
  rw [within_iff]
  intro c hc
  have := mem_ofBytesFrom hc
  omega

@[simp] theorem nil_wf : Memory.wf [] = true := rfl

@[simp] theorem nil_within (size : Nat) : Memory.within size [] = true := rfl

/-! ## Operands -/

@[simp] theorem inBytes_length (s : State) : (inBytes s).length = s.inLen.toNat := by simp [inBytes]

@[simp] theorem imageBytes_length (s : State) : (imageBytes s).length = s.cfg.imgLen := by simp [imageBytes]

@[simp] theorem outBytes_length (s : State) : (outBytes s).length = s.outLen.toNat := by simp [outBytes]

theorem codesOfBytes_lt {bs : List Byte} {c : Nat} (h : c ∈ codesOfBytes bs) : c < 2 ^ 16 := by
  induction bs using codesOfBytes.induct with
  | case1 lo hi bs ih =>
    simp only [codesOfBytes, List.mem_cons] at h
    rcases h with rfl | h
    · have := lo.isLt
      have := hi.isLt
      omega
    · exact ih h
  | case2 bs hne => simp [codesOfBytes] at h

theorem codesOfBytes_words16LE {cws : List Nat} (h : ∀ c ∈ cws, c < 2 ^ 16) :
    codesOfBytes (words16LE cws) = cws := by
  induction cws with
  | nil => rfl
  | cons c cws ih =>
    have hc := h c (by simp)
    have ih := ih fun d hd => h d (by simp [hd])
    simp only [words16LE, List.flatMap_cons, List.cons_append, List.nil_append, codesOfBytes,
      BitVec.toNat_ofNat]
    simp only [words16LE] at ih
    rw [ih]
    congr 1
    omega

end Sys2Proof.Machine
end

