-- ==== Sys2Proof/Laws/State.lean ====
section
/-! SUPPORT. One lemma per field per shared update of the state, each true by rfl. -/

namespace Sys2Proof.Machine

/-! ## prologue -/

@[simp] theorem prologue_cfg (s : State) : (prologue s).cfg = s.cfg := rfl
@[simp] theorem prologue_status (s : State) : (prologue s).status = statusWord true false false := rfl
@[simp] theorem prologue_err (s : State) : (prologue s).err = 0 := rfl
@[simp] theorem prologue_errPos (s : State) : (prologue s).errPos = 0 := rfl
@[simp] theorem prologue_argOffset (s : State) : (prologue s).argOffset = s.argOffset := rfl
@[simp] theorem prologue_argWidth (s : State) : (prologue s).argWidth = s.argWidth := rfl
@[simp] theorem prologue_argValue (s : State) : (prologue s).argValue = s.argValue := rfl
@[simp] theorem prologue_inLen (s : State) : (prologue s).inLen = s.inLen := rfl
@[simp] theorem prologue_resValue (s : State) : (prologue s).resValue = s.resValue := rfl
@[simp] theorem prologue_resPos (s : State) : (prologue s).resPos = s.resPos := rfl
@[simp] theorem prologue_outLen (s : State) : (prologue s).outLen = s.outLen := rfl
@[simp] theorem prologue_bytesRead (s : State) : (prologue s).bytesRead = s.bytesRead := rfl
@[simp] theorem prologue_image (s : State) : (prologue s).image = s.image := rfl
@[simp] theorem prologue_inBuf (s : State) : (prologue s).inBuf = s.inBuf := rfl
@[simp] theorem prologue_outBuf (s : State) : (prologue s).outBuf = s.outBuf := rfl
@[simp] theorem prologue_dp (s : State) : (prologue s).dp = Datapath.reset s.cfg := rfl
@[simp] theorem prologue_stage (s : State) : (prologue s).stage = s.stage := rfl
@[simp] theorem prologue_host (s : State) : (prologue s).host = s.host := rfl
@[simp] theorem prologue_hostData (s : State) : (prologue s).hostData = s.hostData := rfl
@[simp] theorem prologue_draws (s : State) : (prologue s).draws = s.draws := rfl
@[simp] theorem prologue_epoch (s : State) : (prologue s).epoch = s.epoch := rfl

/-! ## complete -/

@[simp] theorem complete_cfg (s : State) : (complete s).cfg = s.cfg := rfl
@[simp] theorem complete_status (s : State) : (complete s).status = statusWord false true false := rfl
@[simp] theorem complete_err (s : State) : (complete s).err = s.err := rfl
@[simp] theorem complete_errPos (s : State) : (complete s).errPos = s.errPos := rfl
@[simp] theorem complete_argOffset (s : State) : (complete s).argOffset = s.argOffset := rfl
@[simp] theorem complete_argWidth (s : State) : (complete s).argWidth = s.argWidth := rfl
@[simp] theorem complete_argValue (s : State) : (complete s).argValue = s.argValue := rfl
@[simp] theorem complete_inLen (s : State) : (complete s).inLen = s.inLen := rfl
@[simp] theorem complete_resValue (s : State) : (complete s).resValue = s.resValue := rfl
@[simp] theorem complete_resPos (s : State) : (complete s).resPos = s.resPos := rfl
@[simp] theorem complete_outLen (s : State) : (complete s).outLen = s.outLen := rfl
@[simp] theorem complete_bytesRead (s : State) : (complete s).bytesRead = s.bytesRead := rfl
@[simp] theorem complete_image (s : State) : (complete s).image = s.image := rfl
@[simp] theorem complete_inBuf (s : State) : (complete s).inBuf = s.inBuf := rfl
@[simp] theorem complete_outBuf (s : State) : (complete s).outBuf = s.outBuf := rfl
@[simp] theorem complete_dp (s : State) : (complete s).dp = Datapath.reset s.cfg := rfl
@[simp] theorem complete_stage (s : State) : (complete s).stage = .idle := rfl
@[simp] theorem complete_host (s : State) : (complete s).host = s.host := rfl
@[simp] theorem complete_hostData (s : State) : (complete s).hostData = s.hostData := rfl
@[simp] theorem complete_draws (s : State) : (complete s).draws = s.draws := rfl
@[simp] theorem complete_epoch (s : State) : (complete s).epoch = s.epoch := rfl

/-! ## raiseError -/

@[simp] theorem raiseError_cfg (keep : Bool) (e : Err) (s : State) : (raiseError keep e s).cfg = s.cfg := rfl
@[simp] theorem raiseError_status (keep : Bool) (e : Err) (s : State) : (raiseError keep e s).status = statusWord false true true := rfl
@[simp] theorem raiseError_err (keep : Bool) (e : Err) (s : State) : (raiseError keep e s).err = errWord e := rfl
@[simp] theorem raiseError_errPos (keep : Bool) (e : Err) (s : State) : (raiseError keep e s).errPos = BitVec.ofNat 32 e.pos := rfl
@[simp] theorem raiseError_argOffset (keep : Bool) (e : Err) (s : State) : (raiseError keep e s).argOffset = s.argOffset := rfl
@[simp] theorem raiseError_argWidth (keep : Bool) (e : Err) (s : State) : (raiseError keep e s).argWidth = s.argWidth := rfl
@[simp] theorem raiseError_argValue (keep : Bool) (e : Err) (s : State) : (raiseError keep e s).argValue = s.argValue := rfl
@[simp] theorem raiseError_inLen (keep : Bool) (e : Err) (s : State) : (raiseError keep e s).inLen = s.inLen := rfl
@[simp] theorem raiseError_resValue (keep : Bool) (e : Err) (s : State) : (raiseError keep e s).resValue = s.resValue := rfl
@[simp] theorem raiseError_resPos (keep : Bool) (e : Err) (s : State) : (raiseError keep e s).resPos = s.resPos := rfl
@[simp] theorem raiseError_outLen (keep : Bool) (e : Err) (s : State) : (raiseError keep e s).outLen = if keep then s.outLen else 0 := rfl
@[simp] theorem raiseError_bytesRead (keep : Bool) (e : Err) (s : State) : (raiseError keep e s).bytesRead = s.bytesRead := rfl
@[simp] theorem raiseError_image (keep : Bool) (e : Err) (s : State) : (raiseError keep e s).image = s.image := rfl
@[simp] theorem raiseError_inBuf (keep : Bool) (e : Err) (s : State) : (raiseError keep e s).inBuf = s.inBuf := rfl
@[simp] theorem raiseError_outBuf (keep : Bool) (e : Err) (s : State) : (raiseError keep e s).outBuf = if keep then s.outBuf else [] := rfl
@[simp] theorem raiseError_dp (keep : Bool) (e : Err) (s : State) : (raiseError keep e s).dp = Datapath.reset s.cfg := rfl
@[simp] theorem raiseError_stage (keep : Bool) (e : Err) (s : State) : (raiseError keep e s).stage = .idle := rfl
@[simp] theorem raiseError_host (keep : Bool) (e : Err) (s : State) : (raiseError keep e s).host = s.host := rfl
@[simp] theorem raiseError_hostData (keep : Bool) (e : Err) (s : State) : (raiseError keep e s).hostData = s.hostData := rfl
@[simp] theorem raiseError_draws (keep : Bool) (e : Err) (s : State) : (raiseError keep e s).draws = s.draws := rfl
@[simp] theorem raiseError_epoch (keep : Bool) (e : Err) (s : State) : (raiseError keep e s).epoch = s.epoch := rfl

/-! ## resetCore -/

@[simp] theorem resetCore_cfg (s : State) : (resetCore s).cfg = s.cfg := rfl
@[simp] theorem resetCore_status (s : State) : (resetCore s).status = 0 := rfl
@[simp] theorem resetCore_err (s : State) : (resetCore s).err = 0 := rfl
@[simp] theorem resetCore_errPos (s : State) : (resetCore s).errPos = 0 := rfl
@[simp] theorem resetCore_argOffset (s : State) : (resetCore s).argOffset = 0 := rfl
@[simp] theorem resetCore_argWidth (s : State) : (resetCore s).argWidth = 0 := rfl
@[simp] theorem resetCore_argValue (s : State) : (resetCore s).argValue = 0 := rfl
@[simp] theorem resetCore_inLen (s : State) : (resetCore s).inLen = 0 := rfl
@[simp] theorem resetCore_resValue (s : State) : (resetCore s).resValue = 0 := rfl
@[simp] theorem resetCore_resPos (s : State) : (resetCore s).resPos = 0 := rfl
@[simp] theorem resetCore_outLen (s : State) : (resetCore s).outLen = 0 := rfl
@[simp] theorem resetCore_bytesRead (s : State) : (resetCore s).bytesRead = 0 := rfl
@[simp] theorem resetCore_image (s : State) : (resetCore s).image = s.image := rfl
@[simp] theorem resetCore_inBuf (s : State) : (resetCore s).inBuf = s.inBuf := rfl
@[simp] theorem resetCore_outBuf (s : State) : (resetCore s).outBuf = s.outBuf := rfl
@[simp] theorem resetCore_dp (s : State) : (resetCore s).dp = Datapath.reset s.cfg := rfl
@[simp] theorem resetCore_stage (s : State) : (resetCore s).stage = .idle := rfl
@[simp] theorem resetCore_host (s : State) : (resetCore s).host = s.host := rfl
@[simp] theorem resetCore_hostData (s : State) : (resetCore s).hostData = s.hostData := rfl
@[simp] theorem resetCore_draws (s : State) : (resetCore s).draws = s.draws := rfl
@[simp] theorem resetCore_epoch (s : State) : (resetCore s).epoch = s.epoch := rfl

/-! ## The internal registers -/

@[simp] theorem datapath_reset_cur (cfg : Config) : (Datapath.reset cfg).cur = 0 := rfl
@[simp] theorem datapath_reset_ocur (cfg : Config) : (Datapath.reset cfg).ocur = 0 := rfl
@[simp] theorem datapath_reset_j (cfg : Config) : (Datapath.reset cfg).j = 0 := rfl
@[simp] theorem datapath_reset_nxt (cfg : Config) : (Datapath.reset cfg).nxt = cfg.firstFree := rfl
@[simp] theorem datapath_reset_wid (cfg : Config) : (Datapath.reset cfg).wid = cfg.minWidth := rfl
@[simp] theorem datapath_reset_prev (cfg : Config) : (Datapath.reset cfg).prev = none := rfl
@[simp] theorem datapath_reset_cand (cfg : Config) : (Datapath.reset cfg).cand = none := rfl
@[simp] theorem datapath_reset_runb (cfg : Config) : (Datapath.reset cfg).runb = 0 := rfl
@[simp] theorem datapath_reset_runl (cfg : Config) : (Datapath.reset cfg).runl = 0 := rfl
@[simp] theorem datapath_reset_dict (cfg : Config) : (Datapath.reset cfg).dict = [] := rfl
@[simp] theorem datapath_reset_outBytes (cfg : Config) : (Datapath.reset cfg).outBytes = [] := rfl
@[simp] theorem datapath_reset_outCodes (cfg : Config) : (Datapath.reset cfg).outCodes = [] := rfl

@[simp] theorem atIndex_cur (cfg : Config) (j : Nat) (x : Datapath) : (x.atIndex cfg j).cur = x.cur := rfl
@[simp] theorem atIndex_ocur (cfg : Config) (j : Nat) (x : Datapath) : (x.atIndex cfg j).ocur = x.ocur := rfl
@[simp] theorem atIndex_j (cfg : Config) (j : Nat) (x : Datapath) : (x.atIndex cfg j).j = j := rfl
@[simp] theorem atIndex_nxt (cfg : Config) (j : Nat) (x : Datapath) : (x.atIndex cfg j).nxt = nextCode cfg j := rfl
@[simp] theorem atIndex_wid (cfg : Config) (j : Nat) (x : Datapath) : (x.atIndex cfg j).wid = widthAt cfg j := rfl
@[simp] theorem atIndex_prev (cfg : Config) (j : Nat) (x : Datapath) : (x.atIndex cfg j).prev = x.prev := rfl
@[simp] theorem atIndex_cand (cfg : Config) (j : Nat) (x : Datapath) : (x.atIndex cfg j).cand = x.cand := rfl
@[simp] theorem atIndex_runb (cfg : Config) (j : Nat) (x : Datapath) : (x.atIndex cfg j).runb = x.runb := rfl
@[simp] theorem atIndex_runl (cfg : Config) (j : Nat) (x : Datapath) : (x.atIndex cfg j).runl = x.runl := rfl
@[simp] theorem atIndex_dict (cfg : Config) (j : Nat) (x : Datapath) : (x.atIndex cfg j).dict = x.dict := rfl
@[simp] theorem atIndex_outBytes (cfg : Config) (j : Nat) (x : Datapath) : (x.atIndex cfg j).outBytes = x.outBytes := rfl
@[simp] theorem atIndex_outCodes (cfg : Config) (j : Nat) (x : Datapath) : (x.atIndex cfg j).outCodes = x.outCodes := rfl

@[simp] theorem atEmission_cur (cfg : Config) (j : Nat) (x : Datapath) : (x.atEmission cfg j).cur = x.cur := rfl
@[simp] theorem atEmission_ocur (cfg : Config) (j : Nat) (x : Datapath) : (x.atEmission cfg j).ocur = x.ocur := rfl
@[simp] theorem atEmission_j (cfg : Config) (j : Nat) (x : Datapath) : (x.atEmission cfg j).j = j := rfl
@[simp] theorem atEmission_nxt (cfg : Config) (j : Nat) (x : Datapath) : (x.atEmission cfg j).nxt = cfg.firstFree + j := rfl
@[simp] theorem atEmission_wid (cfg : Config) (j : Nat) (x : Datapath) : (x.atEmission cfg j).wid = widthAt cfg j := rfl
@[simp] theorem atEmission_prev (cfg : Config) (j : Nat) (x : Datapath) : (x.atEmission cfg j).prev = x.prev := rfl
@[simp] theorem atEmission_cand (cfg : Config) (j : Nat) (x : Datapath) : (x.atEmission cfg j).cand = x.cand := rfl
@[simp] theorem atEmission_runb (cfg : Config) (j : Nat) (x : Datapath) : (x.atEmission cfg j).runb = x.runb := rfl
@[simp] theorem atEmission_runl (cfg : Config) (j : Nat) (x : Datapath) : (x.atEmission cfg j).runl = x.runl := rfl
@[simp] theorem atEmission_dict (cfg : Config) (j : Nat) (x : Datapath) : (x.atEmission cfg j).dict = x.dict := rfl
@[simp] theorem atEmission_outBytes (cfg : Config) (j : Nat) (x : Datapath) : (x.atEmission cfg j).outBytes = x.outBytes := rfl
@[simp] theorem atEmission_outCodes (cfg : Config) (j : Nat) (x : Datapath) : (x.atEmission cfg j).outCodes = x.outCodes := rfl

@[simp] theorem emitCode_cur (c : Nat) (x : Datapath) : (x.emitCode c).cur = x.cur := rfl
@[simp] theorem emitCode_ocur (c : Nat) (x : Datapath) : (x.emitCode c).ocur = x.ocur + 1 := rfl
@[simp] theorem emitCode_j (c : Nat) (x : Datapath) : (x.emitCode c).j = x.j := rfl
@[simp] theorem emitCode_nxt (c : Nat) (x : Datapath) : (x.emitCode c).nxt = x.nxt := rfl
@[simp] theorem emitCode_wid (c : Nat) (x : Datapath) : (x.emitCode c).wid = x.wid := rfl
@[simp] theorem emitCode_prev (c : Nat) (x : Datapath) : (x.emitCode c).prev = x.prev := rfl
@[simp] theorem emitCode_cand (c : Nat) (x : Datapath) : (x.emitCode c).cand = x.cand := rfl
@[simp] theorem emitCode_runb (c : Nat) (x : Datapath) : (x.emitCode c).runb = x.runb := rfl
@[simp] theorem emitCode_runl (c : Nat) (x : Datapath) : (x.emitCode c).runl = x.runl := rfl
@[simp] theorem emitCode_dict (c : Nat) (x : Datapath) : (x.emitCode c).dict = x.dict := rfl
@[simp] theorem emitCode_outBytes (c : Nat) (x : Datapath) : (x.emitCode c).outBytes = x.outBytes := rfl
@[simp] theorem emitCode_outCodes (c : Nat) (x : Datapath) : (x.emitCode c).outCodes = x.outCodes ++ [c] := rfl

end Sys2Proof.Machine
end

