-- ==== Sys2Proof/Laws/Ops.lean ====
section
/-! SUPPORT. What each shared operation can do, once. -/

namespace Sys2Proof.Machine

/-! ## The ends of an operation -/

@[simp] theorem finish_ok (keep : Bool) (s t : State) : finish keep s (.ok t) = .next t := rfl

@[simp] theorem finish_raise (keep : Bool) (s : State) (c : Cause) (u : PosUnit) (p : Nat) :
    finish keep s (raise c u p) = .next (raiseError keep ⟨c, u, p⟩ s) := rfl

@[simp] theorem finish_stuck (keep : Bool) (s : State) (f : Fault) : finish keep s (stuck f) = .fault f := rfl

/-- `finish` answers next with the result or with error completion, and with nothing else. -/
theorem finish_eq_next {keep : Bool} {s t : State} {r : Except Stop State} (h : finish keep s r = .next t) :
    r = .ok t ∨ ∃ e, r = .error (.raised e) ∧ t = raiseError keep e s := by
  rcases r with (e | f) | u
  · exact .inr ⟨e, rfl, by simpa [finish] using h.symm⟩
  · simp [finish] at h
  · exact .inl (by simpa [finish] using h)

@[simp] theorem advance_ok (s : State) (x : Datapath) : advance s (.ok x) = .next { s with dp := x } := rfl

@[simp] theorem advance_raise (s : State) (c : Cause) (u : PosUnit) (p : Nat) :
    advance s (raise c u p) = .next (raiseError false ⟨c, u, p⟩ s) := rfl

@[simp] theorem advance_stuck (s : State) (f : Fault) : advance s (stuck f) = .fault f := rfl

/-! ## The epilogue -/

theorem deliver_fits {output : List Byte} {s : State} (n : Option Nat) (h : output.length ≤ s.cfg.outCap) :
    deliver output n s = .ok (complete
      { s with
        outBuf := Memory.ofBytes output
        outLen := BitVec.ofNat 32 output.length
        bytesRead := match n with | none => s.bytesRead | some k => BitVec.ofNat 32 k }) := by
  cases n <;> simp [deliver, Nat.not_lt.2 h]

theorem deliver_full {output : List Byte} {s : State} (n : Option Nat) (h : s.cfg.outCap < output.length) :
    deliver output n s = raise .outputFull .byte s.cfg.outCap := by
  simp [deliver, h]

/-! ## The checks -/

theorem checkInput_bytes {s : State} (h : s.inLen.toNat ≤ s.cfg.inCap) : checkInput false s = .ok () := by
  simp [checkInput, Nat.not_lt.2 h]

theorem checkInput_codes {s : State} (h : s.inLen.toNat ≤ s.cfg.inCap) (he : s.inLen.toNat % 2 = 0) :
    checkInput true s = .ok () := by
  simp [checkInput, Nat.not_lt.2 h, he]

theorem checkInput_over {s : State} (codewords : Bool) (h : s.cfg.inCap < s.inLen.toNat) :
    checkInput codewords s = raise .operandOutOfRange .nothing 0 := by
  simp [checkInput, h]

theorem checkInput_odd {s : State} (h : s.inLen.toNat % 2 = 1) :
    checkInput true s = raise .operandOutOfRange .nothing 0 := by
  simp only [checkInput, h]
  split <;> rfl

theorem checkWidth_ok {s : State} (h1 : s.cfg.minWidth ≤ widthArg s) (h2 : widthArg s ≤ s.cfg.maxWidth) :
    checkWidth s = .ok () := by
  simp [checkWidth, Nat.not_lt.2 h1, Nat.not_lt.2 h2]

theorem checkWidth_bad {s : State} (h : widthArg s < s.cfg.minWidth ∨ s.cfg.maxWidth < widthArg s) :
    checkWidth s = raise .operandOutOfRange .nothing 0 := by
  simp [checkWidth, h]

/-! ## The operands after the prologue -/

@[simp] theorem inBytes_prologue (s : State) : inBytes (prologue s) = inBytes s := rfl

@[simp] theorem inCodes_prologue (s : State) : inCodes (prologue s) = inCodes s := rfl

@[simp] theorem outBytes_prologue (s : State) : outBytes (prologue s) = outBytes s := rfl

@[simp] theorem imageBytes_prologue (s : State) : imageBytes (prologue s) = imageBytes s := rfl

@[simp] theorem widthArg_prologue (s : State) : widthArg (prologue s) = widthArg s := rfl

/-! ## The bit cursors -/

theorem readUnit_ok {cfg : Config} {buf : List Byte} {w : Nat} {x : Datapath}
    (h : x.cur + w ≤ 8 * buf.length) :
    readUnit cfg buf w x = .ok (gatherBits cfg.bitOrder buf x.cur w w, { x with cur := x.cur + w }) := by
  simp [readUnit, readBits, Nat.not_lt.2 h, Except.map]

theorem readUnit_past {cfg : Config} {buf : List Byte} {w : Nat} {x : Datapath}
    (h : 8 * buf.length < x.cur + w) : readUnit cfg buf w x = raise .bitReadPastEnd .bit x.cur := by
  simp [readUnit, readBits, h, raise, Except.map]

theorem writeUnit_ok {cfg : Config} {v w : Nat} {x : Datapath} (hv : v < 2 ^ w)
    (h : x.ocur + w ≤ 8 * x.outBytes.length) :
    writeUnit cfg v w x = .ok
      { x with outBytes := scatterBits cfg.bitOrder x.outBytes x.ocur v w w, ocur := x.ocur + w } := by
  simp [writeUnit, writeBits, Nat.not_le.2 hv, Nat.not_lt.2 h, Except.map]

theorem writeUnit_wide {cfg : Config} {v w : Nat} {x : Datapath} (hv : 2 ^ w ≤ v) :
    writeUnit cfg v w x = raise .valueTooWide .bit x.ocur := by
  simp [writeUnit, writeBits, hv, raise, Except.map]

theorem writeUnit_past {cfg : Config} {v w : Nat} {x : Datapath} (hv : v < 2 ^ w)
    (h : 8 * x.outBytes.length < x.ocur + w) :
    writeUnit cfg v w x = raise .bitWritePastEnd .bit x.ocur := by
  simp [writeUnit, writeBits, Nat.not_le.2 hv, h, raise, Except.map]

/-! ## The expander loop -/

theorem expand_endStream {cfg : Config} {c : Nat} {cws : List Nat} {x : Datapath}
    (h : classify cfg c x.j = .endStream) : expand cfg (c :: cws) x = .ok (endStep x) := by
  simp [expand, h]

theorem expand_step {cfg : Config} {c : Nat} {cws : List Nat} {x : Datapath}
    (h : classify cfg c x.j ≠ .endStream) :
    expand cfg (c :: cws) x = (codewordStep cfg (classify cfg c x.j) x).bind (expand cfg cws) := by
  simp [expand, h]

/-! ## The dictionary -/

theorem define_ok {cfg : Config} {k p : Nat} {b : Byte} {x : Datapath} {ph : List Byte}
    (hk : k = cfg.firstFree + x.dict.length) (hl : k < cfg.dictLimit) (hp : phrase cfg x.dict p = some ph) :
    define cfg k p b x = .ok { x with dict := x.dict ++ [⟨p, b, ph.headD 0, ph.length + 1⟩] } := by
  simp [define, ← hk, hl, hp]

theorem phraseFuel_base (cfg : Config) (dict : Dict) (fuel : Nat) {k : Nat} (h : k ≤ 255) :
    phraseFuel cfg dict fuel k = some [BitVec.ofNat 8 k] := by
  cases fuel <;> simp [phraseFuel, h]

theorem phrase_base (cfg : Config) (dict : Dict) {k : Nat} (h : k ≤ 255) :
    phrase cfg dict k = some [BitVec.ofNat 8 k] := phraseFuel_base cfg dict k h

/-! ## The words of STATUS and ERR -/

theorem statusWord_flags (busy done error : Bool) :
    busyFlag (statusWord busy done error) = busy ∧ doneFlag (statusWord busy done error) = done
      ∧ errorFlag (statusWord busy done error) = error := by
  cases busy <;> cases done <;> cases error <;> decide

theorem errWord_reserved (e : Err) : (errWord e).toNat < 2 ^ 18 := by
  have hk (c : Cause) : c.kind.code ≤ 4 := by cases c <;> decide
  have hc (c : Cause) : c.code ≤ 0x42 := by cases c <;> decide
  have hu (u : PosUnit) : u.code ≤ 3 := by cases u <;> decide
  have := hk e.cause
  have := hc e.cause
  have := hu e.unit
  simp only [errWord, BitVec.toNat_ofNat]
  omega

end Sys2Proof.Machine
end

