-- ==== Sys2Proof/Laws/PerInstr.lean ====
section
/-! SUPPORT. The family Encoding, one lemma per instruction: the encoded form of a well-formed instruction
is of the instruction's own group and size. -/

namespace Sys2Proof.Laws.Encoding

/-- The size of an encoded form: an OPCODE of four bits, a Code of 16 bits, a token of one to three
bytes (30_encoding.md R72, R76 and R79). -/
def sized : Encoded → Bool
  | .command v => decide (v.toNat < 2 ^ 4)
  | .codeword c => decide (c < 2 ^ 16)
  | .token ys => decide (1 ≤ ys.length) && decide (ys.length ≤ 3)

/-- A well-formed instruction encodes in its format's size. -/
def Statement (i : Instr) : Prop :=
  ∀ (cfg : Config) (j : Nat), cfg.wf = true → i.wfAt cfg j = true → sized (encode cfg i) = true

theorem bounds {cfg : Config} (h : cfg.wf = true) :
    cfg.firstFree = 258 ∧ cfg.resetCode < 258 ∧ cfg.endCode < 258 ∧ cfg.dictLimit ≤ 2 ^ 16 := by
  simp only [Config.wf, decide_eq_true_eq] at h
  obtain ⟨-, -, hmax, -, -, hr, -, he, hf, -, hl, -⟩ := h
  refine ⟨hf, hf ▸ hr, hf ▸ he, ?_⟩
  rw [hl]
  exact Nat.pow_le_pow_right (by decide) hmax

theorem readBits : Statement .readBits := fun _ _ _ _ => rfl

theorem writeBits : Statement .writeBits := fun _ _ _ _ => rfl

theorem readCodewords : Statement .readCodewords := fun _ _ _ _ => rfl

theorem packCodewords : Statement .packCodewords := fun _ _ _ _ => rfl

theorem lzwDecode : Statement .lzwDecode := fun _ _ _ _ => rfl

theorem lzwEncode : Statement .lzwEncode := fun _ _ _ _ => rfl

theorem rleDecode : Statement .rleDecode := fun _ _ _ _ => rfl

theorem rleEncode : Statement .rleEncode := fun _ _ _ _ => rfl

theorem decompress : Statement .decompress := fun _ _ _ _ => rfl

theorem compress : Statement .compress := fun _ _ _ _ => rfl

theorem softReset : Statement .softReset := fun _ _ _ _ => rfl

theorem reserved0 : Statement .reserved0 := fun _ _ _ _ => rfl

theorem reservedB : Statement .reservedB := fun _ _ _ _ => rfl

theorem reservedC : Statement .reservedC := fun _ _ _ _ => rfl

theorem reservedD : Statement .reservedD := fun _ _ _ _ => rfl

theorem reservedE : Statement .reservedE := fun _ _ _ _ => rfl

theorem reset : Statement .reset := fun _ _ h _ => by
  have := bounds h
  simp only [encode, sized, decide_eq_true_eq]
  omega

theorem endStream : Statement .endStream := fun _ _ h _ => by
  have := bounds h
  simp only [encode, sized, decide_eq_true_eq]
  omega

theorem lit (b : Byte) : Statement (.lit b) := fun _ _ _ _ => by
  have := b.isLt
  simp only [encode, sized, decide_eq_true_eq]
  omega

theorem ref (c : Nat) : Statement (.ref c) := fun _ _ h hw => by
  have := bounds h
  simp only [Instr.wfAt, encode, sized, decide_eq_true_eq] at hw ⊢
  omega

theorem kwk (c : Nat) : Statement (.kwk c) := fun _ _ h hw => by
  have := bounds h
  simp only [Instr.wfAt, encode, sized, decide_eq_true_eq] at hw ⊢
  omega

theorem invalid (c : Nat) (cause : InvalidCause) : Statement (.invalid c cause) := fun _ _ h hw => by
  have := bounds h
  cases cause <;> simp only [Instr.wfAt, encode, sized, decide_eq_true_eq] at hw ⊢ <;> omega

theorem rlit (b : Byte) : Statement (.rlit b) := fun _ _ _ _ => rfl

theorem esc (body : EscBody) : Statement (.esc body) := fun _ _ _ _ => by
  rcases body with ⟨n, f⟩ | (_ | n) <;> rfl

end Sys2Proof.Laws.Encoding
end

