-- ==== Sys2Proof/Laws/Step.lean ====
section
/-! SUPPORT. What a step can do, once. -/

namespace Sys2Proof.Machine

@[simp] theorem whenWf_of_wf {cfg : Config} (h : cfg.wf = true) (o : Host.Outcome State Fault Refusal) :
    whenWf cfg o = o := by
  simp [whenWf, h]

/-- A step that answers next ran in a well-formed configuration, and was one of these. -/
theorem step_cases {s t : State} (h : step s = .next t) :
    s.cfg.wf = true ∧
      ((fetch s = .nothing ∧ t = s) ∨ (fetch s = .streamEnd ∧ endOfStream s = .next t)
        ∨ (∃ a s1, fetch s = .access a s1 ∧ applyAccess a s1 = .next t)
        ∨ ∃ u s1 i, fetch s = .instr u s1 ∧ decode s1.cfg s1.dp.j u = .ok i ∧ exec i s1 = .next t) := by
  unfold step whenWf at h
  split at h
  · rename_i hwf
    refine ⟨hwf, ?_⟩
    cases hf : fetch s with
    | nothing => exact .inl ⟨rfl, by simpa [hf, stepPending] using h.symm⟩
    | streamEnd => exact .inr (.inl ⟨rfl, by simpa [hf, stepPending] using h⟩)
    | access a s1 => exact .inr (.inr (.inl ⟨a, s1, rfl, by simpa [hf, stepPending] using h⟩))
    | instr u s1 =>
      simp only [hf, stepPending] at h
      cases hd : decode s1.cfg s1.dp.j u with
      | error why => simp [hd] at h
      | ok i => exact .inr (.inr (.inr ⟨u, s1, i, rfl, hd, by simpa [hd] using h⟩))
  · simp at h

/-- What fetch finds in a stream or a queue. -/
theorem fetch_command {s : State} {v : Word} {rest : List HostAccess} (hs : s.stage = .idle)
    (hq : s.host = .regWrite 0 4 v :: rest) : fetch s = .instr (.command v) { s with host := rest } := by
  simp [fetch, hs, hq, commandOf]

theorem fetch_codeword {s : State} {ret : LzwReturn} {cws : List Nat} {c : Nat}
    (hs : s.stage = .expand ret cws) (hc : cws[s.dp.cur]? = some c) : fetch s = .instr (.codeword c) s := by
  simp [fetch, hs, hc]

theorem fetch_token {s : State} {n : Option Nat} {ys : List Byte} (hs : s.stage = .tokens n ys)
    (hc : s.dp.cur < ys.length) : fetch s = .instr (.token (ys.drop s.dp.cur)) s := by
  simp [fetch, hs, hc]

end Sys2Proof.Machine
end

