-- ==== Sys2Proof/Tests/Slice0.lean ====
section
/-! SUPPORT. Tests of the model against values written out from the spec, and a witness for the hypotheses
of every statement that has some. Expected values are those of spec/95_test_vectors.md (named by its T and E
numbers) unless a comment says otherwise. -/

namespace Sys2Proof.Tests

open Sys2Proof Sys2Proof.Machine

/-! ## Small states -/

/-- The reference values with small buffers (Group A and B of T-CMD: IN_CAP = 16, OUT_CAP = 8). -/
def cfgT : Config := { Config.reference with imgLen := 4, inCap := 16, outCap := 8 }

/-- The reset state of that instance. -/
def idleT : State := State.powerOn cfgT []

/-- With `bytes` in IN_BUF. -/
def withIn (bytes : List Byte) : State :=
  { idleT with inBuf := Memory.ofBytes bytes, inLen := BitVec.ofNat 32 bytes.length }

/-- With `bytes` as the image. -/
def withImage (bytes : List Byte) : State :=
  { idleT with cfg := { cfgT with imgLen := bytes.length }, image := Memory.ofBytes bytes }

/-- With `bytes` in OUT_BUF. -/
def withOut (bytes : List Byte) : State :=
  { idleT with outBuf := Memory.ofBytes bytes, outLen := BitVec.ofNat 32 bytes.length }

/-- With the operands of READ_BITS and WRITE_BITS. -/
def args (offset width value : Word) (s : State) : State :=
  { s with argOffset := offset, argWidth := width, argValue := value }

/-- With a capacity of OUT_BUF. -/
def outCap (n : Nat) (s : State) : State := { s with cfg := { s.cfg with outCap := n } }

/-- With one access waiting. -/
def access (a : HostAccess) (s : State) : State := { s with host := [a] }

/-- With a CMD write waiting. -/
def cmd (opcode : Word) (s : State) : State := access (.regWrite 0 4 opcode) s

/-- The expander after [041 042]: 0x102 = "AB" is defined (42_lzw_expander.md R131, its example). -/
def mid : Datapath :=
  { Datapath.reset cfgT with
    cur := 2, ocur := 2, j := 2, nxt := 0x103, wid := 9, prev := some 0x42
    dict := [⟨0x41, 0x42, 0x41, 2⟩], outBytes := [0x41, 0x42] }

/-- A codeword stream in progress, two codewords in. -/
def expanding (ret : LzwReturn) (cws : List Nat) : State :=
  { idleT with status := 1, dp := mid, stage := .expand ret cws }

/-- A token stream in progress, at its first token. -/
def decoding (ys : List Byte) : State := { idleT with status := 1, stage := .tokens none ys }

/-- What a next state shows. -/
def after {α : Type} (o : Host.Outcome State Fault Refusal) (f : State → α) : Option α :=
  match o with
  | .next t => some (f t)
  | .fault _ => none
  | .refused _ => none

/-- The bytes of OUT_BUF below OUT_LEN. -/
def out (s : State) : List (Option Byte) := (List.range s.outLen.toNat).map s.outBuf.read?

/-! ## WellFormed: a term that each check refuses -/

theorem test_config_reference_wf : Config.reference.wf = true ∧ cfgT.wf = true := by decide

theorem test_config_ill_formed_refused :
    ([{ cfgT with minWidth := 0 }, { cfgT with minWidth := 13 },
      { cfgT with maxWidth := 17, dictLimit := 2 ^ 17 }, { cfgT with resetCode := 0x101 },
      { cfgT with resetCode := 255 }, { cfgT with resetCode := 258 }, { cfgT with endCode := 255 },
      { cfgT with endCode := 258 }, { cfgT with firstFree := 259 }, { cfgT with minWidth := 8 },
      { cfgT with dictLimit := 0xFFF }, { cfgT with rleBias := 1 }, { cfgT with rleMinRun := 3 },
      { cfgT with rleMaxRun := 3 }, { cfgT with rleMaxRun := 256 },
      { cfgT with imgLen := 2 ^ 28 + 1 }, { cfgT with inCap := 2 ^ 28 + 1 },
      { cfgT with outCap := 2 ^ 28 + 1 }] : List Config).all (fun c => !c.wf) = true := by decide

theorem test_instr_ill_formed_refused :
    (Instr.lit 0x41).wfAt cfgT 3839 = false ∧
    (Instr.ref 0x102).wfAt cfgT 0 = false ∧ (Instr.ref 0x101).wfAt cfgT 2 = false ∧
    (Instr.ref 0x103).wfAt cfgT 2 = false ∧ (Instr.ref 0x102).wfAt cfgT 3839 = false ∧
    (Instr.kwk 0x102).wfAt cfgT 0 = false ∧ (Instr.kwk 0x102).wfAt cfgT 2 = false ∧
    (Instr.kwk 0x1000).wfAt cfgT 3839 = false ∧
    (Instr.invalid 0x100 .reservedCode).wfAt cfgT 0 = false ∧
    (Instr.invalid 0x102 .firstNotLiteral).wfAt cfgT 1 = false ∧
    (Instr.invalid 0x10000 .firstNotLiteral).wfAt cfgT 0 = false ∧
    (Instr.invalid 0x41 .dictionaryFull).wfAt cfgT 3838 = false ∧
    (Instr.invalid 0x101 .dictionaryFull).wfAt cfgT 3839 = false ∧
    (Instr.invalid 0x103 .undefinedReference).wfAt cfgT 2 = false ∧
    (Instr.invalid 0x10000 .undefinedReference).wfAt cfgT 2 = false ∧
    (Instr.rlit 0xFF).wfAt cfgT 0 = false := by decide

/-! ## Decoding: a word of every constructor, written out from 30_encoding.md R72, R76 and R80 -/

theorem test_decode_commands :
    ([0b0000, 0b0001, 0b0010, 0b0011, 0b0100, 0b0101, 0b0110, 0b0111,
      0b1000, 0b1001, 0b1010, 0b1011, 0b1100, 0b1101, 0b1110, 0b1111] : List Word).map decodeCommand =
    [.reserved0, .readBits, .writeBits, .readCodewords, .packCodewords, .lzwDecode, .lzwEncode, .rleDecode,
      .rleEncode, .decompress, .compress, .reservedB, .reservedC, .reservedD, .reservedE, .softReset] := by
  decide

/-- Bits [31:4] of a CMD word are ignored (30_encoding.md R79). -/
theorem test_decode_command_ignores_high_bits : decodeCommand 0xFFFFFFF9 = .decompress := by decide

/-- T-CL. -/
theorem test_decode_codewords :
    classify cfgT 0b100000000 0 = .reset ∧ classify cfgT 0b100000001 0 = .endStream ∧
    classify cfgT 0b001000001 0 = .lit 0x41 ∧ classify cfgT 0x102 0 = .invalid 0x102 .firstNotLiteral ∧
    classify cfgT 0x1FF 0 = .invalid 0x1FF .firstNotLiteral ∧ classify cfgT 0x041 1 = .lit 0x41 ∧
    classify cfgT 0b100000010 1 = .kwk 0x102 ∧ classify cfgT 0b100000010 2 = .ref 0x102 ∧
    classify cfgT 0x103 2 = .kwk 0x103 ∧ classify cfgT 0x104 2 = .invalid 0x104 .undefinedReference ∧
    classify cfgT 0xFFE 3838 = .ref 0xFFE ∧ classify cfgT 0xFFF 3838 = .kwk 0xFFF ∧
    classify cfgT 0x041 3839 = .invalid 0x041 .dictionaryFull ∧
    classify cfgT 0x100 3839 = .reset ∧ classify cfgT 0x101 3839 = .endStream := by decide

theorem test_decode_tokens :
    decodeToken cfgT [0x41, 0xFF] = some (.rlit 0x41, [0xFF]) ∧
    decodeToken cfgT [0xFF, 0xC8, 0x41, 0x42] = some (.esc (.whole 0xC8 0x41), [0x42]) ∧
    decodeToken cfgT [0xFF, 0x05] = some (.esc (.cut (some 0x05)), []) ∧
    decodeToken cfgT [0xFF] = some (.esc (.cut none), []) ∧ decodeToken cfgT [] = none := by decide

theorem test_decode_rejects :
    decode cfgT 0 (.codeword 0x10000) = .error .notACode ∧ decode cfgT 0 (.token []) = .error .emptyToken :=
  ⟨rfl, rfl⟩

/-- The table's numbering of bits: the first byte at the lowest address, missing bits 0. -/
theorem test_decode_table_words :
    decodeTableWord 8 0x9 = some .decompress ∧ decodeTableWord 16 0x0101 = some .endStream ∧
    decodeTableWord 24 0x41C8FF = some (.esc (.whole 0xC8 0x41)) ∧
    decodeTableWord 8 0x41 = some (.rlit 0x41) := by decide

/-- T-WS. -/
theorem test_width_schedule :
    [0, 1, 254, 255, 766, 767, 1790, 1791, 3838, 3839].map (widthAt cfgT) =
      [9, 9, 9, 10, 10, 11, 11, 12, 12, 12] := by decide

/-! ## The assembler (30_encoding.md R82 to R84) -/

theorem test_assembler :
    assembleCw cfgT 0 [.lits [0x41, 0x42], .ref 0x102, .kwk 0x104, .endStream] =
      some [0x41, 0x42, 0x102, 0x104, 0x101] ∧
    assembleCw cfgT 0 [.lit 0x41, .reset, .ref 0x102] = none ∧ assembleCw cfgT 0 [.word 0x10000] = none ∧
    assembleRle cfgT [.lit 1, .run 4 2, .escm, .str [0x41]] = some [1, 0xFF, 4, 2, 0xFF, 1, 0xFF, 0x41] ∧
    assembleRle cfgT [.runs 256 0x41] = some [0xFF, 0xFF, 0x41, 0xFF, 1, 0x41] ∧
    assembleRle cfgT [.lit 0xFF] = none ∧ assembleRle cfgT [.run 256 0] = none := by decide

/-! ## One step of each instruction -/

/-- T-CMD group A. -/
theorem test_read_bits :
    after (step (cmd 1 (args 9 9 0 (withIn [0x41, 0x82, 0x04, 0x04]))))
      (fun t => (t.resValue, t.resPos, t.status)) = some (0x41, 18, 2) := by decide

theorem test_read_bits_past_end :
    after (step (cmd 1 (args 24 9 0 (withIn [0x41, 0x82, 0x04, 0x04]))))
      (fun t => (t.err, t.errPos, t.status, t.resPos)) = some (0x00011101, 24, 6, 0) := by decide

/-- T-CMD group B. -/
theorem test_write_bits :
    after (step (cmd 2 (args 55 9 0x1FF (withOut [0x41, 0x82, 0x04, 0x04]))))
      (fun t => (out t, t.resPos)) =
      some ([some 0x41, some 0x82, some 0x04, some 0x04, some 0, some 0, some 0x80, some 0xFF], 64) := by
  decide

theorem test_write_bits_too_wide :
    after (step (cmd 2 (args 27 9 0x200 (withOut [0x41, 0x82, 0x04, 0x04]))))
      (fun t => (t.err, t.errPos, out t)) =
      some (0x00013103, 27, [some 0x41, some 0x82, some 0x04, some 0x04]) := by decide

/-- 45_commands.md R198, its example. -/
theorem test_read_codewords :
    after (step (cmd 3 (withImage [0x41, 0x04, 0x06, 0x04]))) (fun t => (out t, t.bytesRead)) =
      some ([some 0x41, some 0x00, some 0x02, some 0x01, some 0x01, some 0x01], 4) := by decide

/-- T-RC. -/
theorem test_read_codewords_bad_reference :
    after (step (cmd 3 (withImage [0x41, 0x06, 0x06, 0x04]))) (fun t => (t.err, t.errPos, t.bytesRead)) =
      some (0x00012102, 9, 0) := by decide

/-- T-PK-3. -/
theorem test_pack_codewords :
    after (step (cmd 4 (withIn [0x41, 0x00, 0x02, 0x01, 0x01, 0x01]))) out =
      some [some 0x41, some 0x04, some 0x06, some 0x04] := by decide

/-- T-PK-3, most significant bit first. -/
theorem test_pack_codewords_msb_first :
    packCodewords { cfgT with bitOrder := .msbFirst } [0x041, 0x102, 0x101] =
      .ok [0x20, 0xC0, 0xA0, 0x20] := rfl

/-- E10. -/
theorem test_lzw_decode :
    after (step (cmd 5 (withIn [0x41, 0x00, 0x02, 0x01, 0x01, 0x01]))) out =
      some [some 0x41, some 0x41, some 0x41] := by decide

/-- T-LZWD, no END. -/
theorem test_lzw_decode_missing_end :
    after (step (cmd 5 (withIn [0x41, 0x00, 0x42, 0x00]))) (fun t => (t.err, t.errPos)) =
      some (0x00022402, 2) := by decide

/-- T-LZWE-4. -/
theorem test_lzw_encode :
    after (step (cmd 6 (withIn [0x41, 0x41, 0x41]))) out =
      some [some 0x41, some 0x00, some 0x02, some 0x01, some 0x01, some 0x01] := by decide

/-- The empty input (43_lzw_builder.md R157). -/
theorem test_lzw_encode_empty : after (step (cmd 6 (withIn []))) out = some [some 0x01, some 0x01] := by decide

/-- T-RLED. -/
theorem test_rle_decode :
    after (step (cmd 7 (withIn [0x01, 0xFF, 0x04, 0x02, 0x03]))) out =
      some [some 1, some 2, some 2, some 2, some 2, some 3] := by decide

theorem test_rle_decode_zero_count :
    after (step (cmd 7 (withIn [0xFF, 0x00, 0x41]))) (fun t => (t.err, t.errPos)) = some (0x00032602, 0) := by
  decide

/-- T-RLEE. -/
theorem test_rle_encode :
    after (step (cmd 8 (withIn [0x41, 0xFF, 0xFF, 0x42]))) out =
      some [some 0x41, some 0xFF, some 0x02, some 0xFF, some 0x42] := by decide

theorem test_rle_encode_short_run :
    after (step (cmd 8 (withIn [0x41, 0x42, 0x42, 0x42]))) out =
      some [some 0x41, some 0x42, some 0x42, some 0x42] := by decide

/-- T-PIPE. -/
theorem test_decompress :
    after (step (cmd 9 (withImage [0x01, 0xFE, 0x11, 0x10, 0x30, 0x20, 0x20])))
      (fun t => (out t, t.bytesRead)) =
      some ([some 1, some 2, some 2, some 2, some 2, some 3], 7) := by decide

theorem test_decompress_truncated :
    after (step (cmd 9 (withImage [0x41, 0xFE, 0x05, 0x04]))) (fun t => (t.err, t.errPos)) =
      some (0x00032502, 1) := by decide

/-- T-PIPE. -/
theorem test_compress :
    after (step (cmd 0xA (withIn [0x41, 0x42, 0x43, 0x43, 0x43]))) out =
      some [some 0x41, some 0x84, some 0x0C, some 0x21, some 0x18, some 0x10] := by decide

/-- 45_commands.md R206. -/
theorem test_soft_reset :
    after (step (cmd 0xF (withOut [1, 2])))
      (fun t => (t.status, t.outLen, t.outBuf == Memory.ofBytes [1, 2])) = some (0, 0, true) := by decide

/-- 45_commands.md R207. -/
theorem test_reserved_opcodes :
    ([0x0, 0xB, 0xC, 0xD, 0xE] : List Word).map
      (fun v => after (step (cmd v (withOut [1, 2]))) fun t => (t.status, t.err, t.errPos, t.outLen)) =
      List.replicate 5 (some (6, 0x00004104, 0, 0)) := by decide

/-- 42_lzw_expander.md R131 to R133, after [041 042]. -/
theorem test_lit_defines :
    after (step (expanding .deliver [0x41, 0x42, 0x43])) (fun t => (t.dp.outBytes, t.dp.dict, t.dp.j)) =
      some ([0x41, 0x42, 0x43], [⟨0x41, 0x42, 0x41, 2⟩, ⟨0x42, 0x43, 0x42, 2⟩], 3) := by decide

theorem test_ref :
    after (step (expanding .deliver [0x41, 0x42, 0x102])) (fun t => (t.dp.outBytes, t.dp.dict, t.dp.prev)) =
      some ([0x41, 0x42, 0x41, 0x42], [⟨0x41, 0x42, 0x41, 2⟩, ⟨0x42, 0x41, 0x42, 2⟩], some 0x102) := by decide

theorem test_kwk :
    after (step (expanding .deliver [0x41, 0x42, 0x103])) (fun t => (t.dp.outBytes, t.dp.dict, t.dp.prev)) =
      some ([0x41, 0x42, 0x42, 0x42], [⟨0x41, 0x42, 0x41, 2⟩, ⟨0x42, 0x42, 0x42, 2⟩], some 0x103) := by decide

theorem test_reset_codeword :
    after (step (expanding .deliver [0x41, 0x42, 0x100]))
      (fun t => (t.dp.outBytes, t.dp.dict, t.dp.prev, t.dp.j, t.dp.cur)) =
      some ([0x41, 0x42], [], none, 0, 3) := by decide

theorem test_end_codeword :
    after (step (expanding .deliver [0x41, 0x42, 0x101])) (fun t => (out t, t.status, t.stage)) =
      some ([some 0x41, some 0x42], 2, .idle) := by decide

theorem test_invalid_codeword :
    after (step (expanding .deliver [0x41, 0x42, 0x104])) (fun t => (t.err, t.errPos, t.outLen)) =
      some (0x00022102, 2, 0) := by decide

theorem test_rlit : after (step (decoding [0x41, 0xFF])) (fun t => (t.dp.outBytes, t.dp.cur)) =
    some ([0x41], 1) := by decide

theorem test_esc : after (step (decoding [0xFF, 0x02, 0xFF])) (fun t => (t.dp.outBytes, t.dp.cur)) =
    some ([0xFF, 0xFF], 3) := by decide

/-- Truncation is checked before the zero count (60_exceptions.md R227). -/
theorem test_esc_truncated : after (step (decoding [0xFF, 0x00])) (fun t => (t.err, t.errPos)) =
    some (0x00032502, 0) := by decide

/-! ## The host's accesses -/

/-- 10_state.md R34: reserved bits of ARG_WIDTH read 0, a write to STATUS is ignored. -/
theorem test_reserved_bits :
    after (step (access (.regWrite 0x14 4 0xFFFFFFFF) idleT)) (·.argWidth) = some 0x1F ∧
    after (step (access (.regWrite 0x04 4 0xFFFFFFFF) idleT)) (·.status) = some 0 := by decide

/-- 20_memory.md R54. -/
theorem test_unaligned_access : step (access (.regRead 0x06 4) idleT) = .refused .notAnAlignedWordAccess ∧
    step (access (.regWrite 0x10 2 0) idleT) = .refused .notAnAlignedWordAccess := ⟨rfl, rfl⟩

/-! ## The fetch of a placed word -/

theorem test_with_fetch_word :
    after (step (State.reset.withFetchWord 16 0x41)) (·.dp.outBytes) = some [0x41] ∧
    after (step (State.reset.withFetchWord 8 0xF)) (·.status) = some 0 ∧
    after (step (State.reset.withFetchWord 24 0x4102FF)) (·.dp.outBytes) = some [0x41, 0x41] := by decide

/-! ## Witnesses: for each statement with hypotheses, what meets them, one conjunct per clause or boundary.
`wit_config` is that of the statements whose one hypothesis is a well-formed configuration. -/

theorem wit_config : Config.reference.wf = true ∧ cfgT.wf = true ∧ State.reset.cfg.wf = true := by decide

theorem wit_DecodeEncodeRoundTrip : cfgT.wf = true ∧
    (Instr.softReset).wfAt cfgT 0 = true ∧ (Instr.reset).wfAt cfgT 3839 = true ∧
    (Instr.lit 0xFF).wfAt cfgT 0 = true ∧ (Instr.lit 0x00).wfAt cfgT 3838 = true ∧
    (Instr.ref 0x102).wfAt cfgT 2 = true ∧ (Instr.ref 0xFFE).wfAt cfgT 3838 = true ∧
    (Instr.kwk 0x102).wfAt cfgT 1 = true ∧ (Instr.kwk 0xFFF).wfAt cfgT 3838 = true ∧
    (Instr.invalid 0x102 .firstNotLiteral).wfAt cfgT 0 = true ∧
    (Instr.invalid 0xFFFF .undefinedReference).wfAt cfgT 1 = true ∧
    (Instr.invalid 0x00 .dictionaryFull).wfAt cfgT 3839 = true ∧
    (Instr.rlit 0xFE).wfAt cfgT 0 = true ∧ (Instr.esc (.cut none)).wfAt cfgT 0 = true ∧
    (Instr.esc (.whole 0xFF 0xFF)).wfAt cfgT 0 = true := by decide

theorem wit_EncodeDecodeRoundTrip : cfgT.wf = true ∧ nextCode cfgT 0 ≤ cfgT.dictLimit ∧
    nextCode cfgT 3839 ≤ cfgT.dictLimit ∧ 0xFFFF < 2 ^ 16 ∧ ([0xFF] : List Byte) ≠ [] := by decide

theorem wit_ValidCodewordFitsWidth : cfgT.wf = true ∧ nextCode cfgT 0 ≤ cfgT.dictLimit ∧
    nextCode cfgT 3839 ≤ cfgT.dictLimit ∧ classify cfgT 0xFFF 3838 = .kwk 0xFFF ∧
    (1 ≤ 1 ∧ nextCode cfgT 1 < cfgT.dictLimit ∧ nextCode cfgT 1 < 0x103) ∧
    (1 ≤ 3838 ∧ nextCode cfgT 3838 < cfgT.dictLimit ∧ nextCode cfgT 3838 < 0x1000) ∧
    (255 < 256 + 2 ∧ 258 ≠ cfgT.resetCode ∧ 258 ≠ cfgT.endCode) := by decide

theorem wit_WidthSchedule : (254 ≤ 254) ∧ (255 ≤ 255 ∧ 766 ≤ 766) ∧ (767 ≤ 767 ∧ 1790 ≤ 1790) ∧
    (1791 ≤ 1791 ∧ 3839 ≤ 3839) ∧ cfgT.wf = true ∧ (cfgT.minWidth ≤ 9 ∧ 9 < cfgT.maxWidth) ∧
    (cfgT.minWidth ≤ 11 ∧ 11 < cfgT.maxWidth) ∧ 254 < 2 ^ 9 - cfgT.firstFree + 1 ∧
    (0x41 ≠ cfgT.resetCode ∧ 0x41 ≠ cfgT.endCode) := by decide

theorem wit_RunsExpansionDecodes : cfgT.wf = true ∧ 255 < 256 ∧ cfgT.rleMaxRun = 255 := by decide

theorem wit_WriteThenReadBits :
    (0x1FF < 2 ^ 9 ∧ 7 + 9 ≤ 8 * ([0, 0] : List Byte).length) ∧
    (∀ x ∈ [(0x1FF, 9), (0x7F, 7)], x.1 < 2 ^ x.2) ∧
    0 + ([(0x1FF, 9), (0x7F, 7)].map (·.2)).sum ≤ 8 * ([0, 0] : List Byte).length := by decide

theorem wit_ReadBitsCompletes :
    let s := args 23 9 0 (withIn [0x41, 0x82, 0x04, 0x04])
    s.inLen.toNat ≤ s.cfg.inCap ∧ s.cfg.minWidth ≤ widthArg s ∧ widthArg s ≤ s.cfg.maxWidth ∧
    s.argOffset.toNat + widthArg s ≤ 8 * s.inLen.toNat := by decide

theorem wit_ReadBitsErrors :
    (cfgT.inCap < (withIn (List.replicate 17 0)).inLen.toNat) ∧
    (widthArg (args 0 8 0 idleT) < cfgT.minWidth) ∧ (cfgT.maxWidth < widthArg (args 0 13 0 idleT)) ∧
    (let s := args 24 9 0 (withIn [0x41, 0x82, 0x04, 0x04])
     s.inLen.toNat ≤ s.cfg.inCap ∧ s.cfg.minWidth ≤ widthArg s ∧ widthArg s ≤ s.cfg.maxWidth ∧
     8 * s.inLen.toNat < s.argOffset.toNat + widthArg s) := by decide

theorem wit_WriteBitsCompletes :
    let s := args 55 9 0x1FF (withOut [0x41, 0x82, 0x04, 0x04])
    s.cfg.minWidth ≤ widthArg s ∧ widthArg s ≤ s.cfg.maxWidth ∧ s.argValue.toNat < 2 ^ widthArg s ∧
    s.argOffset.toNat + widthArg s ≤ 8 * s.cfg.outCap := by decide

theorem wit_WriteBitsErrors :
    (widthArg (args 0 8 0 idleT) < cfgT.minWidth) ∧ (cfgT.maxWidth < widthArg (args 0 13 0 idleT)) ∧
    (let s := args 0 9 0x200 idleT
     s.cfg.minWidth ≤ widthArg s ∧ widthArg s ≤ s.cfg.maxWidth ∧ 2 ^ widthArg s ≤ s.argValue.toNat) ∧
    (let s := args 56 12 0xFFF idleT
     s.cfg.minWidth ≤ widthArg s ∧ widthArg s ≤ s.cfg.maxWidth ∧ s.argValue.toNat < 2 ^ widthArg s ∧
     8 * s.cfg.outCap < s.argOffset.toNat + widthArg s) := by decide

theorem wit_ReadCodewordsCompletes :
    let s := args 2 0 0 (withImage [0xAA, 0xBB, 0x41, 0x04, 0x06, 0xFC, 0xEE])
    s.cfg.wf = true ∧ s.argOffset.toNat ≤ s.cfg.imgLen ∧
    wellFormedCodes s.cfg 0 [0x41, 0x102, 0x101] = true ∧
    holdsCodes s.cfg ((imageBytes s).drop s.argOffset.toNat) 0 0 [0x41, 0x102, 0x101] = true ∧
    2 * [0x41, 0x102, 0x101].length ≤ s.cfg.outCap := by decide

theorem wit_ReadCodewordsErrors :
    (let s := args 3 0 0 (withImage [0x01, 0x01])
     s.cfg.wf = true ∧ s.cfg.imgLen < s.argOffset.toNat) ∧
    (let s := args 2 0 0 (withImage [0x01, 0x01])
     s.cfg.wf = true ∧ s.argOffset.toNat ≤ s.cfg.imgLen ∧ openCodes s.cfg 0 [] = true ∧
     holdsCodes s.cfg ((imageBytes s).drop s.argOffset.toNat) 0 0 [] = true ∧
     8 * (s.cfg.imgLen - s.argOffset.toNat) < packedBits s.cfg 0 [] + widthAt s.cfg (indexAfter s.cfg 0 [])) ∧
    (let s := withImage [0x41, 0x84, 0x00]
     openCodes s.cfg 0 [0x41, 0x42] = true ∧
     holdsCodes s.cfg ((imageBytes s).drop s.argOffset.toNat) 0 0 [0x41, 0x42] = true ∧
     8 * (s.cfg.imgLen - s.argOffset.toNat)
       < packedBits s.cfg 0 [0x41, 0x42] + widthAt s.cfg (indexAfter s.cfg 0 [0x41, 0x42])) ∧
    (let s := withImage [0x41, 0x06, 0x06, 0x04]
     openCodes s.cfg 0 [0x41] = true ∧
     holdsCodes s.cfg ((imageBytes s).drop s.argOffset.toNat) 0 0 ([0x41] ++ [0x103]) = true ∧
     classify s.cfg 0x103 (indexAfter s.cfg 0 [0x41]) = .invalid 0x103 .undefinedReference) ∧
    (let s := outCap 5 (withImage [0x41, 0x04, 0x06, 0x04])
     s.cfg.wf = true ∧ wellFormedCodes s.cfg 0 [0x41, 0x102, 0x101] = true ∧
     holdsCodes s.cfg ((imageBytes s).drop s.argOffset.toNat) 0 0 [0x41, 0x102, 0x101] = true ∧
     s.cfg.outCap < 2 * [0x41, 0x102, 0x101].length) := by decide

theorem wit_PackCodewordsCompletes :
    let s := withIn [0xFF, 0x01]
    s.inLen.toNat ≤ s.cfg.inCap ∧ s.inLen.toNat % 2 = 0 ∧ fitsWidths s.cfg 0 (inCodes s) = true ∧
    ceilDiv (packedBits s.cfg 0 (inCodes s)) 8 ≤ s.cfg.outCap := by decide

theorem wit_PackCodewordsErrors :
    (cfgT.inCap < (withIn (List.replicate 18 0)).inLen.toNat) ∧ ((withIn [1]).inLen.toNat % 2 = 1) ∧
    (let s := withIn [0x41, 0x00, 0x00, 0x02]
     s.inLen.toNat ≤ s.cfg.inCap ∧ s.inLen.toNat % 2 = 0 ∧ inCodes s = [0x41] ++ 0x200 :: [] ∧
     fitsWidths s.cfg 0 [0x41] = true ∧ 2 ^ widthAt s.cfg (indexAfter s.cfg 0 [0x41]) ≤ 0x200) ∧
    (let s := outCap 1 (withIn [0x01, 0x01])
     s.inLen.toNat ≤ s.cfg.inCap ∧ s.inLen.toNat % 2 = 0 ∧ fitsWidths s.cfg 0 (inCodes s) = true ∧
     s.cfg.outCap < ceilDiv (packedBits s.cfg 0 (inCodes s)) 8) := by decide

theorem wit_StructuralRoundTrip : cfgT.wf = true ∧
    wellFormedCodes cfgT 0 [0x41, 0x42, 0x100, 0x43, 0x102, 0x101] = true := by decide

theorem wit_PackedLength : packCodewords Config.reference [0x41, 0x82] = .ok [0x41, 0x04, 0x01] ∧
    [0x41, 0x82].length ≤ 255 ∧ Config.reference.resetCode ∉ [0x41, 0x82] := by
  refine ⟨rfl, ?_⟩
  decide

theorem mid_inv : ExpanderInv cfgT mid :=
  ⟨⟨by decide, by decide⟩, by decide, by decide, by decide, by decide, by decide, by decide⟩

theorem start_inv : ExpanderInv cfgT (Datapath.reset cfgT) :=
  ⟨⟨by decide, by decide⟩, by decide, by decide, by decide, by decide, by decide, by decide⟩

theorem wit_LitCompletes :
    (idleT.cfg.wf = true ∧ ExpanderInv idleT.cfg idleT.dp ∧ (Instr.lit 0xFF).wfAt idleT.cfg idleT.dp.j = true) ∧
    (let s := expanding .deliver [0x41, 0x42, 0x43]
     s.cfg.wf = true ∧ ExpanderInv s.cfg s.dp ∧ (Instr.lit 0x43).wfAt s.cfg s.dp.j = true) :=
  ⟨⟨by decide, start_inv, by decide⟩, by decide, mid_inv, by decide⟩

theorem wit_RefCompletes :
    let s := expanding .deliver [0x41, 0x42, 0x102]
    s.cfg.wf = true ∧ ExpanderInv s.cfg s.dp ∧ (Instr.ref 0x102).wfAt s.cfg s.dp.j = true :=
  ⟨by decide, mid_inv, by decide⟩

theorem wit_KwkCompletes :
    let s := expanding .deliver [0x41, 0x42, 0x103]
    s.cfg.wf = true ∧ ExpanderInv s.cfg s.dp ∧ (Instr.kwk 0x103).wfAt s.cfg s.dp.j = true :=
  ⟨by decide, mid_inv, by decide⟩

theorem wit_EndCompletes :
    (let s := expanding .deliver [0x41, 0x42, 0x101]
     s.stage = .expand .deliver [0x41, 0x42, 0x101] ∧ s.err = 0 ∧ s.errPos = 0 ∧
     s.dp.outBytes.length ≤ s.cfg.outCap) ∧
    ((expanding (.rle 4) [0x41, 0x42, 0x101]).stage = .expand (.rle 4) [0x41, 0x42, 0x101]) ∧
    (let s := outCap 1 (expanding .deliver [0x41, 0x42, 0x101])
     s.stage = .expand .deliver [0x41, 0x42, 0x101] ∧ s.cfg.outCap < s.dp.outBytes.length) ∧
    idleT.stage = .idle ∧ (decoding [0x41]).stage = .tokens none [0x41] := by decide

theorem wit_WellFormedCodesExpand : cfgT.wf = true ∧ wellFormedCodes cfgT 0 [0x41, 0x101] = true := by decide

theorem wit_CodewordOutputBounds : cfgT.wf = true ∧ openCodes cfgT 0 ([0x41] ++ [0x102]) = true ∧
    openCodes cfgT 0 ([0x41] ++ [0x100]) = true ∧ 0x102 ≠ cfgT.resetCode := by decide

theorem wit_LzwDecodeCompletes :
    let s := withIn [0x41, 0x00, 0x02, 0x01, 0x01, 0x01, 0x99, 0x09]
    s.cfg.wf = true ∧ s.inLen.toNat ≤ s.cfg.inCap ∧ s.inLen.toNat % 2 = 0 ∧
    inCodes s = [0x41, 0x102, 0x101] ++ [0x999] ∧ wellFormedCodes s.cfg 0 [0x41, 0x102, 0x101] = true ∧
    decompressLZW s.cfg [0x41, 0x102, 0x101] = .ok [0x41, 0x41, 0x41] ∧
    ([0x41, 0x41, 0x41] : List Byte).length ≤ s.cfg.outCap :=
  ⟨by decide, by decide, by decide, by decide, by decide, rfl, by decide⟩

theorem wit_LzwDecodeErrors :
    (cfgT.inCap < (withIn (List.replicate 18 0)).inLen.toNat) ∧ ((withIn [1]).inLen.toNat % 2 = 1) ∧
    (let s := withIn [0x41, 0x00, 0x00, 0x01, 0x03, 0x01, 0x01, 0x01]
     s.cfg.wf = true ∧ s.inLen.toNat ≤ s.cfg.inCap ∧ s.inLen.toNat % 2 = 0 ∧
     inCodes s = [0x41, 0x100] ++ 0x103 :: [0x101] ∧ openCodes s.cfg 0 [0x41, 0x100] = true ∧
     classify s.cfg 0x103 (indexAfter s.cfg 0 [0x41, 0x100]) = .invalid 0x103 .firstNotLiteral) ∧
    (let s := withIn []
     s.inLen.toNat ≤ s.cfg.inCap ∧ s.inLen.toNat % 2 = 0 ∧ openCodes s.cfg 0 (inCodes s) = true) ∧
    (let s := outCap 2 (withIn [0x41, 0x00, 0x02, 0x01, 0x01, 0x01])
     s.cfg.wf = true ∧ s.inLen.toNat ≤ s.cfg.inCap ∧ s.inLen.toNat % 2 = 0 ∧
     inCodes s = [0x41, 0x102, 0x101] ++ [] ∧ wellFormedCodes s.cfg 0 [0x41, 0x102, 0x101] = true ∧
     decompressLZW s.cfg [0x41, 0x102, 0x101] = .ok [0x41, 0x41, 0x41] ∧
     s.cfg.outCap < ([0x41, 0x41, 0x41] : List Byte).length) := by
  refine ⟨by decide, by decide, by decide, by decide, ?_⟩
  exact ⟨by decide, by decide, by decide, by decide, by decide, rfl, by decide⟩

/-- The clause on RESET has an instance: with MAX_WIDTH = 9 the dictionary of 256 distinct bytes is full at
index 254, so RESET stands after it (43_lzw_builder.md R154). -/
theorem wit_EncoderOutputWellFormed_reset :
    { cfgT with maxWidth := 9, dictLimit := 512 }.wf = true ∧
    ((compressLZW { cfgT with maxWidth := 9, dictLimit := 512 }
      ((List.range 256).map (BitVec.ofNat 8))).toOption.bind fun cws => cws[255]?) = some 0x100 := by
  decide +kernel

/-- The clauses on a data codeword have one (T-LZWE-5b), with other codes whose phrases the rest of the input
begins with. -/
theorem wit_EncoderOutputWellFormed :
    cfgT.wf = true ∧ compressLZW cfgT [0x41, 0x41, 0x41, 0x41, 0x41] = .ok [0x41, 0x102, 0x102, 0x101] ∧
    [0x41, 0x102, 0x102, 0x101][2]? = some 0x102 ∧ 0x102 ≠ cfgT.resetCode ∧ 0x102 ≠ cfgT.endCode ∧
    (∃ now, expandCodes cfgT [0x41, 0x102, 0x102] (Datapath.reset cfgT) = .ok now ∧
      phrase cfgT now.dict 0x41 = some [0x41] ∧
      [0x41, 0x41, 0x41] ++ [0x41] <+: ([0x41, 0x41, 0x41, 0x41, 0x41] : List Byte)) :=
  ⟨by decide, rfl, rfl, by decide, by decide, _, rfl, by decide, by decide⟩

theorem wit_LzwEncodeCompletes :
    (let s := withIn [0x41, 0x41, 0x41]
     s.cfg.wf = true ∧ s.inLen.toNat ≤ s.cfg.inCap ∧
     compressLZW s.cfg (inBytes s) = .ok [0x41, 0x102, 0x101] ∧
     2 * [0x41, 0x102, 0x101].length ≤ s.cfg.outCap) ∧
    (let s := outCap 1 (withIn [])
     s.cfg.wf = true ∧ s.inLen.toNat ≤ s.cfg.inCap ∧ compressLZW s.cfg (inBytes s) = .ok [0x101] ∧
     s.cfg.outCap < 2 * [0x101].length) ∧
    cfgT.inCap < (withIn (List.replicate 17 0)).inLen.toNat :=
  ⟨⟨by decide, by decide, rfl, by decide⟩, ⟨by decide, by decide, rfl, by decide⟩, by decide⟩

/-- The encoder after "AB": "AB" is defined and the candidate is "B" (43_lzw_builder.md R153, its example). -/
def encoding : Datapath :=
  { Datapath.reset cfgT with
    cur := 2, ocur := 1, j := 1, nxt := 0x103, cand := some 0x42
    dict := [⟨0x41, 0x42, 0x41, 2⟩], outCodes := [0x41] }

/-- The clauses on the actions: the input loop, START, EXTEND at the first and only entry, EMIT_DEFINE at the
last code below DICT_LIMIT, EMIT_RESET at DICT_LIMIT. -/
theorem wit_LzwEncodeCompletes_actions :
    encodeLoop cfgT [0x41, 0x42] (Datapath.reset cfgT) = .ok encoding ∧
    (Datapath.reset cfgT).cand = none ∧
    (let x := { encoding with cand := some 0x41 }
     x.cand = some 0x41 ∧ x.dict[0]? = some ⟨0x41, 0x42, 0x41, 2⟩ ∧
     (x.dict.map fun e => (e.parent, e.suffix)).Nodup) ∧
    (encoding.cand = some 0x42 ∧ (∀ e ∈ encoding.dict, e.parent = 0x42 → e.suffix ≠ 0x43)) ∧
    (cfgT.firstFree + encoding.j < cfgT.dictLimit ∧ encoding.dict.length = encoding.j ∧
      phrase cfgT encoding.dict 0x42 = some [0x42]) ∧
    (let c := { cfgT with dictLimit := 0x104 }
     c.firstFree + encoding.j < c.dictLimit) ∧
    (let c := { cfgT with dictLimit := 0x103 }
     c.firstFree + encoding.j = c.dictLimit) :=
  ⟨rfl, rfl, by decide, by decide, by decide, by decide, by decide⟩

/-- CUR after a read and OCUR after a write stand at the new position (T-BR, T-BW). -/
theorem test_bit_cursors :
    (readUnit cfgT [0x41, 0x82, 0x04, 0x04] 9 { Datapath.reset cfgT with cur := 9 }).toOption.map
      (fun r => (r.1, r.2.cur)) = some (0x41, 18) ∧
    (writeUnit cfgT 0x1FF 9 { Datapath.reset cfgT with ocur := 3, outBytes := [0, 0, 0] }).toOption.map
      (fun x => (x.outBytes, x.ocur)) = some ([0xF8, 0x0F, 0x00], 12) := by decide

theorem wit_RleTokensComplete : cfgT.wf = true ∧ (1 : Byte) ≠ 0 ∧ (0xFF : Byte) ≠ 0 := by decide

theorem wit_RleDecodeCompletes :
    let s := withIn [0x01, 0xFF, 0x02, 0x41, 0xFF, 0x01, 0xFF]
    let ts : List Token := [.rlit 1, .esc (.whole 2 0x41), .esc (.whole 1 0xFF)]
    s.cfg.wf = true ∧ s.inLen.toNat ≤ s.cfg.inCap ∧ ts.all (Token.valid s.cfg) = true ∧
    inBytes s = ts.flatMap (Token.bytes s.cfg) ∧ (ts.flatMap Token.expansion).length ≤ s.cfg.outCap := by
  decide

theorem wit_RleDecodeErrors :
    (cfgT.inCap < (withIn (List.replicate 17 0)).inLen.toNat) ∧
    (let s := withIn [0x41, 0xFF, 0x00]
     s.cfg.wf = true ∧ s.inLen.toNat ≤ s.cfg.inCap ∧ [Token.rlit 0x41].all (Token.valid s.cfg) = true ∧
     inBytes s = [Token.rlit 0x41].flatMap (Token.bytes s.cfg) ++ s.cfg.rleMarker :: [0x00] ∧
     ([0x00] : List Byte).length < 2) ∧
    (let s := withIn [0xFF, 0x00, 0x41]
     s.inLen.toNat ≤ s.cfg.inCap ∧ ([] : List Token).all (Token.valid s.cfg) = true ∧
     inBytes s = ([] : List Token).flatMap (Token.bytes s.cfg) ++ s.cfg.rleMarker :: 0 :: 0x41 :: []) ∧
    (let s := withIn [0xFF, 0x09, 0x41]
     let ts : List Token := [.esc (.whole 9 0x41)]
     s.inLen.toNat ≤ s.cfg.inCap ∧ ts.all (Token.valid s.cfg) = true ∧
     inBytes s = ts.flatMap (Token.bytes s.cfg) ∧ s.cfg.outCap < (ts.flatMap Token.expansion).length) := by
  decide

theorem wit_RleEncodeCompletes :
    (let s := withIn [0x41, 0x41, 0x41, 0x41]
     s.inLen.toNat ≤ s.cfg.inCap ∧ (compressRLE s.cfg (inBytes s)).length ≤ s.cfg.outCap) ∧
    (let s := withIn [0xFF, 0x00, 0xFF, 0x00, 0xFF]
     s.inLen.toNat ≤ s.cfg.inCap ∧ s.cfg.outCap < (compressRLE s.cfg (inBytes s)).length) ∧
    cfgT.inCap < (withIn (List.replicate 17 0)).inLen.toNat := by decide

theorem wit_RleEncodesMaximalRuns : cfgT.wf = true ∧ 1 ≤ 258 ∧ ([0x42] : List Byte).head? ≠ some 0x41 ∧
    ([] : List Byte).head? ≠ some 0x41 := by decide

theorem wit_RleScenario : cfgT.wf = true ∧ cfgT.rleMinRun ≤ 200 ∧ 200 ≤ cfgT.rleMaxRun := by decide

theorem wit_RleSizeBounds : cfgT.wf = true ∧ cfgT.rleMarker ∉ ([0x41] : List Byte) := by decide

theorem wit_DecompressCompletes :
    let s := withImage [0xFF, 0x02, 0xFC, 0x0B, 0x08]
    readCodewords s.cfg (imageBytes s) s.argOffset.toNat = .ok ([0xFF, 0x01, 0xFF, 0x101], 5) ∧
    decompressLZW s.cfg [0xFF, 0x01, 0xFF, 0x101] = .ok [0xFF, 0x01, 0xFF] ∧
    decompressRLE s.cfg [0xFF, 0x01, 0xFF] = .ok [0xFF] ∧ ([0xFF] : List Byte).length ≤ s.cfg.outCap :=
  ⟨rfl, rfl, rfl, by decide⟩

theorem wit_DecompressErrors :
    (let s := withImage [0x41, 0x84, 0x00]
     s.cfg.wf = true ∧ readCodewords s.cfg (imageBytes s) s.argOffset.toNat =
       .error (.raised ⟨.bitReadPastEnd, .bit, 18⟩)) ∧
    (let s := withImage [0x41, 0xFE, 0x05, 0x04]
     readCodewords s.cfg (imageBytes s) s.argOffset.toNat = .ok ([0x41, 0xFF, 0x101], 4) ∧
     decompressRLE s.cfg [0x41, 0xFF] = .error (.raised ⟨.rleTruncated, .byte, 1⟩)) ∧
    (let s := outCap 0 (withImage [0x41, 0x02, 0x02])
     s.cfg.wf = true ∧ readCodewords s.cfg (imageBytes s) s.argOffset.toNat = .ok ([0x41, 0x101], 3) ∧
     decompressRLE s.cfg [0x41] = .ok [0x41] ∧ s.cfg.outCap < ([0x41] : List Byte).length) :=
  ⟨⟨by decide, rfl⟩, ⟨rfl, rfl⟩, by decide, rfl, rfl, by decide⟩

theorem wit_CompressCompletes :
    (let s := withIn [0x41, 0x41]
     s.cfg.wf = true ∧ s.inLen.toNat ≤ s.cfg.inCap ∧
     compress s.cfg (inBytes s) = .ok [0x41, 0x82, 0x04, 0x04] ∧
     ([0x41, 0x82, 0x04, 0x04] : List Byte).length ≤ s.cfg.outCap) ∧
    (let s := outCap 1 (withIn [])
     s.inLen.toNat ≤ s.cfg.inCap ∧ compress s.cfg (inBytes s) = .ok [0x01, 0x01] ∧
     s.cfg.outCap < ([0x01, 0x01] : List Byte).length) ∧
    cfgT.inCap < (withIn (List.replicate 17 0)).inLen.toNat :=
  ⟨⟨by decide, by decide, rfl, by decide⟩, ⟨by decide, rfl, by decide⟩, by decide⟩

theorem wit_ReservedOpcodesRaise :
    Instr.reservedB ∈ [Instr.reserved0, .reservedB, .reservedC, .reservedD, .reservedE] := by decide

theorem wit_CommandsComplete : idleT.cfg.wf = true ∧ isCommand idleT.cfg .compress = true ∧
    Instr.compress ≠ .softReset := by decide

theorem wit_ErrorLeaves :
    (let s := args 0 8 0 (withOut [1, 2])
     isCommand s.cfg .readBits = true ∧
     ∃ t, exec .readBits s = .next t ∧ errorFlag t.status = true) ∧
    (let s := withOut [1, 2]
     isCommand s.cfg .reserved0 = true ∧
     ∃ t, exec .reserved0 s = .next t ∧ errorFlag t.status = true) :=
  ⟨⟨by decide, _, rfl, by decide⟩, by decide, _, rfl, by decide⟩

theorem wit_CoreNeverWritesInputs : ∃ t, exec .rleEncode (withIn [0xFF]) = .next t ∧
    Instr.rleEncode ≠ .softReset := ⟨_, rfl, by decide⟩

theorem wit_ResultRegisterWriters : ∃ t, isCommand cfgT .rleEncode = true ∧ Instr.rleEncode ≠ .softReset ∧
    exec .rleEncode (withIn [0xFF]) = .next t ∧ Instr.rleEncode ≠ .readBits ∧
    Instr.rleEncode ≠ .writeBits ∧ Instr.rleEncode ≠ .readCodewords ∧ Instr.rleEncode ≠ .decompress :=
  ⟨_, by decide, by decide, rfl, by decide, by decide, by decide, by decide⟩

theorem wit_ResultRegisterWriters_readBits : ∃ t, isCommand cfgT .readBits = true ∧
    exec .readBits (args 0 9 0 (withIn [0x41, 0x82])) = .next t := ⟨_, by decide, rfl⟩

theorem wit_NoHiddenState : isCommand cfgT .softReset = true ∧ isCommand cfgT .reservedE = true := by decide

theorem wit_StepRunsDecodedInstruction :
    (let s := cmd 9 idleT
     s.cfg.wf = true ∧ s.stage = .idle ∧ s.host = .regWrite 0 4 9 :: []) ∧
    (let s := expanding .deliver [0x41, 0x42, 0xFFFF]
     s.stage = .expand .deliver [0x41, 0x42, 0xFFFF] ∧
     [0x41, 0x42, 0xFFFF][s.dp.cur]? = some 0xFFFF ∧ 0xFFFF < 2 ^ 16) ∧
    (let s := decoding [0xFF]
     s.stage = .tokens none [0xFF] ∧
     decodeToken s.cfg (([0xFF] : List Byte).drop s.dp.cur) = some (.esc (.cut none), [])) := by decide

theorem wit_StepWithoutInstruction :
    ({ idleT with cfg := { cfgT with rleBias := 1 } } : State).cfg.wf = false ∧
    (idleT.cfg.wf = true ∧ idleT.stage = .idle ∧ idleT.host = []) ∧
    (let s := expanding .deliver [0x41, 0x42]
     s.stage = .expand .deliver [0x41, 0x42] ∧ [0x41, 0x42].length ≤ s.dp.cur) ∧
    (let s := decoding []
     s.stage = .tokens none [] ∧ ([] : List Byte).length ≤ s.dp.cur ∧ s.err = 0 ∧ s.errPos = 0 ∧
     s.dp.outBytes.length ≤ s.cfg.outCap) := by decide

theorem wit_AtomicEqualsStepByStep :
    (let s := withIn [0x41, 0x00, 0x01, 0x01]
     s.cfg.wf = true ∧ s.inLen.toNat ≤ s.cfg.inCap ∧ s.inLen.toNat % 2 = 0) ∧
    (let s := withImage [0x41, 0x02, 0x02]
     s.cfg.wf = true ∧
     readCodewords s.cfg (imageBytes s) s.argOffset.toNat = .ok ([0x41, 0x101], 3)) :=
  ⟨by decide, by decide, rfl⟩

theorem wit_HostRegisterAccess :
    (idleT.cfg.wf = true ∧ idleT.stage = .idle) ∧
    (access (.regWrite 0x10 4 1) idleT).host = .regWrite 0x10 4 1 :: [] ∧
    (access (.regWrite 0x14 4 1) idleT).host = .regWrite 0x14 4 1 :: [] ∧
    (access (.regWrite 0x18 4 1) idleT).host = .regWrite 0x18 4 1 :: [] ∧
    (access (.regWrite 0x1C 4 1) idleT).host = .regWrite 0x1C 4 1 :: [] ∧
    ((access (.regWrite 0x04 4 1) idleT).host = .regWrite 0x04 4 1 :: [] ∧ 0x04 % 4 = 0 ∧
      0x04 ∉ [0x00, 0x10, 0x14, 0x18, 0x1C]) ∧
    ((access (.regWrite 0x30 4 1) idleT).host = .regWrite 0x30 4 1 :: [] ∧ 0x30 % 4 = 0 ∧
      0x30 ∉ [0x00, 0x10, 0x14, 0x18, 0x1C]) ∧
    (access (.regRead 0x00 4) idleT).host = .regRead (4 * 0) 4 :: [] ∧
    (11 < 12 ∧ (access (.regRead 0x2C 4) idleT).host = .regRead (4 * 11) 4 :: []) ∧
    (12 ≤ 12 ∧ (access (.regRead 0x30 4) idleT).host = .regRead (4 * 12) 4 :: []) := by decide

theorem wit_HostBufferAccess :
    (idleT.cfg.wf = true ∧ idleT.stage = .idle) ∧
    ((access (.inWrite 15 1) idleT).host = .inWrite 15 1 :: [] ∧ 15 < cfgT.inCap) ∧
    ((access (.imageLoad 3 1) idleT).host = .imageLoad 3 1 :: [] ∧ 3 < cfgT.imgLen) ∧
    (let s := access (.outRead 1) (withOut [7, 8])
     s.host = .outRead 1 :: [] ∧ 1 < s.cfg.outCap ∧ 1 < s.outLen.toNat ∧ s.outBuf.read? 1 = some 8) ∧
    (let s := access (.outRead 2) (withOut [7, 8])
     s.host = .outRead 2 :: [] ∧ 2 < s.cfg.outCap ∧ s.outLen.toNat ≤ 2) ∧
    ((access (.inWrite 16 1) idleT).host = .inWrite 16 1 :: [] ∧ cfgT.inCap ≤ 16) ∧
    ((access (.imageLoad 4 1) idleT).host = .imageLoad 4 1 :: [] ∧ cfgT.imgLen ≤ 4) ∧
    ((access (.outRead 8) idleT).host = .outRead 8 :: [] ∧ cfgT.outCap ≤ 8) := by decide

theorem wit_UnalignedAccessRefused :
    idleT.cfg.wf = true ∧ idleT.stage = .idle ∧
    ((2 ≠ 4 ∨ 0x00 % 4 ≠ 0) ∧ (access (.regWrite 0x00 2 1) idleT).host = .regWrite 0x00 2 1 :: []) ∧
    ((4 ≠ 4 ∨ 0x2D % 4 ≠ 0) ∧ (access (.regRead 0x2D 4) idleT).host = .regRead 0x2D 4 :: []) := by decide

theorem wit_PowerOnReset : idleT.cfg.wf = true ∧ idleT.stage = .idle ∧
    (access .powerOn idleT).host = .powerOn :: [] := by decide

theorem wit_ResetIsWellFormed : cfgT.wf = true ∧ (Memory.ofBytes [1, 2, 3, 4]).wf = true ∧
    (Memory.ofBytes [1, 2, 3, 4]).within cfgT.imgLen = true := by decide

/-- A stream in progress is well formed. -/
theorem expanding_inv : (expanding .deliver [0x41, 0x42, 0x101]).Inv where
  config := by decide
  image := by decide
  inBuf := by decide
  outBuf := by decide
  outLen := by decide
  outListed := by decide
  errReserved := by decide
  argWidthReserved := by decide
  errClear := by decide
  stage := ⟨mid_inv, by decide, by decide, by decide⟩

theorem wit_StepKeepsInvariant :
    ∃ t, (expanding .deliver [0x41, 0x42, 0x101]).Inv ∧
      step (expanding .deliver [0x41, 0x42, 0x101]) = .next t :=
  ⟨_, expanding_inv, rfl⟩

theorem wit_LegalStepsAreSafe :
    (expanding .deliver [0x41, 0x42, 0x101]).Inv ∧
    (∀ a rest, (expanding .deliver [0x41, 0x42, 0x101]).host = a :: rest → a.legal cfgT = true) ∧
    (let s := access (.outRead 7) idleT
     ∀ a rest, s.host = a :: rest → a.legal s.cfg = true) := by
  refine ⟨expanding_inv, ?_, ?_⟩
  · intro a rest h
    cases h
  · intro s a rest h
    cases h
    rfl

end Sys2Proof.Tests
end

namespace Sys2Proof.Machine

/-! ## What a command reads of the state it finds -/

/-- A command's outcome is a function of the state its prologue leaves (45_commands.md R194). -/
theorem exec_eq_of_prologue_eq {i : Instr} {s t : State} (hi : isCommand s.cfg i = true)
    (h : prologue s = prologue t) : exec i s = exec i t := by
  cases i with
  | readBits => simp only [exec, execReadBits, h]
  | writeBits => simp only [exec, execWriteBits, h]
  | readCodewords => simp only [exec, execReadCodewords, h]
  | packCodewords => simp only [exec, execPackCodewords, h]
  | lzwDecode => simp only [exec, execLzwDecode, h]
  | lzwEncode => simp only [exec, execLzwEncode, h]
  | rleDecode => simp only [exec, execRleDecode, h]
  | rleEncode => simp only [exec, execRleEncode, h]
  | decompress => simp only [exec, execDecompress, h]
  | compress => simp only [exec, execCompress, h]
  | softReset => simp only [exec, execSoftReset, h]
  | reserved0 => simp only [exec, execReserved0, rejectOpcode, h]
  | reservedB => simp only [exec, execReservedB, rejectOpcode, h]
  | reservedC => simp only [exec, execReservedC, rejectOpcode, h]
  | reservedD => simp only [exec, execReservedD, rejectOpcode, h]
  | reservedE => simp only [exec, execReservedE, rejectOpcode, h]
  | reset | endStream | lit _ | ref _ | kwk _ | invalid _ _ | rlit _ | esc _ => cases hi

/-- Settles O50: the prologue overwrites the internal registers, STATUS, ERR and ERR_POS. -/
theorem noHiddenState : Obligations.NoHiddenState := by
  intro s x status err errPos i hi
  exact exec_eq_of_prologue_eq hi rfl

end Sys2Proof.Machine

namespace Sys2Proof.Machine

/-! ## Operations that never fault

A step ends in a next state where its operation returns a result or raises an error of the spec; only a fault
stops it. `Yields P r` says that `r` is no fault, and that a result it returns satisfies `P`: what one part of
an operation leaves for the next. -/

/-- `r` returns a result with `P`, or raises an error of the spec. -/
def Yields {α : Type} (P : α → Prop) : Except Stop α → Prop
  | .ok a => P a
  | .error (.raised _) => True
  | .error (.fault _) => False

/-- `r` returns a result or raises an error of the spec. -/
abbrev NoFault {α : Type} (r : Except Stop α) : Prop := Yields (fun _ => True) r

section Yields

variable {α β : Type} {P : α → Prop} {Q : β → Prop} {r : Except Stop α}

theorem yields_raise (c : Cause) (u : PosUnit) (p : Nat) : Yields P (raise c u p) := trivial

theorem Yields.bind {f : α → Except Stop β} (hr : Yields P r) (hf : ∀ a, P a → Yields Q (f a)) :
    Yields Q (r.bind f) := by
  rcases r with (e | f) | a
  · trivial
  · exact hr.elim
  · exact hf a hr

theorem Yields.map {f : α → β} (hr : Yields P r) (hf : ∀ a, P a → Q (f a)) : Yields Q (r.map f) := by
  rcases r with (e | f) | a
  · trivial
  · exact hr.elim
  · exact hf a hr

theorem NoFault.bind {f : α → Except Stop β} (hr : NoFault r) (hf : ∀ a, Yields Q (f a)) :
    Yields Q (r.bind f) :=
  Yields.bind hr fun a _ => hf a

theorem NoFault.ite {c : Prop} [Decidable c] {a b : Except Stop α} (ha : NoFault a) (hb : NoFault b) :
    NoFault (if c then a else b) := by
  split
  · exact ha
  · exact hb

theorem NoFault.map {f : α → β} (hr : NoFault r) : NoFault (r.map f) := Yields.map hr fun _ h => h

end Yields

theorem finish_next {P : State → Prop} {keep : Bool} {s : State} {r : Except Stop State} (h : Yields P r) :
    ∃ t, finish keep s r = .next t := by
  rcases r with (e | f) | t
  · exact ⟨_, rfl⟩
  · exact h.elim
  · exact ⟨t, rfl⟩

theorem advance_next {P : Datapath → Prop} {s : State} {r : Except Stop Datapath} (h : Yields P r) :
    ∃ t, advance s r = .next t :=
  finish_next (P := fun _ => True) (h.map fun _ _ => trivial)

/-! ## Phrases -/

theorem phraseFuel_code (cfg : Config) (dict : Dict) (fuel : Nat) {k : Nat} (h : 255 < k) :
    phraseFuel cfg dict (fuel + 1) k =
      (Dict.entry? cfg dict k).bind fun e => (phraseFuel cfg dict fuel e.parent).map (· ++ [e.suffix]) := by
  simp only [phraseFuel, Nat.not_le.2 h, if_false]
  cases Dict.entry? cfg dict k <;> rfl

theorem entry?_append {cfg : Config} {dict : Dict} {k : Nat} {e : Entry} (l : Dict)
    (h : Dict.entry? cfg dict k = some e) : Dict.entry? cfg (dict ++ l) k = some e := by
  unfold Dict.entry? at *
  split at h
  · cases h
  · rename_i hk
    obtain ⟨hlt, -⟩ := List.getElem?_eq_some_iff.1 h
    rw [if_neg hk, List.getElem?_append_left hlt, h]

/-- A phrase stays the same when entries are added and more links may be followed. -/
theorem phraseFuel_append {cfg : Config} {dict : Dict} {fuel fuel' k : Nat} {ph : List Byte} (l : Dict)
    (hf : fuel ≤ fuel') (h : phraseFuel cfg dict fuel k = some ph) :
    phraseFuel cfg (dict ++ l) fuel' k = some ph := by
  induction fuel generalizing fuel' k ph with
  | zero =>
    by_cases hk : k ≤ 255
    · rwa [phraseFuel_base _ _ _ hk] at h ⊢
    · simp [phraseFuel, hk] at h
  | succ fuel ih =>
    by_cases hk : k ≤ 255
    · rwa [phraseFuel_base _ _ _ hk] at h ⊢
    · obtain ⟨fuel', rfl⟩ : ∃ n, fuel' = n + 1 := ⟨fuel' - 1, by omega⟩
      simp only [phraseFuel_code _ _ _ (Nat.not_le.1 hk), Option.bind_eq_some_iff,
        Option.map_eq_some_iff] at h ⊢
      obtain ⟨e, he, ph', hph, rfl⟩ := h
      exact ⟨e, entry?_append l he, ph', ih (by omega) hph, rfl⟩

theorem phrase_append {cfg : Config} {dict : Dict} {k : Nat} {ph : List Byte} (l : Dict)
    (h : phrase cfg dict k = some ph) : phrase cfg (dict ++ l) k = some ph :=
  phraseFuel_append l le_rfl h

/-- The phrase of an entry is its parent's phrase and its own last byte (10_state.md R31). -/
theorem phrase_entry {cfg : Config} {dict : Dict} {i : Nat} {e : Entry} {ph : List Byte}
    (hff : 256 ≤ cfg.firstFree) (he : dict[i]? = some e) (hp : e.parent < cfg.firstFree + i)
    (hph : phrase cfg dict e.parent = some ph) :
    phrase cfg dict (cfg.firstFree + i) = some (ph ++ [e.suffix]) := by
  obtain ⟨n, hn⟩ : ∃ n, cfg.firstFree + i = n + 1 := ⟨cfg.firstFree + i - 1, by omega⟩
  have hentry : Dict.entry? cfg dict (n + 1) = some e := by
    simp [Dict.entry?, ← hn, he]
  have hlink : phraseFuel cfg dict n e.parent = some ph := by
    simpa using phraseFuel_append [] (show e.parent ≤ n by omega) hph
  rw [phrase, hn, phraseFuel_code _ _ _ (by omega), hentry, Option.bind_some, hlink, Option.map_some]

theorem phraseFuel_ne_nil {cfg : Config} {dict : Dict} {fuel k : Nat} {ph : List Byte}
    (h : phraseFuel cfg dict fuel k = some ph) : ph ≠ [] := by
  by_cases hk : k ≤ 255
  · rw [phraseFuel_base _ _ _ hk] at h
    cases h
    simp
  · cases fuel with
    | zero => simp [phraseFuel, hk] at h
    | succ fuel =>
      simp only [phraseFuel_code _ _ _ (Nat.not_le.1 hk), Option.bind_eq_some_iff,
        Option.map_eq_some_iff] at h
      obtain ⟨e, -, ph', -, rfl⟩ := h
      simp

/-! ## The dictionary -/

theorem entryOk_iff {cfg : Config} {dict : Dict} {i : Nat} :
    Dict.entryOk cfg dict i = true ↔ ∃ e ph, dict[i]? = some e ∧ codeDefined cfg i e.parent ∧
      phrase cfg dict (cfg.firstFree + i) = some ph ∧ ph.head? = some e.first ∧ ph.length = e.len := by
  unfold Dict.entryOk codeDefined
  cases dict[i]? <;> cases phrase cfg dict (cfg.firstFree + i) <;> simp

/-- More entries leave every defined code defined. -/
theorem codeDefined.mono {cfg : Config} {m n c : Nat} (h : codeDefined cfg m c) (hmn : m ≤ n) :
    codeDefined cfg n c := by
  unfold codeDefined at *
  omega

theorem codeDefined_byte (cfg : Config) (n : Nat) (b : Byte) : codeDefined cfg n b.toNat :=
  .inl (Nat.le_of_lt_succ b.isLt)

theorem codeDefined.lt {cfg : Config} {n c : Nat} (hff : 256 ≤ cfg.firstFree) (h : codeDefined cfg n c) :
    c < cfg.firstFree + n := by
  unfold codeDefined at h
  omega

/-- Where a code has a phrase (10_state.md R31). -/
theorem DictInv.phrase_defined {cfg : Config} {dict : Dict} {c : Nat} (h : DictInv cfg dict)
    (hc : codeDefined cfg dict.length c) : ∃ ph, phrase cfg dict c = some ph := by
  rcases hc with hc | ⟨hlo, hhi⟩
  · exact ⟨_, phrase_base cfg dict hc⟩
  · obtain ⟨e, ph, -, -, hph, -⟩ := entryOk_iff.1 (h.entries (c - cfg.firstFree) (by omega))
    exact ⟨ph, by rwa [Nat.add_sub_cancel' hlo] at hph⟩

theorem entryOk_append {cfg : Config} {dict : Dict} {i : Nat} (l : Dict)
    (h : Dict.entryOk cfg dict i = true) : Dict.entryOk cfg (dict ++ l) i = true := by
  obtain ⟨e, ph, he, hp, hph, hfirst, hlen⟩ := entryOk_iff.1 h
  obtain ⟨hlt, -⟩ := List.getElem?_eq_some_iff.1 he
  exact entryOk_iff.2 ⟨e, ph, by rw [List.getElem?_append_left hlt, he], hp, phrase_append l hph, hfirst, hlen⟩

theorem DictInv.nil {cfg : Config} (h : cfg.firstFree ≤ cfg.dictLimit) : DictInv cfg [] :=
  ⟨h, fun _ hi => absurd hi (Nat.not_lt_zero _)⟩

/-- The entry that `define` adds extends the dictionary by one good entry. -/
theorem DictInv.append {cfg : Config} {dict : Dict} {p : Nat} {ph : List Byte} (b : Byte)
    (h : DictInv cfg dict) (hff : 256 ≤ cfg.firstFree) (hroom : cfg.firstFree + dict.length < cfg.dictLimit)
    (hp : codeDefined cfg dict.length p) (hph : phrase cfg dict p = some ph) :
    DictInv cfg (dict ++ [⟨p, b, ph.headD 0, ph.length + 1⟩]) where
  bounded := by simp only [List.length_append, List.length_singleton]; omega
  entries := by
    intro i hi
    rw [List.length_append, List.length_singleton] at hi
    rcases Nat.lt_succ_iff_lt_or_eq.1 hi with hi | rfl
    · exact entryOk_append _ (h.entries i hi)
    · refine entryOk_iff.2 ⟨_, ph ++ [b], List.getElem?_concat_length, hp,
        phrase_entry hff List.getElem?_concat_length (hp.lt hff) (phrase_append _ hph), ?_, by simp⟩
      cases ph with
      | nil => exact absurd rfl (phraseFuel_ne_nil hph)
      | cons a ph => rfl

/-- `define` on the next free code and a code with a phrase adds one entry and changes nothing else
(42_lzw_expander.md R134). -/
theorem define_extends {cfg : Config} {p : Nat} {x : Datapath} (b : Byte) (h : DictInv cfg x.dict)
    (hff : 256 ≤ cfg.firstFree) (hroom : cfg.firstFree + x.dict.length < cfg.dictLimit)
    (hp : codeDefined cfg x.dict.length p) :
    ∃ e, define cfg (cfg.firstFree + x.dict.length) p b x = .ok { x with dict := x.dict ++ [e] } ∧
      DictInv cfg (x.dict ++ [e]) := by
  obtain ⟨ph, hph⟩ := h.phrase_defined hp
  exact ⟨_, define_ok rfl hroom hph, h.append b hff hroom hp hph⟩


/-! ## The expander's registers -/

theorem firstFree_ge {cfg : Config} (h : cfg.wf = true) : 256 ≤ cfg.firstFree :=
  (Laws.Encoding.bounds h).1 ▸ (by decide)

theorem firstFree_lt_dictLimit {cfg : Config} (h : cfg.wf = true) : cfg.firstFree < cfg.dictLimit := by
  simp only [Config.wf, decide_eq_true_eq] at h
  obtain ⟨-, hw, -, -, -, -, -, -, -, hfit, hlimit, -⟩ := h
  rw [hlimit]
  exact hfit.trans_le (Nat.pow_le_pow_right (by decide) hw)

theorem nextCode_succ {cfg : Config} {j : Nat} (h : 1 ≤ j) : nextCode cfg (j + 1) = nextCode cfg j + 1 := by
  unfold nextCode
  omega

theorem prevOk_iff {cfg : Config} {x : Datapath} :
    prevOk cfg x = true ↔
      (x.prev = none ∧ x.j = 0) ∨ ∃ p, x.prev = some p ∧ 1 ≤ x.j ∧ codeDefined cfg (x.j - 1) p := by
  unfold prevOk codeDefined
  cases x.prev <;> simp

/-- From J = 1 on PREV is a code with a phrase (10_state.md R27). -/
theorem ExpanderInv.prev_defined {cfg : Config} {x : Datapath} (h : ExpanderInv cfg x) (hj : 1 ≤ x.j) :
    ∃ p, x.prev = some p ∧ codeDefined cfg x.dict.length p := by
  rcases prevOk_iff.1 h.prev with ⟨-, h0⟩ | ⟨p, hp, -, hdef⟩
  · omega
  · exact ⟨p, hp, h.count ▸ hdef⟩

/-- A valid codeword satisfies the condition its kind has in the table of 30_encoding.md R72. -/
theorem classify_wfAt {cfg : Config} {c j : Nat} {k : CwKind} (hj : nextCode cfg j ≤ cfg.dictLimit)
    (hk : classify cfg c j = k) (hv : ∀ c cause, k ≠ .invalid c cause) : k.toInstr.wfAt cfg j = true := by
  subst hk
  unfold classify at *
  split_ifs at * <;> simp_all [CwKind.toInstr, Instr.wfAt, nextCode] <;> omega

theorem widthAt_zero {cfg : Config} (h : cfg.wf = true) : widthAt cfg 0 = cfg.minWidth := by
  simp only [Config.wf, decide_eq_true_eq] at h
  obtain ⟨-, hle, -, -, -, -, -, -, hff, hfit, -⟩ := h
  have hpos : cfg.firstFree ≠ 0 := by omega
  have hbits : bitlen cfg.firstFree ≤ cfg.minWidth := by
    rw [bitlen, if_neg hpos]
    exact (Nat.log2_lt hpos).2 hfit
  rw [widthAt, nextCode, Nat.zero_sub, Nat.add_zero, max_eq_left hbits, min_eq_right hle]

/-- The registers at the start of a stream (10_state.md R43). -/
theorem expanderInv_reset {cfg : Config} (h : cfg.wf = true) : ExpanderInv cfg (Datapath.reset cfg) where
  dict := .nil (firstFree_lt_dictLimit h).le
  count := rfl
  next := rfl
  range := (firstFree_lt_dictLimit h).le
  width := (widthAt_zero h).symm
  prev := rfl
  counted := rfl

/-- What a phrase leaves at J = 0, where nothing is defined. -/
theorem emitPhrase_first (cfg : Config) (ph : List Byte) (c : Nat) (x : Datapath) :
    emitPhrase cfg ph c false x = .ok
      ({ x with
        outBytes := x.outBytes ++ ph, ocur := x.ocur + ph.length
        prev := some c, cur := x.cur + 1 }.atIndex cfg (x.j + 1)) := rfl

/-- What a phrase leaves from J = 1 on, where `define` takes the next free code. -/
theorem emitPhrase_defines {cfg : Config} {ph : List Byte} {c p : Nat} {x : Datapath} {e : Entry}
    (hp : x.prev = some p)
    (hdef : define cfg (nextCode cfg x.j) p (ph.headD 0)
        { x with outBytes := x.outBytes ++ ph, ocur := x.ocur + ph.length } =
      .ok { x with outBytes := x.outBytes ++ ph, ocur := x.ocur + ph.length, dict := x.dict ++ [e] }) :
    emitPhrase cfg ph c true x = .ok
      ({ x with
        outBytes := x.outBytes ++ ph, ocur := x.ocur + ph.length, dict := x.dict ++ [e]
        prev := some c, cur := x.cur + 1 }.atIndex cfg (x.j + 1)) := by
  cases x
  cases hp
  exact congrArg (Except.bind · _) hdef

/-- What LIT, REF and KWK share keeps the expander's invariant, where the next code is below DICT_LIMIT and
`c` has a phrase from the next index on. -/
theorem emitPhrase_keeps {cfg : Config} {x : Datapath} {c : Nat} (ph : List Byte) (hwf : cfg.wf = true)
    (h : ExpanderInv cfg x) (hroom : 1 ≤ x.j → nextCode cfg x.j < cfg.dictLimit)
    (hc : codeDefined cfg x.j c) :
    Yields (ExpanderInv cfg) (emitPhrase cfg ph c (decide (1 ≤ x.j)) x) := by
  by_cases hj : 1 ≤ x.j
  · obtain ⟨p, hp, hdef⟩ := h.prev_defined hj
    have hcode : cfg.firstFree + x.dict.length = nextCode cfg x.j := by rw [nextCode, h.count]
    obtain ⟨e, he, hdict⟩ := define_extends (ph.headD 0)
      (x := { x with outBytes := x.outBytes ++ ph, ocur := x.ocur + ph.length }) h.dict (firstFree_ge hwf)
      (hcode ▸ hroom hj) hdef
    have hcount := h.count
    rw [decide_eq_true hj, emitPhrase_defines hp (hcode ▸ he)]
    exact {
      dict := hdict
      count := by simp; omega
      next := rfl
      range := by simpa [nextCode_succ hj] using hroom hj
      width := rfl
      prev := prevOk_iff.2 (.inr ⟨c, rfl, by simp, hc⟩)
      counted := by simp [h.counted] }
  · have h0 : x.j = 0 := by omega
    rw [decide_eq_false hj, emitPhrase_first]
    exact {
      dict := h.dict
      count := by simp [h.count, h0]
      next := rfl
      range := by simpa [h.next, nextCode, h0] using h.range
      width := rfl
      prev := prevOk_iff.2 (.inr ⟨c, rfl, by simp, hc⟩)
      counted := by simp [h.counted] }

theorem litStep_keeps {cfg : Config} {x : Datapath} {b : Byte} (hwf : cfg.wf = true)
    (h : ExpanderInv cfg x) (hb : (Instr.lit b).wfAt cfg x.j = true) :
    Yields (ExpanderInv cfg) (litStep cfg b x) := by
  have hb : x.j = 0 ∨ nextCode cfg x.j < cfg.dictLimit := of_decide_eq_true hb
  exact emitPhrase_keeps _ hwf h (fun hj => hb.resolve_left (by omega)) (codeDefined_byte _ _ _)

theorem refStep_keeps {cfg : Config} {x : Datapath} {c : Nat} (hwf : cfg.wf = true)
    (h : ExpanderInv cfg x) (hc : (Instr.ref c).wfAt cfg x.j = true) :
    Yields (ExpanderInv cfg) (refStep cfg c x) := by
  obtain ⟨hj, hroom, hlo, hhi⟩ := of_decide_eq_true hc
  have hdef : codeDefined cfg (x.j - 1) c := .inr ⟨hlo, hhi⟩
  obtain ⟨ph, hph⟩ := h.dict.phrase_defined (h.count ▸ hdef)
  simpa only [refStep, hph, hj, decide_true] using
    emitPhrase_keeps ph hwf h (fun _ => hroom) (hdef.mono (Nat.sub_le _ _))

theorem kwkStep_keeps {cfg : Config} {x : Datapath} {c : Nat} (hwf : cfg.wf = true)
    (h : ExpanderInv cfg x) (hc : (Instr.kwk c).wfAt cfg x.j = true) :
    Yields (ExpanderInv cfg) (kwkStep cfg c x) := by
  obtain ⟨hj, hroom, rfl⟩ := of_decide_eq_true hc
  obtain ⟨p, hp, hdef⟩ := h.prev_defined hj
  obtain ⟨ph, hph⟩ := h.dict.phrase_defined hdef
  have hnew : codeDefined cfg x.j (cfg.firstFree + (x.j - 1)) := .inr (by omega)
  simpa only [kwkStep, hp, hph, hj, decide_true] using
    emitPhrase_keeps (ph ++ [ph.headD 0]) hwf h (fun _ => hroom) hnew

theorem resetStep_keeps {cfg : Config} {x : Datapath} (hwf : cfg.wf = true) (h : ExpanderInv cfg x) :
    ExpanderInv cfg (resetStep cfg x) where
  dict := .nil (firstFree_lt_dictLimit hwf).le
  count := rfl
  next := rfl
  range := (firstFree_lt_dictLimit hwf).le
  width := rfl
  prev := rfl
  counted := h.counted

/-- Every codeword but END keeps the expander's invariant or raises an error (42_lzw_expander.md R131 to R137). -/
theorem codewordStep_keeps {cfg : Config} {x : Datapath} {c : Nat} (hwf : cfg.wf = true)
    (h : ExpanderInv cfg x) (he : classify cfg c x.j ≠ .endStream) :
    Yields (ExpanderInv cfg) (codewordStep cfg (classify cfg c x.j) x) := by
  have hj : nextCode cfg x.j ≤ cfg.dictLimit := h.next ▸ h.range
  cases hk : classify cfg c x.j with
  | reset => exact resetStep_keeps hwf h
  | endStream => exact absurd hk he
  | lit b => exact litStep_keeps hwf h (classify_wfAt hj hk nofun)
  | ref c => exact refStep_keeps hwf h (classify_wfAt hj hk nofun)
  | kwk c => exact kwkStep_keeps hwf h (classify_wfAt hj hk nofun)
  | invalid c cause => exact yields_raise _ _ _

/-- The expander never faults, whatever codewords it is given. -/
theorem expand_noFault {cfg : Config} {x : Datapath} (cws : List Nat) (hwf : cfg.wf = true)
    (h : ExpanderInv cfg x) : NoFault (expand cfg cws x) := by
  induction cws generalizing x with
  | nil => exact yields_raise _ _ _
  | cons c cws ih =>
    by_cases he : classify cfg c x.j = .endStream
    · rw [expand_endStream he]
      trivial
    · rw [expand_step he]
      exact (codewordStep_keeps hwf h he).bind fun _ => ih

theorem decompressLZW_noFault {cfg : Config} (cws : List Nat) (hwf : cfg.wf = true) :
    NoFault (decompressLZW cfg cws) :=
  (expand_noFault cws hwf (expanderInv_reset hwf)).map


/-! ## The encoder's registers -/

/-- The registers of the encoder between two input bytes: before emission J the dictionary holds J entries
(43_lzw_builder.md R155), and CAND, where there is one, is a code with a phrase (10_state.md R28). -/
structure EncoderInv (cfg : Config) (x : Datapath) : Prop where
  dict : DictInv cfg x.dict
  count : x.dict.length = x.j
  cand : ∀ p, x.cand = some p → codeDefined cfg x.dict.length p

theorem encoderInv_reset {cfg : Config} (h : cfg.wf = true) : EncoderInv cfg (Datapath.reset cfg) where
  dict := .nil (firstFree_lt_dictLimit h).le
  count := rfl
  cand := nofun

/-- A code that `lookup` finds is one of the dictionary's. -/
theorem lookup_defined {cfg : Config} {dict : Dict} {p k : Nat} {b : Byte}
    (h : lookup cfg dict p b = some k) : codeDefined cfg dict.length k := by
  simp only [lookup, Option.map_eq_some_iff] at h
  obtain ⟨i, hi, rfl⟩ := h
  obtain ⟨hlt, -⟩ := List.findIdx?_eq_some_iff_getElem.1 hi
  exact .inr (by omega)

theorem actStart_keeps {cfg : Config} {x : Datapath} (b : Byte) (h : EncoderInv cfg x) :
    EncoderInv cfg (actStart b x) where
  dict := h.dict
  count := h.count
  cand := by
    rintro _ ⟨⟩
    exact codeDefined_byte _ _ _

theorem actExtend_keeps {cfg : Config} {x : Datapath} {k : Nat} (h : EncoderInv cfg x)
    (hk : codeDefined cfg x.dict.length k) : EncoderInv cfg (actExtend k x) where
  dict := h.dict
  count := h.count
  cand := by
    rintro _ ⟨⟩
    exact hk

theorem actEmitReset_keeps {cfg : Config} {x : Datapath} (p : Nat) (b : Byte) (hwf : cfg.wf = true) :
    EncoderInv cfg (actEmitReset cfg p b x) where
  dict := .nil (firstFree_lt_dictLimit hwf).le
  count := rfl
  cand := by
    rintro _ ⟨⟩
    exact codeDefined_byte _ _ _

theorem actEmitDefine_keeps {cfg : Config} {x : Datapath} {p : Nat} (b : Byte) (hwf : cfg.wf = true)
    (h : EncoderInv cfg x) (hp : x.cand = some p) (hroom : cfg.firstFree + x.j < cfg.dictLimit) :
    Yields (EncoderInv cfg) (actEmitDefine cfg p b x) := by
  obtain ⟨e, he, hdict⟩ := define_extends b (x := x.emitCode p) h.dict (firstFree_ge hwf)
    (h.count ▸ hroom) (h.cand p hp)
  rw [emitCode_dict, h.count] at he
  rw [actEmitDefine, he]
  exact {
    dict := hdict
    count := by simp [h.count]
    cand := by
      rintro _ ⟨⟩
      exact codeDefined_byte _ _ _ }

/-- Every action of the encoder keeps its invariant (43_lzw_builder.md R151 to R154). -/
theorem encodeByte_keeps {cfg : Config} {x : Datapath} (b : Byte) (hwf : cfg.wf = true)
    (h : EncoderInv cfg x) : Yields (EncoderInv cfg) (encodeByte cfg b x) := by
  unfold encodeByte
  split
  · exact actStart_keeps b h
  · rename_i p hp
    split
    · rename_i k hk
      exact actExtend_keeps h (lookup_defined hk)
    · split
      · rename_i hroom
        exact actEmitDefine_keeps b hwf h hp hroom
      · exact actEmitReset_keeps p b hwf

theorem encodeLoop_noFault {cfg : Config} {x : Datapath} (bytes : List Byte) (hwf : cfg.wf = true)
    (h : EncoderInv cfg x) : NoFault (encodeLoop cfg bytes x) := by
  induction bytes generalizing x with
  | nil => trivial
  | cons b bytes ih =>
    exact (encodeByte_keeps b hwf h).bind fun _ h1 => ih { dict := h1.dict, count := h1.count, cand := h1.cand }

theorem compressLZW_noFault {cfg : Config} (bytes : List Byte) (hwf : cfg.wf = true) :
    NoFault (compressLZW cfg bytes) :=
  (encodeLoop_noFault bytes hwf (encoderInv_reset hwf)).map

/-! ## The other engines -/

theorem readUnit_noFault (cfg : Config) (buf : List Byte) (w : Nat) (x : Datapath) :
    NoFault (readUnit cfg buf w x) := by
  by_cases h : x.cur + w ≤ 8 * buf.length
  · rw [readUnit_ok h]
    trivial
  · rw [readUnit_past (Nat.not_le.1 h)]
    exact yields_raise _ _ _

theorem writeUnit_noFault (cfg : Config) (v w : Nat) (x : Datapath) : NoFault (writeUnit cfg v w x) := by
  by_cases hv : v < 2 ^ w
  · by_cases h : x.ocur + w ≤ 8 * x.outBytes.length
    · rw [writeUnit_ok hv h]
      trivial
    · rw [writeUnit_past hv (Nat.not_le.1 h)]
      exact yields_raise _ _ _
  · rw [writeUnit_wide (Nat.not_lt.1 hv)]
    exact yields_raise _ _ _

theorem readLoop_noFault (cfg : Config) (buf : List Byte) (fuel : Nat) (x : Datapath) :
    NoFault (readLoop cfg buf fuel x) := by
  induction fuel generalizing x with
  | zero => exact yields_raise _ _ _
  | succ fuel ih =>
    refine (readUnit_noFault _ _ _ _).bind fun ⟨c, x0⟩ => ?_
    dsimp only
    cases classify cfg c x.j with
    | invalid c cause => exact yields_raise _ _ _
    | endStream => trivial
    | reset | lit _ | ref _ | kwk _ => exact ih _

theorem readCodewords_noFault (cfg : Config) (image : List Byte) (offset : Nat) :
    NoFault (readCodewords cfg image offset) :=
  .ite (yields_raise _ _ _) (readLoop_noFault _ _ _ _).map

theorem packLoop_noFault (cfg : Config) (cws : List Nat) (x : Datapath) : NoFault (packLoop cfg cws x) := by
  induction cws generalizing x with
  | nil => trivial
  | cons c cws ih => exact (writeUnit_noFault _ _ _ _).bind fun _ => ih _

theorem packCodewords_noFault (cfg : Config) (cws : List Nat) : NoFault (packCodewords cfg cws) :=
  (packLoop_noFault _ _ _).map

theorem escStep_noFault (cfg : Config) (body : EscBody) (x : Datapath) : NoFault (escStep cfg body x) := by
  cases body with
  | cut n => exact yields_raise _ _ _
  | whole n f => exact NoFault.ite (yields_raise _ _ _) trivial

theorem tokenLoop_noFault (cfg : Config) (fuel : Nat) (ys : List Byte) (x : Datapath) :
    NoFault (tokenLoop cfg fuel ys x) := by
  induction fuel generalizing ys x with
  | zero => trivial
  | succ fuel ih =>
    unfold tokenLoop
    split
    · trivial
    · exact ih _ _
    · exact (escStep_noFault _ _ _).bind fun _ => ih _ _

theorem decompressRLE_noFault (cfg : Config) (ys : List Byte) : NoFault (decompressRLE cfg ys) :=
  (tokenLoop_noFault _ _ _ _).map

theorem decompress_noFault {cfg : Config} (image : List Byte) (offset : Nat) (hwf : cfg.wf = true) :
    NoFault (decompress cfg image offset) :=
  (readCodewords_noFault _ _ _).bind fun _ => (decompressLZW_noFault _ hwf).bind fun _ =>
    (decompressRLE_noFault _ _).map

theorem compress_noFault {cfg : Config} (raw : List Byte) (hwf : cfg.wf = true) :
    NoFault (compress cfg raw) :=
  (compressLZW_noFault _ hwf).bind fun _ => packCodewords_noFault _ _

/-! ## The commands -/

theorem checkInput_noFault (codewords : Bool) (s : State) : NoFault (checkInput codewords s) :=
  .ite (yields_raise _ _ _) (.ite (yields_raise _ _ _) trivial)

theorem checkWidth_noFault (s : State) : NoFault (checkWidth s) :=
  .ite (yields_raise _ _ _) trivial

theorem deliver_noFault (output : List Byte) (bytesRead : Option Nat) (s : State) :
    NoFault (deliver output bytesRead s) :=
  .ite (yields_raise _ _ _) trivial

theorem execReadBits_next (s : State) : ∃ t, execReadBits s = .next t :=
  finish_next <| (checkInput_noFault _ _).bind fun _ => (checkWidth_noFault _).bind fun _ =>
    (readUnit_noFault _ _ _ _).map

theorem execWriteBits_next (s : State) : ∃ t, execWriteBits s = .next t :=
  finish_next <| (checkWidth_noFault _).bind fun _ =>
    NoFault.ite trivial <| .ite trivial (writeUnit_noFault _ _ _ _).map

theorem execReadCodewords_next (s : State) : ∃ t, execReadCodewords s = .next t :=
  finish_next <| (readCodewords_noFault _ _ _).bind fun _ => deliver_noFault _ _ _

theorem execPackCodewords_next (s : State) : ∃ t, execPackCodewords s = .next t :=
  finish_next <| (checkInput_noFault _ _).bind fun _ => (packCodewords_noFault _ _).bind fun _ =>
    deliver_noFault _ _ _

theorem execLzwDecode_next {s : State} (hwf : s.cfg.wf = true) : ∃ t, execLzwDecode s = .next t :=
  finish_next <| (checkInput_noFault _ _).bind fun _ => (decompressLZW_noFault _ hwf).bind fun _ =>
    deliver_noFault _ _ _

theorem execLzwEncode_next {s : State} (hwf : s.cfg.wf = true) : ∃ t, execLzwEncode s = .next t :=
  finish_next <| (checkInput_noFault _ _).bind fun _ => (compressLZW_noFault _ hwf).bind fun _ =>
    deliver_noFault _ _ _

theorem execRleDecode_next (s : State) : ∃ t, execRleDecode s = .next t :=
  finish_next <| (checkInput_noFault _ _).bind fun _ => (decompressRLE_noFault _ _).bind fun _ =>
    deliver_noFault _ _ _

theorem execRleEncode_next (s : State) : ∃ t, execRleEncode s = .next t :=
  finish_next <| (checkInput_noFault _ _).bind fun _ => deliver_noFault _ _ _

theorem execDecompress_next {s : State} (hwf : s.cfg.wf = true) : ∃ t, execDecompress s = .next t :=
  finish_next <| (decompress_noFault _ _ hwf).bind fun _ => deliver_noFault _ _ _

theorem execCompress_next {s : State} (hwf : s.cfg.wf = true) : ∃ t, execCompress s = .next t :=
  finish_next <| (checkInput_noFault _ _).bind fun _ => (compress_noFault _ hwf).bind fun _ =>
    deliver_noFault _ _ _

theorem rejectOpcode_next (s : State) : ∃ t, rejectOpcode s = .next t := ⟨_, rfl⟩

/-- Every command ends in a next state, in every state of a well-formed configuration. -/
theorem exec_command_next {s : State} {i : Instr} (hwf : s.cfg.wf = true) (hi : isCommand s.cfg i = true) :
    ∃ t, exec i s = .next t := by
  cases i with
  | readBits => exact execReadBits_next s
  | writeBits => exact execWriteBits_next s
  | readCodewords => exact execReadCodewords_next s
  | packCodewords => exact execPackCodewords_next s
  | lzwDecode => exact execLzwDecode_next hwf
  | lzwEncode => exact execLzwEncode_next hwf
  | rleDecode => exact execRleDecode_next s
  | rleEncode => exact execRleEncode_next s
  | decompress => exact execDecompress_next hwf
  | compress => exact execCompress_next hwf
  | softReset => exact ⟨_, rfl⟩
  | reserved0 | reservedB | reservedC | reservedD | reservedE => exact rejectOpcode_next s
  | reset | endStream | lit _ | ref _ | kwk _ | invalid _ _ | rlit _ | esc _ => cases hi

/-! ## The units of a stream -/

theorem isCommand_decodeCommand (cfg : Config) (v : Word) : isCommand cfg (decodeCommand v) = true := by
  unfold decodeCommand
  split <;> rfl

/-- A codeword other than END is one step of the expander on the internal registers. -/
theorem exec_codeword {k : CwKind} (s : State) (h : k ≠ .endStream) :
    exec k.toInstr s = advance s (codewordStep s.cfg k s.dp) := by
  cases k with
  | endStream => exact absurd rfl h
  | reset | lit _ | ref _ | kwk _ | invalid _ _ => rfl

theorem execEndStream_next {s : State} {ret : LzwReturn} {cws : List Nat} (hs : s.stage = .expand ret cws) :
    ∃ t, execEndStream s = .next t := by
  unfold execEndStream
  rw [hs]
  cases ret with
  | deliver => exact finish_next (deliver_noFault _ _ _)
  | rle n => exact ⟨_, rfl⟩

theorem exec_classify_next {s : State} {ret : LzwReturn} {cws : List Nat} (c : Nat) (hwf : s.cfg.wf = true)
    (hs : s.stage = .expand ret cws) (h : ExpanderInv s.cfg s.dp) :
    ∃ t, exec (classify s.cfg c s.dp.j).toInstr s = .next t := by
  by_cases he : classify s.cfg c s.dp.j = .endStream
  · rw [he]
    exact execEndStream_next hs
  · rw [exec_codeword s he]
    exact advance_next (codewordStep_keeps hwf h he)

theorem decode_codeword {cfg : Config} {j c : Nat} (h : c < 2 ^ 16) :
    decode cfg j (.codeword c) = .ok (classify cfg c j).toInstr :=
  if_pos h

theorem exec_token_next (t : Token) (s : State) : ∃ u, exec t.toInstr s = .next u := by
  cases t with
  | rlit b => exact ⟨_, rfl⟩
  | esc body => exact advance_next (escStep_noFault _ _ _)

theorem decodeToken_isSome {cfg : Config} {ys : List Byte} (h : ys ≠ []) :
    ∃ t rest, decodeToken cfg ys = some (t, rest) := by
  cases ys with
  | nil => exact absurd rfl h
  | cons b ys =>
    simp only [decodeToken]
    split
    · exact ⟨_, _, rfl⟩
    · split <;> exact ⟨_, _, rfl⟩

theorem decode_token {cfg : Config} {j : Nat} {ys rest : List Byte} {t : Token}
    (h : decodeToken cfg ys = some (t, rest)) : decode cfg j (.token ys) = .ok t.toInstr := by
  simp only [decode, h]

theorem endOfStream_next (s : State) : ∃ t, endOfStream s = .next t := by
  unfold endOfStream
  split
  · exact ⟨_, rfl⟩
  · exact ⟨_, rfl⟩
  · exact finish_next (deliver_noFault _ _ _)

theorem applyAccess_next {a : HostAccess} {s : State} (h : a.legal s.cfg = true) :
    ∃ t, applyAccess a s = .next t := by
  cases a with
  | powerOn => exact ⟨_, rfl⟩
  | regWrite offset size v => exact ⟨_, if_pos h⟩
  | regRead offset size => exact ⟨_, if_pos h⟩
  | inWrite address v => exact ⟨_, if_pos (of_decide_eq_true h)⟩
  | outRead address => exact ⟨_, if_pos (of_decide_eq_true h)⟩
  | imageLoad address v => exact ⟨_, if_pos (of_decide_eq_true h)⟩

/-! ## The step -/

theorem step_of_wf {s : State} (hwf : s.cfg.wf = true) : step s = stepPending s (fetch s) :=
  whenWf_of_wf hwf _

theorem stepPending_instr {s s1 : State} {u : Encoded} {i : Instr} (h : decode s1.cfg s1.dp.j u = .ok i) :
    stepPending s (.instr u s1) = exec i s1 := by
  simp only [stepPending, h]

theorem safe_idle {s : State} (hwf : s.cfg.wf = true) (hs : s.stage = .idle)
    (hlegal : ∀ a rest, s.host = a :: rest → a.legal s.cfg = true) : Safe s := by
  unfold Safe
  rw [step_of_wf hwf]
  cases hq : s.host with
  | nil => exact ⟨s, by simp [fetch, hs, hq, stepPending]⟩
  | cons a rest =>
    cases hc : commandOf a with
    | some v =>
      have hf : fetch s = .instr (.command v) { s with host := rest } := by simp [fetch, hs, hq, hc]
      rw [hf, stepPending_instr rfl]
      exact exec_command_next hwf (isCommand_decodeCommand _ v)
    | none =>
      have hf : fetch s = .access a { s with host := rest } := by simp [fetch, hs, hq, hc]
      rw [hf]
      exact applyAccess_next (hlegal a rest hq)

theorem safe_expand {s : State} {ret : LzwReturn} {cws : List Nat} (hwf : s.cfg.wf = true)
    (hs : s.stage = .expand ret cws) (h : ExpanderInv s.cfg s.dp) (hcodes : ∀ c ∈ cws, c < 2 ^ 16) :
    Safe s := by
  unfold Safe
  rw [step_of_wf hwf]
  cases hc : cws[s.dp.cur]? with
  | some c =>
    rw [fetch_codeword hs hc, stepPending_instr (decode_codeword (hcodes c (List.mem_of_getElem? hc)))]
    exact exec_classify_next c hwf hs h
  | none =>
    have hf : fetch s = .streamEnd := by simp only [fetch, hs, hc]
    rw [hf]
    exact endOfStream_next s

theorem safe_tokens {s : State} {n : Option Nat} {ys : List Byte} (hwf : s.cfg.wf = true)
    (hs : s.stage = .tokens n ys) : Safe s := by
  unfold Safe
  rw [step_of_wf hwf]
  by_cases hc : s.dp.cur < ys.length
  · obtain ⟨t, rest, ht⟩ := decodeToken_isSome (cfg := s.cfg) (mt List.drop_eq_nil_iff.1 (Nat.not_le.2 hc))
    rw [fetch_token hs hc, stepPending_instr (decode_token ht)]
    exact exec_token_next t s
  · have hf : fetch s = .streamEnd := by simp [fetch, hs, hc]
    rw [hf]
    exact endOfStream_next s

/-- Settles O60, by the stage: an idle core runs a command or a legal access, which end in a next state in every
well-formed configuration; a running codeword stream is safe by the expander's invariant; a token stream
always. -/
theorem legalStepsAreSafe : Obligations.LegalStepsAreSafe := by
  intro s hinv hlegal
  have hstage := hinv.stage
  unfold StageInv at hstage
  cases hs : s.stage with
  | idle => exact safe_idle hinv.config hs hlegal
  | expand ret cws =>
    rw [hs] at hstage
    obtain ⟨hexp, -, hcodes, -⟩ := hstage
    exact safe_expand hinv.config hs hexp hcodes
  | tokens n ys => exact safe_tokens hinv.config hs

end Sys2Proof.Machine

namespace Sys2Proof.Machine

/-! ## What an operation returns

`Ensures P r` says that a result of `r` satisfies `P`; unlike `Yields` it says nothing of where `r` stops, so it
needs no invariant. -/

/-- Whatever `r` returns satisfies `P`. -/
def Ensures {α : Type} (P : α → Prop) (r : Except Stop α) : Prop := ∀ a, r = .ok a → P a

section Ensures

variable {α β : Type} {P : α → Prop} {Q : β → Prop} {r : Except Stop α}

theorem ensures_raise (c : Cause) (u : PosUnit) (p : Nat) : Ensures P (raise c u p) := nofun

theorem ensures_ok {a : α} (h : P a) : Ensures P (.ok a) := by
  rintro _ ⟨⟩
  exact h

theorem Yields.ensures (h : Yields P r) : Ensures P r := by
  rintro a rfl
  exact h

theorem Ensures.bind {f : α → Except Stop β} (hr : Ensures P r) (hf : ∀ a, P a → Ensures Q (f a)) :
    Ensures Q (r.bind f) := by
  rcases r with e | a
  · exact nofun
  · exact hf a (hr a rfl)

/-- A bind whose first part is free. -/
theorem ensures_bind {f : α → Except Stop β} (hf : ∀ a, Ensures Q (f a)) : Ensures Q (r.bind f) :=
  Ensures.bind (P := fun _ => True) (fun _ _ => trivial) fun a _ => hf a

theorem Ensures.map {f : α → β} (hr : Ensures P r) (hf : ∀ a, P a → Q (f a)) : Ensures Q (r.map f) := by
  rcases r with e | a
  · exact nofun
  · exact ensures_ok (hf a (hr a rfl))

theorem ensures_ite {c : Prop} [Decidable c] {a b : Except Stop α} (ha : c → Ensures P a)
    (hb : ¬c → Ensures P b) : Ensures P (if c then a else b) := by
  split
  · exact ha ‹_›
  · exact hb ‹_›

end Ensures

/-! ## How a command ends -/

/-- The prologue's writes are overwritten by error completion. -/
theorem raiseError_prologue (keep : Bool) (e : Err) (s : State) :
    raiseError keep e (prologue s) = raiseError keep e s := rfl

/-- The next states of the commands: error completion, which keeps OUT_LEN and OUT_BUF after READ_BITS
(60_exceptions.md R231); or the writes of a success (45_commands.md R195 to R206). -/
inductive CommandEnd (s : State) : Instr → State → Prop where
  | failed {i : Instr} {keep : Bool} (hkeep : i = .readBits → keep = true) (e : Err) :
    CommandEnd s i (raiseError keep e s)
  | read (v p : Word) : CommandEnd s .readBits { afterSuccess s with resValue := v, resPos := p }
  | wrote (bytes : List Byte) (p : Word) (fits : bytes.length ≤ max s.outLen.toNat s.cfg.outCap) :
    CommandEnd s .writeBits { delivered bytes s with resPos := p }
  | output {i : Instr} (hi : i ≠ .readBits) (bytes : List Byte) (fits : bytes.length ≤ s.cfg.outCap) :
    CommandEnd s i (delivered bytes s)
  | report {i : Instr} (hi : i = .readCodewords ∨ i = .decompress) (bytes : List Byte) (n : Nat)
    (fits : bytes.length ≤ s.cfg.outCap) :
    CommandEnd s i { delivered bytes s with bytesRead := BitVec.ofNat 32 n }
  | softReset : CommandEnd s .softReset (resetCore s)

/-- The epilogue fits its output into OUT_BUF, and leaves the error that the state has recorded. -/
theorem deliver_ensures (output : List Byte) (n : Option Nat) (s : State) :
    Ensures (fun t => output.length ≤ s.cfg.outCap ∧
        t = { delivered output s with
          err := s.err, errPos := s.errPos
          bytesRead := match n with | none => s.bytesRead | some k => BitVec.ofNat 32 k })
      (deliver output n s) :=
  ensures_ite (fun _ => ensures_raise _ _ _) fun h => ensures_ok ⟨Nat.not_lt.1 h, rfl⟩

theorem output_ensures {i : Instr} (hi : i ≠ .readBits) (bytes : List Byte) (s : State) :
    Ensures (CommandEnd s i) (deliver bytes none (prologue s)) := by
  intro t ht
  obtain ⟨fits, rfl⟩ := deliver_ensures _ _ _ t ht
  exact .output hi bytes fits

theorem report_ensures {i : Instr} (hi : i = .readCodewords ∨ i = .decompress) (bytes : List Byte) (n : Nat)
    (s : State) : Ensures (CommandEnd s i) (deliver bytes (some n) (prologue s)) := by
  intro t ht
  obtain ⟨fits, rfl⟩ := deliver_ensures _ _ _ t ht
  exact .report hi bytes n fits

theorem commandEnd_of_finish {i : Instr} {keep : Bool} {s t : State} {r : Except Stop State}
    (hkeep : i = .readBits → keep = true) (hr : Ensures (CommandEnd s i) r)
    (h : finish keep (prologue s) r = .next t) : CommandEnd s i t := by
  rcases finish_eq_next h with hok | ⟨e, -, rfl⟩
  · exact hr t hok
  · exact raiseError_prologue keep e s ▸ .failed hkeep e

theorem commandEnd_of_rejectOpcode {i : Instr} {s t : State} (hi : i ≠ .readBits)
    (h : rejectOpcode s = .next t) : CommandEnd s i t :=
  commandEnd_of_finish (absurd · hi) (ensures_raise _ _ _) h

@[simp] theorem setStreamBit_length (order : BitOrder) (buf : List Byte) (q : Nat) (b : Bool) :
    (setStreamBit order buf q b).length = buf.length := List.length_modify ..

@[simp] theorem scatterBits_length (order : BitOrder) (buf : List Byte) (p v w n : Nat) :
    (scatterBits order buf p v w n).length = buf.length := by
  induction n with
  | zero => rfl
  | succ n ih => rw [scatterBits, setStreamBit_length, ih]

/-- A write in place keeps the length of the buffer (40_bitpack.md R101). -/
theorem writeUnit_length (cfg : Config) (v w : Nat) (x : Datapath) :
    Ensures (fun y => y.outBytes.length = x.outBytes.length) (writeUnit cfg v w x) :=
  Ensures.map (P := fun r => r.1.length = x.outBytes.length)
    (ensures_ite (fun _ => ensures_raise _ _ _) fun _ =>
      ensures_ite (fun _ => ensures_raise _ _ _) fun _ => ensures_ok (scatterBits_length ..))
    fun _ h => h

theorem ceilDiv_le {a b n : Nat} (hb : 0 < b) (h : a ≤ b * n) : ceilDiv a b ≤ n := by
  rw [ceilDiv, Nat.div_le_iff_le_mul_add_pred hb]
  omega

/-- The zero-filled buffer of a write inside OUT_CAP is no longer than OUT_CAP, or than OUT_LEN. -/
theorem zeroFilled_length_le {s : State} {e : Nat} (h : e ≤ s.cfg.outCap) :
    (zeroFilled s e).length ≤ max s.outLen.toNat s.cfg.outCap := by
  simp only [zeroFilled, List.length_append, outBytes_length, List.length_replicate]
  omega

theorem execReadBits_end {s t : State} (h : execReadBits s = .next t) : CommandEnd s .readBits t :=
  commandEnd_of_finish (fun _ => rfl)
    (ensures_bind fun _ => ensures_bind fun _ => ensures_bind fun _ => ensures_ok (.read _ _)) h

theorem execWriteBits_end {s t : State} (h : execWriteBits s = .next t) : CommandEnd s .writeBits t := by
  refine commandEnd_of_finish nofun (ensures_bind fun _ => ?_) h
  refine ensures_ite (fun _ => nofun) fun _ => ensures_ite (fun _ => nofun) fun hcap => ?_
  refine (writeUnit_length _ _ _ _).bind fun x hx => ensures_ok (.wrote x.outBytes _ ?_)
  exact hx ▸ zeroFilled_length_le (ceilDiv_le (by decide) (Nat.not_lt.1 hcap))

/-- How every command ends that answers a next state. -/
theorem exec_command_end {i : Instr} {s t : State} (hi : isCommand s.cfg i = true)
    (h : exec i s = .next t) : CommandEnd s i t := by
  cases i with
  | readBits => exact execReadBits_end h
  | writeBits => exact execWriteBits_end h
  | readCodewords =>
    exact commandEnd_of_finish nofun (ensures_bind fun _ => report_ensures (.inl rfl) _ _ _) h
  | decompress =>
    exact commandEnd_of_finish nofun (ensures_bind fun _ => report_ensures (.inr rfl) _ _ _) h
  | packCodewords | lzwDecode | lzwEncode | rleDecode | compress =>
    exact commandEnd_of_finish nofun
      (ensures_bind fun _ => ensures_bind fun _ => output_ensures (by decide) _ _) h
  | rleEncode => exact commandEnd_of_finish nofun (ensures_bind fun _ => output_ensures (by decide) _ _) h
  | softReset =>
    cases h
    exact .softReset
  | reserved0 | reservedB | reservedC | reservedD | reservedE =>
    exact commandEnd_of_rejectOpcode nofun h
  | reset | endStream | lit _ | ref _ | kwk _ | invalid _ _ | rlit _ | esc _ => cases hi

/-- Settles O49: in every way a command ends, the registers it writes are among its own. -/
theorem resultRegisterWriters : Obligations.ResultRegisterWriters := by
  intro s t i hi hreset h
  cases exec_command_end hi h with
  | failed hkeep e =>
    exact ⟨fun _ => rfl, fun _ _ => rfl, fun _ _ => rfl, fun hread => by simp [hkeep hread]⟩
  | read v p => exact ⟨absurd rfl, absurd rfl, fun _ _ => rfl, fun _ => ⟨rfl, rfl⟩⟩
  | wrote bytes p fits => exact ⟨fun _ => rfl, fun _ => absurd rfl, fun _ _ => rfl, nofun⟩
  | output hread bytes fits => exact ⟨fun _ => rfl, fun _ _ => rfl, fun _ _ => rfl, (absurd · hread)⟩
  | report hreports bytes n fits =>
    refine ⟨fun _ => rfl, fun _ _ => rfl, fun hne hne' => ?_, ?_⟩
    · exact absurd hreports (not_or.2 ⟨hne, hne'⟩)
    · rintro rfl
      exact absurd hreports (by decide)
  | softReset => exact absurd rfl hreset

/-! ## What the core never writes -/

/-- `t` has the operand registers of `s` (10_state.md R38). -/
def SameOperands (s t : State) : Prop :=
  t.argOffset = s.argOffset ∧ t.argWidth = s.argWidth ∧ t.argValue = s.argValue ∧ t.inLen = s.inLen

/-- `t` has the inputs of `s`, its configuration and what lies outside the core. -/
def SameInputs (s t : State) : Prop :=
  t.inBuf = s.inBuf ∧ t.image = s.image ∧ t.cfg = s.cfg ∧ t.host = s.host ∧
    t.hostData = s.hostData ∧ t.draws = s.draws ∧ t.epoch = s.epoch

/-- `t` has all of `s` that the core reads and does not write. -/
def KeepsInputs (s t : State) : Prop := SameOperands s t ∧ SameInputs s t

/-- STATUS, ERR, ERR_POS, the result registers, OUT_BUF, the internal registers and the stage are all that the
core writes. -/
theorem keepsInputs_written (s : State) (status err errPos resValue resPos outLen bytesRead : Word)
    (outBuf : Memory) (dp : Datapath) (stage : Stage) :
    KeepsInputs s { s with
      status := status, err := err, errPos := errPos, resValue := resValue, resPos := resPos
      outLen := outLen, bytesRead := bytesRead, outBuf := outBuf, dp := dp, stage := stage } :=
  ⟨⟨rfl, rfl, rfl, rfl⟩, rfl, rfl, rfl, rfl, rfl, rfl, rfl⟩

theorem CommandEnd.keepsInputs {s t : State} {i : Instr} (h : CommandEnd s i t) :
    (i ≠ .softReset → SameOperands s t) ∧ SameInputs s t := by
  cases h with
  | softReset => exact ⟨absurd rfl, rfl, rfl, rfl, rfl, rfl, rfl, rfl⟩
  | failed | read | wrote | output | report =>
    exact ⟨fun _ => (keepsInputs_written ..).1, (keepsInputs_written ..).2⟩

/-- One instruction of a stream leaves its internal registers or ends the command with an error. -/
theorem advance_cases {s t : State} {r : Except Stop Datapath} (h : advance s r = .next t) :
    (∃ x, r = .ok x ∧ t = { s with dp := x }) ∨ ∃ e, t = raiseError false e s := by
  rcases r with (e | f) | x
  · exact .inr ⟨e, by simpa [advance, Except.map, finish] using h.symm⟩
  · cases h
  · exact .inl ⟨x, rfl, by simpa using h.symm⟩

theorem keepsInputs_advance {s t : State} {r : Except Stop Datapath} (h : advance s r = .next t) :
    KeepsInputs s t := by
  rcases advance_cases h with ⟨x, -, rfl⟩ | ⟨e, rfl⟩
  · exact keepsInputs_written ..
  · exact keepsInputs_written ..

/-- The END of a codeword stream delivers its output, or starts the RLE stage with it
(42_lzw_expander.md R136, 45_commands.md R190). -/
theorem execEndStream_cases {s t : State} (h : execEndStream s = .next t) :
    finish false s (deliver s.dp.outBytes none s) = .next t ∨
      ∃ n, t = { s with stage := .tokens (some n) s.dp.outBytes, dp := Datapath.reset s.cfg } := by
  unfold execEndStream at h
  split at h
  · exact .inl h
  · rename_i n _ _
    exact .inr ⟨n, by simpa [endStep] using h.symm⟩
  · cases h
  · cases h

theorem keepsInputs_finish_deliver {s t : State} {output : List Byte} {n : Option Nat}
    (h : finish false s (deliver output n s) = .next t) : KeepsInputs s t := by
  rcases finish_eq_next h with hok | ⟨e, -, rfl⟩
  · obtain ⟨-, rfl⟩ := deliver_ensures _ _ _ t hok
    exact keepsInputs_written ..
  · exact keepsInputs_written ..

theorem keepsInputs_execEndStream {s t : State} (h : execEndStream s = .next t) :
    KeepsInputs s t := by
  rcases execEndStream_cases h with h | ⟨n, rfl⟩
  · exact keepsInputs_finish_deliver h
  · exact keepsInputs_written ..

/-- An instruction of a stream writes no input. -/
theorem keepsInputs_unit {i : Instr} {s t : State} (hi : isCommand s.cfg i = false) (h : exec i s = .next t) :
    KeepsInputs s t := by
  cases i with
  | endStream => exact keepsInputs_execEndStream h
  | reset => exact keepsInputs_advance (r := .ok (resetStep s.cfg s.dp)) h
  | invalid _ cause => exact keepsInputs_advance (r := invalidStep cause s.dp) h
  | rlit b => exact keepsInputs_advance (r := .ok (rlitStep b s.dp)) h
  | lit _ | ref _ | kwk _ | esc _ => exact keepsInputs_advance h
  | readBits | writeBits | readCodewords | packCodewords | lzwDecode | lzwEncode | rleDecode | rleEncode
  | decompress | compress | softReset | reserved0 | reservedB | reservedC | reservedD | reservedE => cases hi

/-- Settles O48: commands by the ways they end, codewords and tokens by what they leave of the stream. -/
theorem coreNeverWritesInputs : Obligations.CoreNeverWritesInputs := by
  intro s t i h
  cases hi : isCommand s.cfg i with
  | true => exact (exec_command_end hi h).keepsInputs
  | false =>
    obtain ⟨hoperands, hinputs⟩ := keepsInputs_unit hi h
    exact ⟨fun _ => hoperands, hinputs⟩

/-! ## The host's accesses -/

/-- An idle core takes the first waiting access. -/
theorem step_access {s : State} {a : HostAccess} {rest : List HostAccess} (hwf : s.cfg.wf = true)
    (hs : s.stage = .idle) (hq : s.host = a :: rest) (ha : commandOf a = none) :
    step s = applyAccess a { s with host := rest } := by
  have hf : fetch s = .access a { s with host := rest } := by simp [fetch, hs, hq, ha]
  rw [step_of_wf hwf, hf, stepPending]

theorem alignedWord_iff {offset size : Nat} : alignedWord offset size = true ↔ size = 4 ∧ offset % 4 = 0 := by
  simp [alignedWord]

theorem step_regWrite {s : State} {offset : Nat} {v : Word} {rest : List HostAccess} (hwf : s.cfg.wf = true)
    (hs : s.stage = .idle) (hq : s.host = .regWrite offset 4 v :: rest) (h0 : offset ≠ 0)
    (h4 : offset % 4 = 0) : step s = .next (writeReg offset v { s with host := rest }) := by
  rw [step_access hwf hs hq (if_neg fun h => h0 h.1)]
  exact if_pos (alignedWord_iff.2 ⟨rfl, h4⟩)

theorem step_regRead {s : State} {offset : Nat} {rest : List HostAccess} (hwf : s.cfg.wf = true)
    (hs : s.stage = .idle) (hq : s.host = .regRead offset 4 :: rest) (h4 : offset % 4 = 0) :
    step s = .next { s with host := rest, hostData := readReg offset s } := by
  rw [step_access hwf hs hq rfl]
  exact if_pos (alignedWord_iff.2 ⟨rfl, h4⟩)

/-- Writes outside the operand registers are ignored (10_state.md R34). -/
theorem writeReg_ignored {offset : Nat} (v : Word) (s : State) (h : offset ∉ [0x10, 0x14, 0x18, 0x1C]) :
    writeReg offset v s = s := by
  unfold writeReg
  split
  iterate 4 exact absurd (by decide) h
  rfl

/-- The twelve registers in the order of their offsets (10_state.md R34). -/
theorem readReg_register (s : State) {k : Nat} (hk : k < 12) :
    readReg (4 * k) s = [0, s.status, s.err, s.errPos, s.argOffset, s.argWidth, s.argValue, s.inLen,
      s.resValue, s.resPos, s.outLen, s.bytesRead].getD k 0 := by
  interval_cases k <;> rfl

/-- Offsets after the last register are reserved and read 0 (10_state.md R34). -/
theorem readReg_reserved (s : State) {offset : Nat} (h : 0x2C < offset) : readReg offset s = 0 := by
  unfold readReg
  split
  iterate 11 omega
  rfl

/-- Settles O54, by the offset of the access. -/
theorem hostRegisterAccess : Obligations.HostRegisterAccess := by
  intro s rest hwf hs
  refine ⟨fun v hq => ?_, fun v hq => ?_, fun v hq => ?_, fun v hq => ?_, fun offset v hq h4 hread => ?_,
    fun k hk hq => ?_, fun k hk hq => ?_⟩
  iterate 4 exact step_regWrite hwf hs hq (by decide) (by decide)
  · obtain ⟨h0, hoperand⟩ := not_or.1 (mt List.mem_cons.2 hread)
    rw [step_regWrite hwf hs hq h0 h4, writeReg_ignored v _ hoperand]
  · rw [step_regRead hwf hs hq (Nat.mul_mod_right 4 k), readReg_register s hk]
  · rw [step_regRead hwf hs hq (Nat.mul_mod_right 4 k), readReg_reserved s (by omega)]

/-! ## The invariant -/

/-- The queue, what the host has read, the counters, the result registers and the operands but ARG_WIDTH are
free. -/
theorem State.Inv.of_free {s : State} (h : s.Inv) (host : List HostAccess)
    (hostData argOffset argValue inLen resValue resPos bytesRead : Word) (draws epoch : Nat) :
    State.Inv { s with
      host := host, hostData := hostData, draws := draws, epoch := epoch
      argOffset := argOffset, argValue := argValue, inLen := inLen
      resValue := resValue, resPos := resPos, bytesRead := bytesRead } :=
  { h with }

/-- Completion makes the core idle with no error recorded (60_exceptions.md R232). -/
theorem inv_afterSuccess {s : State} (h : s.Inv) : (afterSuccess s).Inv :=
  { h with
    errReserved := Nat.two_pow_pos 18
    errClear := fun _ => ⟨rfl, rfl⟩
    stage := ⟨rfl, .tail _ (.head _)⟩ }

/-- Error completion (60_exceptions.md R231), from a running stream or a command. -/
theorem inv_raiseError {s : State} (h : s.Inv) (keep : Bool) (e : Err) : (raiseError keep e s).Inv :=
  { h with
    outBuf := by cases keep with
      | true => exact h.outBuf
      | false => exact ⟨rfl, rfl⟩
    outLen := by cases keep with
      | true => exact h.outLen
      | false => exact Nat.zero_le _
    outListed := by cases keep with
      | true => exact h.outListed
      | false => exact fun _ ha => absurd ha (Nat.not_lt_zero _)
    errReserved := errWord_reserved e
    errClear := fun herr => absurd herr (by simp [statusWord_flags])
    stage := ⟨rfl, .tail _ (.tail _ (.head _))⟩ }

theorem outCap_lt {cfg : Config} (h : cfg.wf = true) : cfg.outCap < 2 ^ 32 := by
  simp only [Config.wf, decide_eq_true_eq] at h
  omega

/-- Success completion with an output that OUT_BUF can hold (45_commands.md R195). -/
theorem inv_delivered {s : State} {output : List Byte} (h : s.Inv) (fits : output.length ≤ s.cfg.outCap) :
    (delivered output s).Inv := by
  have hlen : (BitVec.ofNat 32 output.length).toNat = output.length :=
    Nat.mod_eq_of_lt (fits.trans_lt (outCap_lt h.config))
  exact { inv_afterSuccess h with
    outBuf := ⟨ofBytes_wf output, ofBytes_within fits⟩
    outLen := hlen.trans_le fits
    outListed := fun a ha => by
      rw [delivered, hlen] at ha
      simp [delivered, read?_ofBytes, ha] }

/-- reset() (70_reset_and_hazards.md R250). -/
theorem inv_resetCore {s : State} (h : s.Inv) : (resetCore s).Inv :=
  { h with
    outLen := Nat.zero_le _
    outListed := fun _ ha => absurd ha (Nat.not_lt_zero _)
    errReserved := Nat.two_pow_pos 18
    argWidthReserved := Nat.two_pow_pos 5
    errClear := fun _ => ⟨rfl, rfl⟩
    stage := ⟨rfl, .head _⟩ }

/-- Every command keeps the invariant, in each way it ends. -/
theorem CommandEnd.inv {s t : State} {i : Instr} (h : s.Inv) (hend : CommandEnd s i t) : t.Inv := by
  cases hend with
  | failed hkeep e => exact inv_raiseError h _ e
  | read v p => exact (inv_afterSuccess h).of_free ..
  | wrote bytes p fits => exact (inv_delivered h (fits.trans (max_le h.outLen le_rfl))).of_free ..
  | output hi bytes fits => exact inv_delivered h fits
  | report hi bytes n fits => exact (inv_delivered h fits).of_free ..
  | softReset => exact inv_resetCore h

/-! ## The invariant in a running stream -/

/-- The internal registers and the stage are only in the clause of the stage. -/
theorem inv_of_stage {s : State} {x : Datapath} {g : Stage} (h : s.Inv)
    (hstage : StageInv { s with dp := x, stage := g }) : State.Inv { s with dp := x, stage := g } :=
  { h with stage := hstage }

/-- No error is recorded while a stream runs (10_state.md R36 and R37). -/
theorem running_errClear {s : State} (h : s.Inv) (hrun : s.status = statusWord true false false) :
    s.err = 0 ∧ s.errPos = 0 := by
  obtain ⟨-, -, herror⟩ := statusWord_flags true false false
  exact h.errClear (hrun ▸ herror)

theorem inv_finish_deliver {s t : State} {output : List Byte} {n : Option Nat} (h : s.Inv)
    (hrun : s.status = statusWord true false false)
    (ht : finish false s (deliver output n s) = .next t) : t.Inv := by
  rcases finish_eq_next ht with hok | ⟨e, -, rfl⟩
  · obtain ⟨fits, rfl⟩ := deliver_ensures _ _ _ t hok
    obtain ⟨herr, hpos⟩ := running_errClear h hrun
    rw [herr, hpos]
    exact (inv_delivered h fits).of_free ..
  · exact inv_raiseError h _ e

theorem inv_endOfStream {s t : State} (h : s.Inv) (ht : endOfStream s = .next t) : t.Inv := by
  have hstage := h.stage
  unfold StageInv at hstage
  unfold endOfStream at ht
  cases hs : s.stage with
  | idle =>
    rw [hs] at ht
    cases ht
    exact h
  | expand ret cws =>
    rw [hs] at ht
    cases ht
    exact inv_raiseError h _ _
  | tokens n ys =>
    rw [hs] at ht hstage
    obtain ⟨-, -, hrun⟩ := hstage
    exact inv_finish_deliver h hrun ht

/-- `define` moves no cursor. -/
theorem define_cur (cfg : Config) (k p : Nat) (b : Byte) (x : Datapath) :
    Ensures (fun y => y.cur = x.cur) (define cfg k p b x) := by
  refine ensures_ite (fun _ => ?_) fun _ => nofun
  cases phrase cfg x.dict p with
  | none => exact nofun
  | some ph => exact ensures_ok rfl

theorem emitPhrase_cur (cfg : Config) (ph : List Byte) (c : Nat) (defines : Bool) (x : Datapath) :
    Ensures (fun y => y.cur = x.cur + 1) (emitPhrase cfg ph c defines x) := by
  cases defines with
  | false => exact ensures_ok rfl
  | true =>
    simp only [emitPhrase, if_true]
    cases x.prev with
    | none => nofun
    | some p =>
      refine Ensures.bind (define_cur _ _ _ _ _) fun y hy => ?_
      rintro _ ⟨⟩
      exact congrArg (· + 1) hy

/-- A codeword takes one element of its list (10_state.md R22). -/
theorem codewordStep_cur (cfg : Config) (k : CwKind) (x : Datapath) :
    Ensures (fun y => y.cur = x.cur + 1) (codewordStep cfg k x) := by
  cases k with
  | invalid c cause => exact nofun
  | reset | endStream => exact ensures_ok rfl
  | lit b => exact emitPhrase_cur _ _ _ _ _
  | ref c =>
    simp only [codewordStep, refStep]
    split
    · exact nofun
    · exact emitPhrase_cur _ _ _ _ _
  | kwk c =>
    simp only [codewordStep, kwkStep]
    split
    · exact nofun
    · split
      · exact nofun
      · exact emitPhrase_cur _ _ _ _ _

/-- The codeword at CUR keeps the invariant. -/
theorem inv_exec_classify {s t : State} {ret : LzwReturn} {cws : List Nat} (c : Nat) (h : s.Inv)
    (hs : s.stage = .expand ret cws) (hcur : s.dp.cur < cws.length)
    (ht : exec (classify s.cfg c s.dp.j).toInstr s = .next t) : t.Inv := by
  have hstage := h.stage
  simp only [StageInv, hs] at hstage
  obtain ⟨hexp, -, hcodes, hrun⟩ := hstage
  by_cases he : classify s.cfg c s.dp.j = .endStream
  · rw [he] at ht
    rcases execEndStream_cases ht with hd | ⟨n, rfl⟩
    · exact inv_finish_deliver h hrun hd
    · exact inv_of_stage h ⟨rfl, Nat.zero_le _, hrun⟩
  · rw [exec_codeword s he] at ht
    rcases advance_cases ht with ⟨x, hx, rfl⟩ | ⟨e, rfl⟩
    · have hinv : ExpanderInv s.cfg x := (codewordStep_keeps h.config hexp he).ensures x hx
      have hnext : x.cur ≤ cws.length := (codewordStep_cur _ _ _ x hx).trans_le hcur
      refine inv_of_stage h ?_
      simp only [StageInv, hs]
      exact ⟨hinv, hnext, hcodes, hrun⟩
    · exact inv_raiseError h _ e

/-- The first token of a byte sequence takes its own bytes and leaves the rest (30_encoding.md R76). -/
theorem decodeToken_bytes {cfg : Config} {ys rest : List Byte} {t : Token}
    (h : decodeToken cfg ys = some (t, rest)) : ys = Token.bytes cfg t ++ rest := by
  cases ys with
  | nil => cases h
  | cons b ys =>
    simp only [decodeToken] at h
    split at h
    · cases h
      rfl
    · rename_i hb
      rw [not_not.1 hb]
      split at h <;> cases h <;> rfl

theorem token_bytes_pos (cfg : Config) (t : Token) : 0 < (Token.bytes cfg t).length := by
  cases t <;> exact Nat.succ_pos _

/-- An escape takes its own bytes and keeps OCUR the length of the output (44_rle.md R172). -/
theorem escStep_keeps {cfg : Config} {x : Datapath} (body : EscBody) (h : x.ocur = x.outBytes.length) :
    Ensures (fun y => y.ocur = y.outBytes.length ∧ y.cur = x.cur + (Token.bytes cfg (.esc body)).length)
      (escStep cfg body x) := by
  cases body with
  | cut n => exact nofun
  | whole n f => exact ensures_ite (fun _ => nofun) fun _ => ensures_ok ⟨by simp [h], rfl⟩

/-- A token is one step on the internal registers, by its own bytes. -/
theorem exec_token {s : State} (t : Token) (h : s.dp.ocur = s.dp.outBytes.length) :
    ∃ r, exec t.toInstr s = advance s r ∧
      Ensures (fun y => y.ocur = y.outBytes.length ∧ y.cur = s.dp.cur + (Token.bytes s.cfg t).length) r := by
  cases t with
  | rlit b => exact ⟨.ok (rlitStep b s.dp), rfl, ensures_ok ⟨by simp [rlitStep, h], rfl⟩⟩
  | esc body => exact ⟨escStep s.cfg body s.dp, rfl, escStep_keeps body h⟩

/-- The token at CUR keeps the invariant. -/
theorem inv_exec_token {s u : State} {n : Option Nat} {ys rest : List Byte} {t : Token} (h : s.Inv)
    (hs : s.stage = .tokens n ys) (hd : decodeToken s.cfg (ys.drop s.dp.cur) = some (t, rest))
    (hu : exec t.toInstr s = .next u) : u.Inv := by
  have hstage := h.stage
  simp only [StageInv, hs] at hstage
  obtain ⟨hout, -, hrun⟩ := hstage
  obtain ⟨r, hexec, hr⟩ := exec_token t hout
  rcases advance_cases (hexec ▸ hu) with ⟨x, hx, rfl⟩ | ⟨e, rfl⟩
  · obtain ⟨hout', hcur⟩ := hr x hx
    have hfits : x.cur ≤ ys.length := by
      have hlen := congrArg List.length (decodeToken_bytes hd)
      have hpos := token_bytes_pos s.cfg t
      rw [List.length_drop, List.length_append] at hlen
      omega
    refine inv_of_stage h ?_
    simp only [StageInv, hs]
    exact ⟨hout', hfits, hrun⟩
  · exact inv_raiseError h _ e

/-! ## The invariant under the host's accesses -/

theorem inv_writeReg {s : State} (h : s.Inv) (offset : Nat) (v : Word) : (writeReg offset v s).Inv := by
  unfold writeReg
  split
  · exact h.of_free ..
  · exact { h with
      argWidthReserved := Nat.lt_of_le_of_lt (BitVec.toNat_and .. ▸ Nat.and_le_right) (by decide) }
  · exact h.of_free ..
  · exact h.of_free ..
  · exact h

theorem inv_readOut {s : State} (h : s.Inv) (address : Nat) : (readOut address s).Inv := by
  unfold readOut
  split <;> exact h.of_free ..

/-- What an access with a condition answers, where it answers a next state. -/
theorem guarded_next {c : Prop} [Decidable c] {s t : State} {o : Host.Outcome State Fault Refusal}
    (h : (if c then .next s else o) = .next t) (ho : ∀ u, o ≠ .next u) : c ∧ t = s := by
  split at h
  · cases h
    exact ⟨‹_›, rfl⟩
  · exact absurd h (ho t)

/-- Every access from outside keeps the invariant. -/
theorem inv_applyAccess {s t : State} {a : HostAccess} (h : s.Inv) (ht : applyAccess a s = .next t) :
    t.Inv := by
  cases a with
  | regWrite offset size v =>
    obtain ⟨-, rfl⟩ := guarded_next ht nofun
    exact inv_writeReg h offset v
  | regRead offset size =>
    obtain ⟨-, rfl⟩ := guarded_next ht nofun
    exact h.of_free ..
  | inWrite address v =>
    obtain ⟨ha, rfl⟩ := guarded_next ht nofun
    obtain ⟨hcanonical, hin⟩ := h.inBuf
    exact { h with inBuf := ⟨write_wf _ v hcanonical, write_within v ha hin⟩ }
  | outRead address =>
    obtain ⟨-, rfl⟩ := guarded_next ht nofun
    exact inv_readOut h address
  | imageLoad address v =>
    obtain ⟨ha, rfl⟩ := guarded_next ht nofun
    obtain ⟨hcanonical, hin⟩ := h.image
    exact { h with image := ⟨write_wf _ v hcanonical, write_within v ha hin⟩ }
  | powerOn =>
    cases ht
    exact { inv_resetCore h with
      inBuf := ⟨rfl, rfl⟩
      outBuf := ⟨rfl, rfl⟩
      outListed := fun _ ha => absurd ha (Nat.not_lt_zero _) }

/-! ## Every step keeps the invariant -/

/-- Only an idle core takes an access, which leaves the queue. -/
theorem fetch_access_cases {s s1 : State} {a : HostAccess} (h : fetch s = .access a s1) :
    ∃ rest, s1 = { s with host := rest } := by
  unfold fetch at h
  split at h <;> split at h
  · cases h
  · split at h <;> cases h
    exact ⟨_, rfl⟩
  all_goals cases h

/-- The instruction of a fetch is a command that leaves the queue, or the codeword or the token at CUR. -/
theorem fetch_instr_cases {s s1 : State} {u : Encoded} (h : fetch s = .instr u s1) :
    (∃ v rest, u = .command v ∧ s1 = { s with host := rest }) ∨
    (∃ ret cws c, s.stage = .expand ret cws ∧ cws[s.dp.cur]? = some c ∧ u = .codeword c ∧ s1 = s) ∨
    ∃ n ys, s.stage = .tokens n ys ∧ u = .token (ys.drop s.dp.cur) ∧ s1 = s := by
  unfold fetch at h
  split at h
  · split at h
    · cases h
    · split at h <;> cases h
      exact .inl ⟨_, _, rfl, rfl⟩
  · split at h <;> cases h
    exact .inr (.inl ⟨_, _, _, ‹_›, ‹_›, rfl, rfl⟩)
  · split at h <;> cases h
    exact .inr (.inr ⟨_, _, ‹_›, rfl, rfl⟩)

/-- The instruction that a step fetches and decodes keeps the invariant. -/
theorem inv_exec_fetched {s s1 t : State} {u : Encoded} {i : Instr} (h : s.Inv) (hf : fetch s = .instr u s1)
    (hd : decode s1.cfg s1.dp.j u = .ok i) (ht : exec i s1 = .next t) : t.Inv := by
  rcases fetch_instr_cases hf with
    ⟨v, rest, rfl, rfl⟩ | ⟨ret, cws, c, hs, hc, rfl, rfl⟩ | ⟨n, ys, hs, rfl, rfl⟩
  · cases hd
    exact (exec_command_end (isCommand_decodeCommand _ v) ht).inv (h.of_free ..)
  · simp only [decode] at hd
    split at hd <;> cases hd
    obtain ⟨hcur, -⟩ := List.getElem?_eq_some_iff.1 hc
    exact inv_exec_classify c h hs hcur ht
  · simp only [decode] at hd
    split at hd <;> cases hd
    exact inv_exec_token h hs ‹_› ht

/-- Settles O59, by what the step is: nothing, the end of a stream, a host access, or an instruction. -/
theorem stepKeepsInvariant : Obligations.StepKeepsInvariant := by
  intro s t h hstep
  obtain ⟨-, hcase⟩ := step_cases hstep
  rcases hcase with ⟨-, rfl⟩ | ⟨-, hend⟩ | ⟨a, s1, hf, ha⟩ | ⟨u, s1, i, hf, hd, hi⟩
  · exact h
  · exact inv_endOfStream h hend
  · obtain ⟨rest, rfl⟩ := fetch_access_cases hf
    exact inv_applyAccess (h.of_free ..) ha
  · exact inv_exec_fetched h hf hd hi

/-- A power-on state has the invariant (10_state.md R43, 70_reset_and_hazards.md R250). -/
theorem inv_powerOn {cfg : Config} {image : Memory} (hwf : cfg.wf = true) (himage : image.wf = true)
    (hin : image.within cfg.imgLen = true) : (State.powerOn cfg image).Inv where
  config := hwf
  image := ⟨himage, hin⟩
  inBuf := ⟨rfl, rfl⟩
  outBuf := ⟨rfl, rfl⟩
  outLen := Nat.zero_le _
  outListed := fun _ ha => absurd ha (Nat.not_lt_zero _)
  errReserved := Nat.two_pow_pos 18
  argWidthReserved := Nat.two_pow_pos 5
  errClear := fun _ => ⟨rfl, rfl⟩
  stage := ⟨rfl, .head _⟩

/-- Settles O58: the reset state is one of the power-on states. -/
theorem resetIsWellFormed : Obligations.ResetIsWellFormed :=
  ⟨inv_powerOn (by decide) rfl rfl, fun _ _ hwf himage hin => inv_powerOn hwf himage hin⟩

end Sys2Proof.Machine

namespace Sys2Proof.Machine

/-! ## The host's accesses to the buffers -/

/-- Below OUT_LEN the host reads the byte that OUT_BUF lists (20_memory.md R53). -/
theorem readOut_listed {s : State} {a : Nat} {b : Byte} (ha : a < s.outLen.toNat)
    (hb : s.outBuf.read? a = some b) : readOut a s = { s with hostData := b.setWidth 32 } := by
  simp only [readOut, if_pos ha, hb]

/-- At or above OUT_LEN the host reads a free value, whatever OUT_BUF lists (20_memory.md R53,
93_implementation_defined.md I12). -/
theorem readOut_free {s : State} {a : Nat} (ha : s.outLen.toNat ≤ a) :
    readOut a s = { s with
      hostData := (Config.freeByte .outBuf s.draws a).setWidth 32
      draws := s.draws + 1 } := by
  simp only [readOut, if_neg (Nat.not_lt.2 ha)]

/-- Settles O55, by the access and the bound on its address: the laws of byte memory give what a write leaves, and
OUT_LEN divides the reads. -/
theorem hostBufferAccess : Obligations.HostBufferAccess := by
  intro s rest a hwf hs
  refine ⟨fun b hq ha => ?inWrite, fun b hq ha => ?imageLoad, fun b hq ha hlen hb => ?readBelow,
    fun hq ha hlen => ?readAbove, fun b hq ha => ?inFault, fun b hq ha => ?imageFault, fun hq ha => ?outFault⟩
  case inWrite =>
    exact ⟨_, (step_access hwf hs hq rfl).trans (if_pos ha), read?_write_same _ _ _,
      fun _ hk => read?_write_other _ _ hk⟩
  case imageLoad =>
    exact ⟨_, (step_access hwf hs hq rfl).trans (if_pos ha), read?_write_same _ _ _,
      fun _ hk => read?_write_other _ _ hk⟩
  case readBelow =>
    exact (step_access hwf hs hq rfl).trans ((if_pos ha).trans (congrArg _ (readOut_listed hlen hb)))
  case readAbove =>
    exact (step_access hwf hs hq rfl).trans ((if_pos ha).trans (congrArg _ (readOut_free hlen)))
  case inFault | imageFault | outFault =>
    exact (step_access hwf hs hq rfl).trans (if_neg (Nat.not_lt.2 ha))

/-! ## REGS accesses outside the binding -/

/-- A CMD write is an aligned 32-bit access, at offset 0. -/
theorem commandOf_unaligned {offset size : Nat} (v : Word) (h : ¬alignedWord offset size = true) :
    commandOf (.regWrite offset size v) = none :=
  if_neg fun ⟨h0, h4⟩ => h (alignedWord_iff.2 ⟨h4, by simp [h0]⟩)

/-- Settles O56: such an access is no CMD write, and applyAccess refuses it, write or read. -/
theorem unalignedAccessRefused : Obligations.UnalignedAccessRefused := by
  intro s rest offset size v hwf hs hbad haccess
  have hunaligned : ¬alignedWord offset size = true := fun h => by
    obtain ⟨h4, ho⟩ := alignedWord_iff.1 h
    exact hbad.elim (· h4) (· ho)
  rcases haccess with hwrite | hread
  · rw [step_access hwf hs hwrite (commandOf_unaligned v hunaligned)]
    exact if_neg hunaligned
  · rw [step_access hwf hs hread rfl]
    exact if_neg hunaligned

end Sys2Proof.Machine

namespace Sys2Proof.Machine

/-! ## The value of a codeword

A well-formed codeword is its value (30_encoding.md R71): one equation per row of the table of R72, and both
directions for all kinds at once. -/

section Classify

variable {cfg : Config} {c j : Nat}

/-- The value that stands for a codeword (30_encoding.md R72). -/
def codeValue (cfg : Config) : CwKind → Nat
  | .reset => cfg.resetCode
  | .endStream => cfg.endCode
  | .lit b => b.toNat
  | .ref c | .kwk c | .invalid c _ => c

theorem encode_toInstr (cfg : Config) (k : CwKind) : encode cfg k.toInstr = .codeword (codeValue cfg k) := by
  cases k <;> rfl

theorem controlCodes (h : cfg.wf = true) :
    cfg.resetCode ≠ cfg.endCode ∧ 256 ≤ cfg.resetCode ∧ cfg.resetCode < cfg.firstFree ∧
      256 ≤ cfg.endCode ∧ cfg.endCode < cfg.firstFree := by
  simp only [Config.wf, decide_eq_true_eq] at h
  obtain ⟨-, -, -, hne, hr, hr', he, he', -⟩ := h
  exact ⟨hne, hr, hr', he, he'⟩

theorem classify_resetCode (cfg : Config) (j : Nat) : classify cfg cfg.resetCode j = .reset := if_pos rfl

theorem classify_endCode (h : cfg.wf = true) (j : Nat) : classify cfg cfg.endCode j = .endStream := by
  rw [classify, if_neg (controlCodes h).1.symm, if_pos rfl]

theorem classify_reservedCode (h : 256 ≤ c ∧ c < cfg.firstFree) (hr : c ≠ cfg.resetCode)
    (he : c ≠ cfg.endCode) : classify cfg c j = .invalid c .reservedCode := by
  rw [classify, if_neg hr, if_neg he, if_pos h]

theorem classify_firstNotLiteral (hwf : cfg.wf = true) (hc : cfg.firstFree ≤ c) :
    classify cfg c 0 = .invalid c .firstNotLiteral := by
  have := controlCodes hwf
  rw [classify, if_neg, if_neg, if_neg, if_pos rfl, if_neg] <;> omega

theorem classify_dictionaryFull (hj : 1 ≤ j) (hfull : nextCode cfg j = cfg.dictLimit)
    (hc : cfg.isData c = true) : classify cfg c j = .invalid c .dictionaryFull := by
  obtain ⟨hr, he, hdata⟩ := of_decide_eq_true hc
  rw [classify, if_neg hr, if_neg he, if_neg, if_neg, if_pos hfull] <;> omega

theorem classify_lit (hwf : cfg.wf = true) (b : Byte) (hroom : j = 0 ∨ nextCode cfg j < cfg.dictLimit) :
    classify cfg b.toNat j = .lit b := by
  have := controlCodes hwf
  have hb := b.isLt
  have hlit : CwKind.lit (BitVec.ofNat 8 b.toNat) = .lit b := by rw [BitVec.ofNat_toNat, BitVec.setWidth_eq]
  rcases Nat.eq_zero_or_pos j with rfl | hj
  · rw [classify, if_neg, if_neg, if_neg, if_pos rfl, if_pos, hlit] <;> omega
  · rw [classify, if_neg, if_neg, if_neg, if_neg, if_neg, if_pos, hlit] <;> omega

theorem classify_ref (hwf : cfg.wf = true) (hj : 1 ≤ j) (hroom : nextCode cfg j < cfg.dictLimit)
    (hc : cfg.firstFree ≤ c ∧ c < nextCode cfg j) : classify cfg c j = .ref c := by
  have := controlCodes hwf
  rw [classify, if_neg, if_neg, if_neg, if_neg, if_neg, if_neg, if_pos hc] <;> omega

theorem firstFree_le_nextCode (cfg : Config) (j : Nat) : cfg.firstFree ≤ nextCode cfg j := Nat.le_add_right ..

theorem classify_kwk (hwf : cfg.wf = true) (hj : 1 ≤ j) (hroom : nextCode cfg j < cfg.dictLimit) :
    classify cfg (nextCode cfg j) j = .kwk (nextCode cfg j) := by
  have := controlCodes hwf
  have := firstFree_le_nextCode cfg j
  rw [classify, if_neg, if_neg, if_neg, if_neg, if_neg, if_neg, if_neg, if_pos rfl] <;> omega

theorem classify_undefinedReference (hwf : cfg.wf = true) (hj : 1 ≤ j) (hroom : nextCode cfg j < cfg.dictLimit)
    (hc : nextCode cfg j < c) : classify cfg c j = .invalid c .undefinedReference := by
  have := controlCodes hwf
  have := firstFree_le_nextCode cfg j
  rw [classify, if_neg, if_neg, if_neg, if_neg, if_neg, if_neg, if_neg, if_neg] <;> omega

/-- A kind that can stand at index `j` is the kind of its value there. -/
theorem classify_codeValue {k : CwKind} (hwf : cfg.wf = true) (h : k.toInstr.wfAt cfg j = true) :
    classify cfg (codeValue cfg k) j = k := by
  cases k with
  | reset => exact classify_resetCode cfg j
  | endStream => exact classify_endCode hwf j
  | lit b => exact classify_lit hwf b (of_decide_eq_true h)
  | ref c =>
    obtain ⟨hj, hroom, hc⟩ := of_decide_eq_true h
    exact classify_ref hwf hj hroom hc
  | kwk c =>
    obtain ⟨hj, hroom, rfl⟩ := of_decide_eq_true h
    exact classify_kwk hwf hj hroom
  | invalid c cause =>
    cases cause with
    | reservedCode =>
      obtain ⟨hlo, hhi, hr, he⟩ := of_decide_eq_true h
      exact classify_reservedCode ⟨hlo, hhi⟩ hr he
    | firstNotLiteral =>
      obtain ⟨rfl, hc, -⟩ := of_decide_eq_true h
      exact classify_firstNotLiteral hwf hc
    | dictionaryFull =>
      obtain ⟨hj, hfull, hc, -⟩ := of_decide_eq_true h
      exact classify_dictionaryFull hj hfull hc
    | undefinedReference =>
      obtain ⟨hj, hroom, hc, -⟩ := of_decide_eq_true h
      exact classify_undefinedReference hwf hj hroom hc

/-- A well-formed codeword is a Code (00_scope.md R9). -/
theorem codeValue_lt {k : CwKind} (hwf : cfg.wf = true) (h : k.toInstr.wfAt cfg j = true) :
    codeValue cfg k < 2 ^ 16 := by
  have hsized : Laws.Encoding.sized (encode cfg k.toInstr) = true := by
    cases k with
    | reset => exact Laws.Encoding.reset cfg j hwf h
    | endStream => exact Laws.Encoding.endStream cfg j hwf h
    | lit b => exact Laws.Encoding.lit b cfg j hwf h
    | ref c => exact Laws.Encoding.ref c cfg j hwf h
    | kwk c => exact Laws.Encoding.kwk c cfg j hwf h
    | invalid c cause => exact Laws.Encoding.invalid c cause cfg j hwf h
  rw [encode_toInstr] at hsized
  exact of_decide_eq_true hsized

theorem decode_encode_codeword {k : CwKind} (hwf : cfg.wf = true) (h : k.toInstr.wfAt cfg j = true) :
    decode cfg j (encode cfg k.toInstr) = .ok k.toInstr := by
  rw [encode_toInstr, decode_codeword (codeValue_lt hwf h), classify_codeValue hwf h]

/-- The kind of a value stands for that value, at every index. -/
theorem codeValue_classify (cfg : Config) (c j : Nat) : codeValue cfg (classify cfg c j) = c := by
  unfold classify
  split_ifs with hr he <;> simp only [codeValue, BitVec.toNat_ofNat] <;> omega

theorem eq_of_classify_invalid {c' : Nat} {cause : InvalidCause} (h : classify cfg c j = .invalid c' cause) :
    c' = c := by
  rw [← codeValue_classify cfg c j, h, codeValue]

/-- The cause of an INVALID value is its row of 41_codeword_stream.md R113. -/
theorem wfAt_of_classify_invalid {cause : InvalidCause} (hj : nextCode cfg j ≤ cfg.dictLimit) (hc : c < 2 ^ 16)
    (h : classify cfg c j = .invalid c cause) : (Instr.invalid c cause).wfAt cfg j = true := by
  unfold classify at h
  split_ifs at h with hr he hres h0 hbyte hfull <;> cases h <;> apply decide_eq_true
  · exact ⟨hres.1, hres.2, hr, he⟩
  · exact ⟨h0, by omega, hc⟩
  · exact ⟨by omega, hfull, decide_eq_true ⟨hr, he, by omega⟩, hc⟩
  · simp only [nextCode] at *
    omega

/-- Every 16-bit value at an index a stream can reach is a codeword that can stand there. -/
theorem classify_toInstr_wfAt (hj : nextCode cfg j ≤ cfg.dictLimit) (hc : c < 2 ^ 16) :
    (classify cfg c j).toInstr.wfAt cfg j = true := by
  by_cases hv : ∃ c' cause, classify cfg c j = .invalid c' cause
  · obtain ⟨c', cause, hk⟩ := hv
    obtain rfl := eq_of_classify_invalid hk
    exact hk ▸ wfAt_of_classify_invalid hj hc hk
  · exact classify_wfAt hj rfl fun c' cause hk => hv ⟨c', cause, hk⟩

end Classify

/-! ## CMD words -/

theorem decodeCommand_of_encode {cfg : Config} {i : Instr} {v : Word} (h : encode cfg i = .command v) :
    decodeCommand v = i := by
  cases i with
  | reset | endStream | lit _ | ref _ | kwk _ | invalid _ _ | rlit _ | esc _ => cases h
  | _ =>
    cases h
    rfl

/-- OPCODE is all that a CMD word says (30_encoding.md R79). -/
theorem opcode_toNat (v : Word) : (v &&& 0xF).toNat = (v.extractLsb' 0 4).toNat := by
  simp [Nat.and_two_pow_sub_one_eq_mod v.toNat 4]

theorem decodeCommand_opcode (v : Word) : decodeCommand (v &&& 0xF) = decodeCommand v := by
  have hopcode : (v &&& 0xF).extractLsb' 0 4 = v.extractLsb' 0 4 := by
    apply BitVec.eq_of_toNat_eq
    rw [← opcode_toNat, ← opcode_toNat, BitVec.and_assoc, BitVec.and_self]
  rw [decodeCommand, hopcode, decodeCommand]

theorem encode_decodeCommand (cfg : Config) (v : Word) :
    encode cfg (decodeCommand v) = .command (v &&& 0xF) := by
  have hword {w : Word} (hw : (v.extractLsb' 0 4).toNat = w.toNat) : Encoded.command w = .command (v &&& 0xF) :=
    congrArg _ (BitVec.eq_of_toNat_eq (hw.symm.trans (opcode_toNat v).symm))
  have hlt := (v.extractLsb' 0 4).isLt
  unfold decodeCommand
  split
  case h_16 =>
    -- the one OPCODE that no other row of the map takes
    simp only [imp_false] at *
    have h0 : (v.extractLsb' 0 4).toNat = 0 := by omega
    exact hword h0
  all_goals exact hword ‹_›

theorem decodeCommand_iff {cfg : Config} {i : Instr} {w : Word} (hi : encode cfg i = .command w) (v : Word) :
    decodeCommand v = i ↔ encode cfg i = .command (v &&& 0xF) := by
  constructor
  · rintro rfl
    exact encode_decodeCommand cfg v
  · intro h
    rw [← decodeCommand_opcode, decodeCommand_of_encode h]

/-! ## RLE tokens -/

section Tokens

variable {cfg : Config}

theorem encode_token (cfg : Config) (t : Token) : encode cfg t.toInstr = .token (Token.bytes cfg t) := by
  cases t <;> rfl

theorem decodeToken_rlit {b : Byte} (ys : List Byte) (h : b ≠ cfg.rleMarker) :
    decodeToken cfg (b :: ys) = some (.rlit b, ys) := if_pos h

theorem decodeToken_esc (cfg : Config) (body : EscBody) :
    decodeToken cfg (cfg.rleMarker :: body.bytes) = some (.esc body, []) := by
  rcases body with ⟨n, f⟩ | (_ | n) <;> simp [decodeToken, EscBody.bytes]

theorem decodeToken_whole (cfg : Config) (n f : Byte) (ys : List Byte) :
    decodeToken cfg (cfg.rleMarker :: n :: f :: ys) = some (.esc (.whole n f), ys) := by
  simp [decodeToken]

theorem decode_encode_token {t : Token} {j : Nat} (h : t.toInstr.wfAt cfg j = true) :
    decode cfg j (encode cfg t.toInstr) = .ok t.toInstr := by
  rw [encode_token]
  cases t with
  | rlit b => exact decode_token (decodeToken_rlit [] (of_decide_eq_true h))
  | esc body => exact decode_token (decodeToken_esc cfg body)

/-- A literal token is not the marker (30_encoding.md R76). -/
theorem decodeToken_wfAt {ys rest : List Byte} {t : Token} (h : decodeToken cfg ys = some (t, rest)) (j : Nat) :
    t.toInstr.wfAt cfg j = true := by
  cases ys with
  | nil => cases h
  | cons b ys =>
    simp only [decodeToken] at h
    split at h
    · cases h
      exact decide_eq_true ‹_›
    · split at h <;> cases h <;> rfl

end Tokens

/-! ## Decoding and encoding agree -/

/-- Settles O1, by the format of the instruction: a command's OPCODE, a codeword's value, a token's bytes. -/
theorem decodeEncodeRoundTrip : Obligations.DecodeEncodeRoundTrip := by
  intro cfg j i hwf hi
  cases i with
  | reset => exact decode_encode_codeword (k := .reset) hwf hi
  | endStream => exact decode_encode_codeword (k := .endStream) hwf hi
  | lit b => exact decode_encode_codeword (k := .lit b) hwf hi
  | ref c => exact decode_encode_codeword (k := .ref c) hwf hi
  | kwk c => exact decode_encode_codeword (k := .kwk c) hwf hi
  | invalid c cause => exact decode_encode_codeword (k := .invalid c cause) hwf hi
  | rlit b => exact decode_encode_token (t := .rlit b) hi
  | esc body => exact decode_encode_token (t := .esc body) hi
  | _ => exact congrArg Except.ok (decodeCommand_of_encode (cfg := cfg) rfl)

/-- Settles O2, by the format of the word; the value of a codeword's kind is the codeword. -/
theorem encodeDecodeRoundTrip : Obligations.EncodeDecodeRoundTrip := by
  intro cfg hwf
  refine ⟨encode_decodeCommand cfg, fun j c hj hc => ?codeword, fun ys hys => ?token⟩
  case codeword =>
    refine ⟨_, decode_codeword hc, classify_toInstr_wfAt hj hc, ?_⟩
    rw [encode_toInstr, codeValue_classify]
  case token =>
    obtain ⟨t, rest, h⟩ := decodeToken_isSome (cfg := cfg) hys
    exact ⟨t, rest, h, decodeToken_wfAt h 0, encode_token cfg t, (decodeToken_bytes h).symm⟩

/-- Settles O3: the decoder, evaluated on each word. -/
theorem specWordsDecode : Obligations.SpecWordsDecode := by
  unfold Obligations.SpecWordsDecode
  decide

/-! ## Every valid codeword fits its width -/

section Width

variable {cfg : Config} {j : Nat}

theorem firstFree_lt_two_pow_minWidth (h : cfg.wf = true) : cfg.firstFree < 2 ^ cfg.minWidth := by
  simp only [Config.wf, decide_eq_true_eq] at h
  obtain ⟨-, -, -, -, -, -, -, -, -, hfit, -⟩ := h
  exact hfit

theorem widthRange (h : cfg.wf = true) : cfg.minWidth ≤ cfg.maxWidth ∧ cfg.dictLimit = 2 ^ cfg.maxWidth := by
  simp only [Config.wf, decide_eq_true_eq] at h
  obtain ⟨-, hle, -, -, -, -, -, -, -, -, hlimit, -⟩ := h
  exact ⟨hle, hlimit⟩

theorem lt_two_pow_bitlen (x : Nat) : x < 2 ^ bitlen x := by
  unfold bitlen
  split
  · omega
  · exact Nat.lt_log2_self

theorem minWidth_le_widthAt (h : cfg.wf = true) (j : Nat) : cfg.minWidth ≤ widthAt cfg j :=
  le_min (widthRange h).1 (le_max_left _ _)

/-- What is below FIRST_FREE, a byte or a control code, fits every width. -/
theorem lt_two_pow_widthAt_of_lt_firstFree (h : cfg.wf = true) (j : Nat) {c : Nat} (hc : c < cfg.firstFree) :
    c < 2 ^ widthAt cfg j :=
  (hc.trans (firstFree_lt_two_pow_minWidth h)).trans_le
    (Nat.pow_le_pow_right (by decide) (minWidth_le_widthAt h j))

/-- N(J) fits W(J) as long as there is a code to define: MAX_WIDTH bits hold it, and so do its own. -/
theorem nextCode_lt_two_pow_widthAt (h : cfg.wf = true) (hroom : nextCode cfg j < cfg.dictLimit) :
    nextCode cfg j < 2 ^ widthAt cfg j := by
  rcases min_choice cfg.maxWidth (max cfg.minWidth (bitlen (nextCode cfg j))) with hw | hw
  · rw [widthAt, hw, ← (widthRange h).2]
    exact hroom
  · rw [widthAt, hw]
    exact (lt_two_pow_bitlen _).trans_le (Nat.pow_le_pow_right (by decide) (le_max_right _ _))

theorem codeValue_lt_two_pow_widthAt {k : CwKind} (hwf : cfg.wf = true) (hk : k.toInstr.wfAt cfg j = true)
    (hv : ∀ c cause, k ≠ .invalid c cause) : codeValue cfg k < 2 ^ widthAt cfg j := by
  obtain ⟨-, -, hreset, -, hend⟩ := controlCodes hwf
  cases k with
  | reset => exact lt_two_pow_widthAt_of_lt_firstFree hwf j hreset
  | endStream => exact lt_two_pow_widthAt_of_lt_firstFree hwf j hend
  | lit b => exact lt_two_pow_widthAt_of_lt_firstFree hwf j (b.isLt.trans_le (firstFree_ge hwf))
  | ref c =>
    obtain ⟨-, hroom, -, hc⟩ := of_decide_eq_true hk
    exact hc.trans (nextCode_lt_two_pow_widthAt hwf hroom)
  | kwk c =>
    obtain ⟨-, hroom, rfl⟩ := of_decide_eq_true hk
    exact nextCode_lt_two_pow_widthAt hwf hroom
  | invalid c cause => exact absurd rfl (hv c cause)

/-- At J = 0 only the control codes are valid above the bytes. -/
theorem classify_first_invalid {c : Nat} (hwf : cfg.wf = true) (hc : 255 < c) (hr : c ≠ cfg.resetCode)
    (he : c ≠ cfg.endCode) : ∃ cause, classify cfg c 0 = .invalid c cause := by
  rcases Nat.lt_or_ge c cfg.firstFree with hlt | hge
  · exact ⟨_, classify_reservedCode ⟨hc, hlt⟩ hr he⟩
  · exact ⟨_, classify_firstNotLiteral hwf hge⟩

end Width

/-- Settles O4: a valid value is a byte, a control code or a code up to N(J); the first two lie below FIRST_FREE,
which fits MIN_WIDTH. -/
theorem validCodewordFitsWidth : Obligations.ValidCodewordFitsWidth := by
  intro cfg j hwf hj
  obtain ⟨-, -, hreset, -, hend⟩ := controlCodes hwf
  have hff := firstFree_lt_two_pow_minWidth hwf
  refine ⟨fun c hc => ?fits, fun h1 hroom => ?next, ?first, hreset, hend, hff⟩
  case fits =>
    have hv : ∀ c' cause, classify cfg c j ≠ .invalid c' cause := by
      intro c' cause hk
      obtain rfl := eq_of_classify_invalid hk
      exact hc cause hk
    exact codeValue_classify cfg c j ▸ codeValue_lt_two_pow_widthAt hwf (classify_wfAt hj rfl hv) hv
  case next =>
    exact ⟨classify_kwk hwf h1 hroom, nextCode_lt_two_pow_widthAt hwf hroom,
      fun c hc => classify_undefinedReference hwf h1 hroom hc⟩
  case first =>
    rintro rfl
    exact ⟨(firstFree_ge hwf).trans hff.le, classify_lit hwf 255 (.inl rfl),
      fun c hc hr he => classify_first_invalid hwf hc hr he⟩

/-! ## The reserved OPCODEs -/

theorem rejectOpcode_eq (s : State) : rejectOpcode s = .next (afterError false 0x00004104 0 s) := rfl

/-- Settles O45: the five bodies are one, and a CMD word's OPCODE is the encoding of its command. -/
theorem reservedOpcodesRaise : Obligations.ReservedOpcodesRaise := by
  intro s i hi
  fin_cases hi <;> exact ⟨rejectOpcode_eq s, decodeCommand_iff rfl⟩

end Sys2Proof.Machine

namespace Sys2Proof.Machine

/-! ## The token loop on valid tokens -/

section TokenLoop

variable {cfg : Config}

theorem rleRange (h : cfg.wf = true) :
    cfg.rleBias = 0 ∧ 4 ≤ cfg.rleMinRun ∧ cfg.rleMinRun ≤ cfg.rleMaxRun ∧ cfg.rleMaxRun ≤ 255 := by
  simp only [Config.wf, decide_eq_true_eq] at h
  obtain ⟨-, -, -, -, -, -, -, -, -, -, -, hbias, hmin, hle, hmax, -⟩ := h
  exact ⟨hbias, hmin, hle, hmax⟩

/-- The internal registers after a list of valid tokens (44_rle.md R170 to R172). -/
def Datapath.afterTokens (cfg : Config) (ts : List Token) (x : Datapath) : Datapath :=
  { x with
    outBytes := x.outBytes ++ ts.flatMap Token.expansion
    ocur := x.ocur + (ts.flatMap Token.expansion).length
    cur := x.cur + (ts.flatMap (Token.bytes cfg)).length }

@[simp] theorem afterTokens_outBytes (cfg : Config) (ts : List Token) (x : Datapath) :
    (x.afterTokens cfg ts).outBytes = x.outBytes ++ ts.flatMap Token.expansion := rfl

@[simp] theorem afterTokens_nil (cfg : Config) (x : Datapath) : x.afterTokens cfg [] = x := by
  simp [Datapath.afterTokens]

theorem afterTokens_cons (cfg : Config) (t : Token) (ts : List Token) (x : Datapath) :
    x.afterTokens cfg (t :: ts) = (x.afterTokens cfg [t]).afterTokens cfg ts := by
  simp [Datapath.afterTokens, Nat.add_assoc]

/-- A valid escape is one step (44_rle.md R172). -/
theorem escStep_whole {n : Byte} (hwf : cfg.wf = true) (f : Byte) (x : Datapath) (hn : n ≠ 0) :
    escStep cfg (.whole n f) x = .ok (x.afterTokens cfg [.esc (.whole n f)]) := by
  have hn' : n.toNat ≠ 0 := fun h => hn (BitVec.eq_of_toNat_eq h)
  simp [escStep, (rleRange hwf).1, hn', Datapath.afterTokens, Token.expansion, Token.bytes, EscBody.bytes]

theorem tokenLoop_rlit {b : Byte} (fuel : Nat) (rest : List Byte) (x : Datapath) (h : b ≠ cfg.rleMarker) :
    tokenLoop cfg (fuel + 1) (b :: rest) x = tokenLoop cfg fuel rest (rlitStep b x) := by
  rw [tokenLoop, decodeToken_rlit rest h]

theorem tokenLoop_whole (n f : Byte) (fuel : Nat) (rest : List Byte) (x : Datapath) :
    tokenLoop cfg (fuel + 1) (cfg.rleMarker :: n :: f :: rest) x =
      (escStep cfg (.whole n f) x).bind (tokenLoop cfg fuel rest) := by
  rw [tokenLoop, decodeToken_whole]

/-- The loop executes the valid token at its front and goes on after it. -/
theorem tokenLoop_cons {t : Token} (hwf : cfg.wf = true) (ht : Token.valid cfg t = true) (fuel : Nat)
    (rest : List Byte) (x : Datapath) :
    tokenLoop cfg (fuel + 1) (Token.bytes cfg t ++ rest) x = tokenLoop cfg fuel rest (x.afterTokens cfg [t]) := by
  match t with
  | .rlit b => exact tokenLoop_rlit fuel rest x (of_decide_eq_true ht)
  | .esc (.whole n f) =>
    have hstep := escStep_whole hwf f x (of_decide_eq_true ht)
    exact (tokenLoop_whole n f fuel rest x).trans (congrArg (Except.bind · _) hstep)
  | .esc (.cut n) => cases ht

/-- The loop executes the valid tokens at its front and goes on after them. -/
theorem tokenLoop_append {ts : List Token} (hwf : cfg.wf = true) (hts : ∀ t ∈ ts, Token.valid cfg t = true)
    (fuel : Nat) (rest : List Byte) (x : Datapath) :
    tokenLoop cfg (fuel + ts.length) (ts.flatMap (Token.bytes cfg) ++ rest) x =
      tokenLoop cfg fuel rest (x.afterTokens cfg ts) := by
  induction ts generalizing x with
  | nil => simp
  | cons t ts ih =>
    obtain ⟨ht, hts⟩ := List.forall_mem_cons.1 hts
    rw [List.length_cons, ← Nat.add_assoc, List.flatMap_cons, List.append_assoc, tokenLoop_cons hwf ht, ih hts,
      ← afterTokens_cons]

theorem tokenLoop_nil (cfg : Config) (fuel : Nat) (x : Datapath) : tokenLoop cfg fuel [] x = .ok x := by
  cases fuel <;> rfl

theorem length_le_tokens (cfg : Config) (ts : List Token) :
    ts.length ≤ (ts.flatMap (Token.bytes cfg)).length := by
  induction ts with
  | nil => exact Nat.zero_le _
  | cons t ts ih =>
    have := token_bytes_pos cfg t
    simp only [List.flatMap_cons, List.length_append, List.length_cons]
    omega

/-- A sequence of valid tokens decodes to the sequence of their expansions (44_rle.md R170). -/
theorem decompressRLE_tokens {ts : List Token} (hwf : cfg.wf = true) (hts : ∀ t ∈ ts, Token.valid cfg t = true) :
    decompressRLE cfg (ts.flatMap (Token.bytes cfg)) = .ok (ts.flatMap Token.expansion) := by
  obtain ⟨fuel, hfuel⟩ := Nat.exists_eq_add_of_le' (length_le_tokens cfg ts)
  have hloop := tokenLoop_append hwf hts fuel [] (Datapath.reset cfg)
  rw [List.append_nil, ← hfuel, tokenLoop_nil] at hloop
  rw [decompressRLE, hloop]
  rfl

end TokenLoop

/-! ## The encoder on one run -/

section Run

variable {cfg : Config}

/-- The registers within a run: more of its byte only counts (44_rle.md R175). -/
theorem foldl_runByte_replicate (cfg : Config) (n : Nat) (x : Datapath) (h : x.runl ≠ 0) :
    (List.replicate n x.runb).foldl (runByte cfg) x = { x with runl := x.runl + n, cur := x.cur + n } := by
  induction n generalizing x with
  | zero => rfl
  | succ n ih =>
    have hstep : runByte cfg x x.runb = { x with runl := x.runl + 1, cur := x.cur + 1 } := by
      rw [runByte, if_neg h, if_pos rfl]
    have hrest := ih { x with runl := x.runl + 1, cur := x.cur + 1 } (Nat.succ_ne_zero _)
    rw [List.replicate_succ, List.foldl_cons, hstep, hrest]
    simp only [Nat.add_assoc, Nat.add_comm 1]

/-- The encoding of an input that is one run. -/
theorem compressRLE_replicate {n : Nat} (b : Byte) (h : 0 < n) :
    compressRLE cfg (List.replicate n b) = emitRun cfg b n := by
  obtain ⟨n, rfl⟩ : ∃ m, n = m + 1 := ⟨n - 1, by omega⟩
  have hrun := foldl_runByte_replicate cfg n { Datapath.reset cfg with runb := b, runl := 1, cur := 1 } Nat.one_ne_zero
  have hfirst : runByte cfg (Datapath.reset cfg) b = { Datapath.reset cfg with runb := b, runl := 1, cur := 1 } := rfl
  rw [compressRLE, List.replicate_succ, List.foldl_cons, hfirst, hrun]
  simp [endRun, Nat.add_comm 1]

/-- A run is its full chunks and what remains (44_rle.md R176). -/
def runChunks (cfg : Config) (b : Byte) (len : Nat) : List Byte :=
  (List.replicate (len / cfg.rleMaxRun) (emitChunk cfg b cfg.rleMaxRun)).flatten ++
    if 0 < len % cfg.rleMaxRun then emitChunk cfg b (len % cfg.rleMaxRun) else []

theorem emitRunFuel_eq_runChunks (hmax : 0 < cfg.rleMaxRun) (b : Byte) {fuel len : Nat} (h : len ≤ fuel) :
    emitRunFuel cfg b fuel len = runChunks cfg b len := by
  induction fuel generalizing len with
  | zero =>
    obtain rfl : len = 0 := by omega
    simp [emitRunFuel, runChunks]
  | succ fuel ih =>
    rcases Nat.eq_zero_or_pos len with rfl | hpos
    · simp [emitRunFuel, runChunks]
    · rw [emitRunFuel, if_neg (by omega), ih (by omega)]
      rcases Nat.lt_or_ge len cfg.rleMaxRun with hlt | hge
      · rw [min_eq_left hlt.le, Nat.sub_self]
        simp [runChunks, Nat.div_eq_of_lt hlt, Nat.mod_eq_of_lt hlt, hpos]
      · rw [min_eq_right hge, runChunks, runChunks, Nat.div_eq_sub_div hmax hge, Nat.mod_eq_sub_mod hge,
          List.replicate_succ, List.flatten_cons, List.append_assoc]

theorem emitRun_eq_runChunks (hmax : 0 < cfg.rleMaxRun) (b : Byte) (len : Nat) :
    emitRun cfg b len = runChunks cfg b len := emitRunFuel_eq_runChunks hmax b le_rfl

/-- A chunk is one escape where the encoder escapes it; otherwise its bytes are not the marker. -/
theorem runBytes_eq_emitChunk_iff {b : Byte} {c : Nat} (hc : 0 < c) :
    runBytes cfg c b = emitChunk cfg b c ↔ cfg.rleMinRun ≤ c ∨ b = cfg.rleMarker := by
  unfold emitChunk
  split
  case isTrue h => exact ⟨fun _ => h.symm, fun _ => rfl⟩
  case isFalse h =>
    obtain ⟨c, rfl⟩ : ∃ m, c = m + 1 := ⟨c - 1, by omega⟩
    refine ⟨fun heq => ?_, fun hor => absurd hor.symm h⟩
    obtain ⟨hb, -⟩ := List.cons.inj heq
    exact .inr hb.symm

end Run

/-! ## The pseudo-instruction RUNS -/

section Runs

variable {cfg : Config}

/-- The bytes of `RUNS n, b`: full runs, and what remains (30_encoding.md R84). -/
def runsBytes (cfg : Config) (n : Nat) (b : Byte) : List Byte :=
  (List.replicate (n / 255) (runBytes cfg 255 b)).flatten ++ if 0 < n % 255 then runBytes cfg (n % 255) b else []

theorem assembleRleLine_runs (cfg : Config) {n : Nat} (b : Byte) (hn : 255 < n) :
    assembleRleLine cfg (.runs n b) = some (runsBytes cfg n b) := if_pos hn

/-- The tokens of `RUNS n, b`. -/
def runsTokens (n : Nat) (b : Byte) : List Token :=
  List.replicate (n / 255) (.esc (.whole 255 b)) ++
    if 0 < n % 255 then [.esc (.whole (BitVec.ofNat 8 (n % 255)) b)] else []

theorem runBytes_eq_bytes (hwf : cfg.wf = true) (n : Nat) (b : Byte) :
    runBytes cfg n b = Token.bytes cfg (.esc (.whole (BitVec.ofNat 8 n) b)) := by
  rw [runBytes, (rleRange hwf).1]
  rfl

theorem runsBytes_eq_bytes (hwf : cfg.wf = true) (n : Nat) (b : Byte) :
    runsBytes cfg n b = (runsTokens n b).flatMap (Token.bytes cfg) := by
  rw [runsBytes, runsTokens, List.flatMap_append, List.flatMap_replicate, runBytes_eq_bytes hwf,
    runBytes_eq_bytes hwf]
  split <;> simp

theorem ofNat_mod_toNat (n : Nat) : (BitVec.ofNat 8 (n % 255)).toNat = n % 255 := by
  rw [BitVec.toNat_ofNat]
  omega

theorem runsTokens_valid (cfg : Config) (n : Nat) (b : Byte) : ∀ t ∈ runsTokens n b, Token.valid cfg t = true := by
  intro t ht
  rcases List.mem_append.1 ht with hfull | hlast
  · rw [List.eq_of_mem_replicate hfull]
    rfl
  · split at hlast
    case isTrue hpos =>
      rw [List.mem_singleton.1 hlast]
      refine decide_eq_true fun h0 => hpos.ne ?_
      rw [← ofNat_mod_toNat, h0]
      rfl
    case isFalse => cases hlast

theorem runsTokens_expansion (n : Nat) (b : Byte) :
    (runsTokens n b).flatMap Token.expansion = List.replicate n b := by
  have hlast : (if 0 < n % 255 then [Token.esc (.whole (BitVec.ofNat 8 (n % 255)) b)] else []).flatMap
      Token.expansion = List.replicate (n % 255) b := by
    split
    · rw [List.flatMap_singleton, Token.expansion, ofNat_mod_toNat]
    · rw [show n % 255 = 0 by omega]
      rfl
  have hfull : Token.expansion (.esc (.whole 255 b)) = List.replicate 255 b := rfl
  rw [runsTokens, List.flatMap_append, hlast, List.flatMap_replicate, hfull, List.flatten_replicate_replicate,
    ← List.replicate_add, Nat.div_add_mod']

/-- The encoder writes the same full chunks, and the same remainder exactly where it escapes it. -/
theorem runsBytes_eq_compressRLE_iff {n : Nat} {b : Byte} (hwf : cfg.wf = true) (hmax : cfg.rleMaxRun = 255)
    (hn : 0 < n) :
    runsBytes cfg n b = compressRLE cfg (List.replicate n b) ↔
      n % 255 = 0 ∨ cfg.rleMinRun ≤ n % 255 ∨ b = cfg.rleMarker := by
  obtain ⟨-, -, hmin, -⟩ := rleRange hwf
  have hfull : runBytes cfg 255 b = emitChunk cfg b 255 :=
    (runBytes_eq_emitChunk_iff (by decide)).2 (.inl (hmax ▸ hmin))
  rw [compressRLE_replicate b hn, emitRun_eq_runChunks (by omega), runsBytes, runChunks, hmax, hfull,
    List.append_cancel_left_eq]
  rcases Nat.eq_zero_or_pos (n % 255) with h0 | hpos
  · simp [h0]
  · rw [if_pos hpos, if_pos hpos, runBytes_eq_emitChunk_iff hpos, or_iff_right hpos.ne']

end Runs

/-- Settles O6: the line is a list of valid tokens, so it decodes to their expansions, and it is compared with the
encoder's output chunk by chunk. -/
theorem runsExpansionDecodes : Obligations.RunsExpansionDecodes := by
  intro cfg n b hwf hn
  refine ⟨_, assembleRleLine_runs cfg b hn, ?decodes, fun hmax => ?canonical⟩
  case decodes =>
    rw [runsBytes_eq_bytes hwf, decompressRLE_tokens hwf (runsTokens_valid cfg n b), runsTokens_expansion]
  case canonical => exact runsBytes_eq_compressRLE_iff hwf hmax (by omega)

end Sys2Proof.Machine

namespace Sys2Proof.Machine

/-! ## Stream bits

The buffer seen as its stream bits (20_memory.md R56): what a write leaves at each stream bit, and which
stream bit each bit of a read value is. -/

section StreamBits

variable {order : BitOrder} {buf : List Byte} {p v w n : Nat}

theorem bitIndex_lt (order : BitOrder) (q : Nat) : bitIndex order q < 8 := by
  cases order <;> simp only [bitIndex] <;> omega

/-- A stream bit is fixed by its byte and its bit of that byte. -/
theorem bitIndex_inj {q r : Nat} (hbyte : q / 8 = r / 8) : bitIndex order q = bitIndex order r ↔ q = r := by
  cases order <;> simp only [bitIndex] <;> omega

theorem valueIndex_lt (order : BitOrder) (h : n < w) : valueIndex order w n < w := by
  cases order with
  | lsbFirst => exact h
  | msbFirst => simp only [valueIndex]; omega

/-- Stream bit `i` holds value bit `k` exactly when stream bit `k` would hold value bit `i`. -/
theorem valueIndex_eq_iff {i k : Nat} (hi : i < w) :
    valueIndex order w i = k ↔ k < w ∧ valueIndex order w k = i := by
  cases order <;> simp only [valueIndex] <;> omega

theorem getLsbD_replaceBit (x : Byte) (b : Bool) {i : Nat} (hi : i < 8) (j : Nat) :
    ((x &&& ~~~(1#8 <<< i)) ||| (if b then 1#8 <<< i else 0#8)).getLsbD j =
      if i = j then b else x.getLsbD j := by
  have hbit : ((if b then 1#8 <<< i else 0#8) : Byte).getLsbD j = (b && decide (i = j)) := by
    cases b
    case false => simp
    case true => simp [← BitVec.twoPow_eq, BitVec.getLsbD_twoPow, hi]
  rw [BitVec.getLsbD_or, hbit, BitVec.getLsbD_and, BitVec.getLsbD_not, ← BitVec.twoPow_eq,
    BitVec.getLsbD_twoPow]
  split
  case isTrue hij => simp [hij]
  case isFalse hij => simpa [hij] using BitVec.lt_of_getLsbD

/-- 40_bitpack.md R101: setStreamBit changes its own stream bit and no other. -/
theorem streamBit_setStreamBit {q : Nat} (b : Bool) (hq : q < 8 * buf.length) (r : Nat) :
    streamBit order (setStreamBit order buf q b) r = if q = r then b else streamBit order buf r := by
  simp only [streamBit, setStreamBit, List.getD_eq_getElem?_getD, List.getElem?_modify]
  by_cases hbyte : q / 8 = r / 8
  case neg => simp [hbyte, show q ≠ r by rintro rfl; exact hbyte rfl]
  case pos =>
    have hr : r / 8 < buf.length := by omega
    simp only [hbyte, if_true, List.getElem?_eq_getElem hr, Option.map_eq_map, Option.map_some,
      Option.getD_some, getLsbD_replaceBit _ _ (bitIndex_lt order q), bitIndex_inj hbyte]

/-- The first `n` bits written stand from stream bit `p` on, and every other stream bit is as before. -/
theorem streamBit_scatterBits (order : BitOrder) (v w : Nat) (h : p + n ≤ 8 * buf.length) (q : Nat) :
    streamBit order (scatterBits order buf p v w n) q =
      if p ≤ q ∧ q < p + n then v.testBit (valueIndex order w (q - p)) else streamBit order buf q := by
  induction n with
  | zero => rw [scatterBits, if_neg (by omega)]
  | succ n ih =>
    rw [scatterBits, streamBit_setStreamBit _ (by rw [scatterBits_length]; omega), ih (by omega)]
    by_cases hq : p + n = q
    · rw [if_pos hq, if_pos (by omega), show q - p = n by omega]
    · rw [if_neg hq]
      exact if_congr (by omega) rfl rfl

theorem testBit_shiftLeft_bit (b : Bool) (i k : Nat) : (b.toNat <<< i).testBit k = (decide (i = k) && b) := by
  rw [Nat.testBit_shiftLeft, Nat.testBit_bool_toNat, ← Bool.and_assoc, ← Bool.decide_and]
  exact congrArg (· && b) (decide_eq_decide.2 (by omega))

/-- Bit `k` of the first `n` bits gathered is its stream bit, where that one is among the `n`. -/
theorem testBit_gatherBits (order : BitOrder) (buf : List Byte) (p : Nat) (hn : n ≤ w) (k : Nat) :
    (gatherBits order buf p w n).testBit k =
      (decide (k < w ∧ valueIndex order w k < n) && streamBit order buf (p + valueIndex order w k)) := by
  induction n with
  | zero => simp [gatherBits]
  | succ n ih =>
    have hbit : ((streamBit order buf (p + n)).toNat <<< valueIndex order w n).testBit k =
        (decide (k < w ∧ valueIndex order w k = n) && streamBit order buf (p + valueIndex order w k)) := by
      simp only [testBit_shiftLeft_bit, valueIndex_eq_iff hn]
      by_cases hk : k < w ∧ valueIndex order w k = n
      · simp only [hk.2]
      · simp [hk]
    rw [gatherBits, Nat.testBit_or, ih (by omega), hbit, ← Bool.and_or_distrib_right, ← Bool.decide_or]
    congr 2
    simp only [Nat.lt_succ_iff_lt_or_eq, and_or_left]

/-- A read gathers the one `w`-bit value whose bits are the stream bits from `p`. -/
theorem gatherBits_eq (hv : v < 2 ^ w)
    (h : ∀ i < w, streamBit order buf (p + i) = v.testBit (valueIndex order w i)) :
    gatherBits order buf p w w = v := by
  refine Nat.eq_of_testBit_eq fun k => ?_
  rw [testBit_gatherBits order buf p le_rfl]
  by_cases hk : k < w
  · have hi := valueIndex_lt order hk
    rw [h _ hi, (valueIndex_eq_iff hi).2 ⟨hk, rfl⟩]
    simp [hk, hi]
  · have hout : v.testBit k = false :=
      Nat.testBit_lt_two_pow (hv.trans_le (Nat.pow_le_pow_right Nat.two_pos (Nat.le_of_not_lt hk)))
    simp [hk, hout]

end StreamBits

/-! ## What writeBits writes readBits reads -/

section RoundTrip

variable {cfg : Config} {buf : List Byte} {p v w : Nat}

theorem writeBits_ok (hv : v < 2 ^ w) (h : p + w ≤ 8 * buf.length) :
    writeBits cfg buf p v w = .ok (scatterBits cfg.bitOrder buf p v w w, p + w) := by
  rw [writeBits, if_neg (Nat.not_le.2 hv), if_neg (Nat.not_lt.2 h)]

theorem readBits_of_streamBits (hv : v < 2 ^ w) (h : p + w ≤ 8 * buf.length)
    (hbits : ∀ i < w, streamBit cfg.bitOrder buf (p + i) = v.testBit (valueIndex cfg.bitOrder w i)) :
    readBits cfg buf p w = .ok (v, p + w) := by
  rw [readBits, if_neg (Nat.not_lt.2 h), gatherBits_eq hv hbits]

/-- A written value stays readable in every buffer that keeps the stream bits below its end. -/
theorem readBits_of_scatterBits {buf' : List Byte} (hv : v < 2 ^ w) (h : p + w ≤ 8 * buf.length)
    (hlen : buf'.length = buf.length)
    (hkept : ∀ q < p + w, streamBit cfg.bitOrder buf' q =
      streamBit cfg.bitOrder (scatterBits cfg.bitOrder buf p v w w) q) :
    readBits cfg buf' p w = .ok (v, p + w) := by
  refine readBits_of_streamBits hv (hlen ▸ h) fun i hi => ?_
  rw [hkept _ (by omega), streamBit_scatterBits _ _ _ h, if_pos (by omega), Nat.add_sub_cancel_left]

end RoundTrip

/-- The values of a sequence, each at the previous one's new position, read back; the stream bits before the
first are kept, so the later values do not disturb an earlier one. -/
theorem writeSeq_reads_back (cfg : Config) (vs : List (Nat × Nat)) (buf : List Byte) (p : Nat)
    (hvs : ∀ x ∈ vs, x.1 < 2 ^ x.2) (h : p + (vs.map (·.2)).sum ≤ 8 * buf.length) :
    ∃ buf', writeSeq cfg vs buf p = .ok (buf', p + (vs.map (·.2)).sum) ∧
      buf'.length = buf.length ∧
      (∀ q < p, streamBit cfg.bitOrder buf' q = streamBit cfg.bitOrder buf q) ∧
      readSeq cfg buf' (vs.map (·.2)) p = .ok (vs.map (·.1), p + (vs.map (·.2)).sum) := by
  induction vs generalizing buf p with
  | nil => exact ⟨buf, rfl, rfl, fun _ _ => rfl, rfl⟩
  | cons x vs ih =>
    obtain ⟨v, w⟩ := x
    obtain ⟨hv, hvs⟩ := List.forall_mem_cons.1 hvs
    simp only [List.map_cons, List.sum_cons, ← Nat.add_assoc] at h ⊢
    have hfit : p + w ≤ 8 * buf.length := by omega
    obtain ⟨buf', hwrite, hlen, hkept, hread⟩ :=
      ih (scatterBits cfg.bitOrder buf p v w w) (p + w) hvs (by rwa [scatterBits_length])
    rw [scatterBits_length] at hlen
    refine ⟨buf', ?_, hlen, fun q hq => ?_, ?_⟩
    · rw [writeSeq, writeBits_ok hv hfit]
      exact hwrite
    · rw [hkept q (by omega), streamBit_scatterBits _ _ _ hfit, if_neg (by omega)]
    · rw [readSeq, readBits_of_scatterBits hv hfit hlen hkept, Except.bind, hread, Except.map]

/-- Settles O7: a write puts each bit of the value at the stream bit where the read takes it from, and the
writes after it keep the stream bits before them. -/
theorem writeThenReadBits : Obligations.WriteThenReadBits := by
  refine ⟨fun cfg buf p v w hv h => ?_, fun cfg vs buf p hvs h => ?_⟩
  · exact ⟨_, writeBits_ok hv h, readBits_of_scatterBits hv h (scatterBits_length ..) fun _ _ => rfl⟩
  · obtain ⟨buf', hwrite, -, -, hread⟩ := writeSeq_reads_back cfg vs buf p hvs h
    exact ⟨buf', hwrite, hread⟩

end Sys2Proof.Machine

namespace Sys2Proof.Machine

/-! ## The width schedule -/

section Schedule

variable {cfg : Config} {j w : Nat}

theorem bitlen_le_iff (x w : Nat) : bitlen x ≤ w ↔ x < 2 ^ w := by
  unfold bitlen
  split
  case isTrue h0 => simp [h0]
  case isFalse hpos => exact Nat.log2_lt hpos

/-- From MIN_WIDTH on, `w` bits are enough where they hold N(J), or where the schedule ends
(41_codeword_stream.md R111). -/
theorem widthAt_le_iff (hmin : cfg.minWidth ≤ w) :
    widthAt cfg j ≤ w ↔ cfg.maxWidth ≤ w ∨ nextCode cfg j < 2 ^ w := by
  rw [widthAt, min_le_iff, max_le_iff, bitlen_le_iff, and_iff_right hmin]

/-- The reference schedule by the ends of its rows (41_codeword_stream.md R112). -/
theorem referenceWidth (j : Nat) :
    9 ≤ widthAt Config.reference j ∧ widthAt Config.reference j ≤ 12 ∧
      (widthAt Config.reference j ≤ 9 ↔ nextCode Config.reference j < 0x200) ∧
      (widthAt Config.reference j ≤ 10 ↔ nextCode Config.reference j < 0x400) ∧
      (widthAt Config.reference j ≤ 11 ↔ nextCode Config.reference j < 0x800) := by
  have hrow {w : Nat} (hmin : 9 ≤ w) (hmax : w < 12) :
      widthAt Config.reference j ≤ w ↔ nextCode Config.reference j < 2 ^ w :=
    (widthAt_le_iff hmin).trans (or_iff_right (Nat.not_le.2 hmax))
  exact ⟨minWidth_le_widthAt (cfg := Config.reference) (by decide) j, min_le_left _ _, hrow (by decide) (by decide),
    hrow (by decide) (by decide), hrow (by decide) (by decide)⟩

/-- `w` bits hold N(J) up to J = 2^w - FIRST_FREE, and there N(J) has grown to 2^w. -/
theorem widthAt_first (hwf : cfg.wf = true) (hmin : cfg.minWidth ≤ w) (hmax : w < cfg.maxWidth) :
    widthAt cfg (2 ^ w - cfg.firstFree + 1) = w + 1 ∧
      ∀ j, j < 2 ^ w - cfg.firstFree + 1 → widthAt cfg j ≤ w := by
  have hfit : cfg.firstFree < 2 ^ w :=
    (firstFree_lt_two_pow_minWidth hwf).trans_le (Nat.pow_le_pow_right Nat.two_pos hmin)
  have hnext : nextCode cfg (2 ^ w - cfg.firstFree + 1) = 2 ^ w := by
    unfold nextCode
    omega
  refine ⟨Nat.le_antisymm ?enough ?needed, fun j hj => ?before⟩
  case enough =>
    rw [widthAt_le_iff (by omega), hnext]
    exact .inr (Nat.pow_lt_pow_succ Nat.one_lt_two)
  case needed =>
    rw [Nat.succ_le_iff, ← Nat.not_le, widthAt_le_iff hmin, hnext]
    omega
  case before =>
    rw [widthAt_le_iff hmin, nextCode]
    omega

/-- Once the dictionary is full every data codeword is INVALID (41_codeword_stream.md R113). -/
theorem classify_full_invalid {c : Nat} (hj : 1 ≤ j) (hfull : nextCode cfg j = cfg.dictLimit)
    (hr : c ≠ cfg.resetCode) (he : c ≠ cfg.endCode) : ∃ cause, classify cfg c j = .invalid c cause := by
  by_cases hres : 256 ≤ c ∧ c < cfg.firstFree
  · exact ⟨_, classify_reservedCode hres hr he⟩
  · exact ⟨_, classify_dictionaryFull hj hfull (decide_eq_true ⟨hr, he, by omega⟩)⟩

end Schedule

/-- Settles O5: a width is enough exactly while it holds N(J), so each row is the range of its N(J); N(J) reaches
DICT_LIMIT one index after the last that can define a code. -/
theorem widthSchedule : Obligations.WidthSchedule := by
  have hnext (j : Nat) : nextCode Config.reference j = 258 + (j - 1) := rfl
  refine ⟨fun j _ => ?row9, fun j _ _ => ?row10, fun j _ _ => ?row11, fun j _ _ => ?row12, fun cfg hwf => ?general⟩
  case row9 | row10 | row11 | row12 =>
    have := referenceWidth j
    have := hnext j
    omega
  case general =>
    have hroom := firstFree_lt_dictLimit hwf
    have hlast : nextCode cfg (cfg.dictLimit - cfg.firstFree) = cfg.dictLimit - 1 := by
      unfold nextCode
      omega
    have hfull : nextCode cfg (cfg.dictLimit - cfg.firstFree + 1) = cfg.dictLimit := by
      unfold nextCode
      omega
    exact ⟨fun w hmin hmax => widthAt_first hwf hmin hmax, hlast,
      ⟨_, classify_kwk hwf (by omega) (by omega)⟩, hfull,
      fun c hr he => classify_full_invalid (by omega) hfull hr he,
      classify_resetCode cfg _, classify_endCode hwf _⟩

end Sys2Proof.Machine

namespace Sys2Proof.Machine

/-! ## Codeword lists

A list that a stream may have begun with, and the well-formed lists, which are such a list and END. -/

section Codes

variable {cfg : Config} {c j : Nat} {cws done : List Nat}

/-- A stream goes on after `c` at index `j`: it is valid there and not END. -/
def goesOn (cfg : Config) (c j : Nat) : Prop :=
  (∀ cause, classify cfg c j ≠ .invalid c cause) ∧ classify cfg c j ≠ .endStream

theorem openCodes_cons :
    openCodes cfg j (c :: cws) = true ↔ goesOn cfg c j ∧ openCodes cfg (nextIndex cfg c j) cws = true := by
  cases hk : classify cfg c j with
  | invalid c' cause =>
    obtain rfl := eq_of_classify_invalid hk
    simp [openCodes, goesOn, hk]
  | _ => simp [openCodes, goesOn, hk]

theorem eq_endCode_of_classify (h : classify cfg c j = .endStream) : c = cfg.endCode := by
  rw [← codeValue_classify cfg c j, h, codeValue]

theorem wellFormedCodes_cons :
    wellFormedCodes cfg j (c :: cws) = true ↔
      classify cfg c j = .endStream ∧ cws = [] ∨
        goesOn cfg c j ∧ wellFormedCodes cfg (nextIndex cfg c j) cws = true := by
  cases hk : classify cfg c j with
  | invalid c' cause =>
    obtain rfl := eq_of_classify_invalid hk
    simp [wellFormedCodes, goesOn, hk]
  | _ => simp [wellFormedCodes, goesOn, hk]

/-- A well-formed list is END after a list that a stream may have begun with (41_codeword_stream.md R119). -/
theorem exists_open_of_wellFormedCodes (h : wellFormedCodes cfg j cws = true) :
    ∃ done, cws = done ++ [cfg.endCode] ∧ openCodes cfg j done = true := by
  induction cws generalizing j with
  | nil => cases h
  | cons c cws ih =>
    rcases wellFormedCodes_cons.1 h with ⟨hend, rfl⟩ | ⟨hgo, hrest⟩
    · exact ⟨[], by rw [eq_endCode_of_classify hend, List.nil_append], rfl⟩
    · obtain ⟨done, rfl, hopen⟩ := ih hrest
      exact ⟨c :: done, rfl, openCodes_cons.2 ⟨hgo, hopen⟩⟩

/-- N(J) stays within DICT_LIMIT: where it is reached only RESET goes on. -/
theorem goesOn.nextCode_le (h : goesOn cfg c j) (hwf : cfg.wf = true) (hj : nextCode cfg j ≤ cfg.dictLimit) :
    nextCode cfg (nextIndex cfg c j) ≤ cfg.dictLimit := by
  obtain ⟨hvalid, hend⟩ := h
  have hstart : nextCode cfg 0 ≤ cfg.dictLimit := (firstFree_lt_dictLimit hwf).le
  unfold nextIndex
  split
  case isTrue => exact hstart
  case isFalse hr =>
    rcases Nat.eq_zero_or_pos j with rfl | hpos
    · exact hstart
    · rw [nextCode_succ hpos]
      refine lt_of_le_of_ne hj fun hfull => ?_
      obtain ⟨cause, hk⟩ := classify_full_invalid hpos hfull hr fun he => hend (he ▸ classify_endCode hwf j)
      exact hvalid cause hk

/-- Every element of a well-formed list fits its width (30_encoding.md R74). -/
theorem fitsWidths_open_end (hwf : cfg.wf = true) (hj : nextCode cfg j ≤ cfg.dictLimit)
    (h : openCodes cfg j done = true) : fitsWidths cfg j (done ++ [cfg.endCode]) = true := by
  induction done generalizing j with
  | nil =>
    obtain ⟨-, -, -, -, hend⟩ := controlCodes hwf
    simpa [fitsWidths] using lt_two_pow_widthAt_of_lt_firstFree hwf j hend
  | cons c done ih =>
    obtain ⟨hgo, hopen⟩ := openCodes_cons.1 h
    obtain ⟨hfits, -⟩ := validCodewordFitsWidth cfg j hwf hj
    simpa [fitsWidths, ih (hgo.nextCode_le hwf hj) hopen] using hfits c hgo.1

/-! ### The length of a list in bits -/

theorem indexAfter_cons (cfg : Config) (j c : Nat) (cws : List Nat) :
    indexAfter cfg j (c :: cws) = indexAfter cfg (nextIndex cfg c j) cws := rfl

theorem packedBits_append (cfg : Config) (j : Nat) (cws ds : List Nat) :
    packedBits cfg j (cws ++ ds) = packedBits cfg j cws + packedBits cfg (indexAfter cfg j cws) ds := by
  induction cws generalizing j with
  | nil => simp [packedBits, indexAfter]
  | cons c cws ih => rw [List.cons_append, packedBits, packedBits, ih, indexAfter_cons, Nat.add_assoc]

/-- Every codeword takes at least one bit. -/
theorem length_le_packedBits (hwf : cfg.wf = true) (j : Nat) (cws : List Nat) :
    cws.length ≤ packedBits cfg j cws := by
  induction cws generalizing j with
  | nil => exact le_rfl
  | cons c cws ih =>
    have hpos : 1 ≤ widthAt cfg j := (of_decide_eq_true hwf).1.trans (minWidth_le_widthAt hwf j)
    have hrest := ih (nextIndex cfg c j)
    rw [List.length_cons, packedBits]
    omega

/-- The recursion of `packedBits` as the sum of W(J) over the list (41_codeword_stream.md R120). -/
theorem packedBits_eq_sum (cfg : Config) (j : Nat) (cws : List Nat) :
    packedBits cfg j cws =
      ((List.range cws.length).map fun i => widthAt cfg (indexAfter cfg j (cws.take i))).sum := by
  induction cws generalizing j with
  | nil => rfl
  | cons c cws ih =>
    rw [packedBits, ih, List.length_cons, List.range_succ_eq_map, List.map_cons, List.sum_cons, List.map_map]
    rfl

/-- The first 255 indices have the first width, and without RESET no index comes back. -/
theorem packedBits_reference (hlen : j + cws.length ≤ 255) (hr : Config.reference.resetCode ∉ cws) :
    packedBits Config.reference j cws = 9 * cws.length := by
  induction cws generalizing j with
  | nil => rfl
  | cons c cws ih =>
    obtain ⟨hc, hcws⟩ := not_or.1 (mt List.mem_cons.2 hr)
    rw [List.length_cons] at hlen
    have hindex : nextIndex Config.reference c j = j + 1 := if_neg (Ne.symm hc)
    obtain ⟨hwidth, -⟩ := widthSchedule.1 j (by omega)
    rw [packedBits, hindex, ih (by omega) hcws, hwidth, List.length_cons]
    omega

end Codes

/-! ## Streams that hold a list -/

section Streams

variable {cfg : Config} {buf : List Byte} {c j p w : Nat} {cws : List Nat}

/-- A stream holds a codeword and then the others: the codeword fits its width and the buffer, and its bits are
the stream bits. -/
theorem holdsCodes_cons :
    holdsCodes cfg buf p j (c :: cws) = true ↔
      (p + widthAt cfg j ≤ 8 * buf.length ∧ c < 2 ^ widthAt cfg j ∧
        ∀ i < widthAt cfg j,
          streamBit cfg.bitOrder buf (p + i) = c.testBit (valueIndex cfg.bitOrder (widthAt cfg j) i)) ∧
      holdsCodes cfg buf (p + widthAt cfg j) (nextIndex cfg c j) cws = true := by
  simp [holdsCodes, and_assoc]

/-- The reader reads a codeword that the stream holds. -/
theorem readBits_of_holdsCodes (h : holdsCodes cfg buf p j (c :: cws) = true) :
    readBits cfg buf p (widthAt cfg j) = .ok (c, p + widthAt cfg j) := by
  obtain ⟨⟨hfit, hc, hbits⟩, -⟩ := holdsCodes_cons.1 h
  exact readBits_of_streamBits hc hfit hbits

theorem holdsCodes_append (cfg : Config) (buf : List Byte) (p j : Nat) (cws ds : List Nat) :
    holdsCodes cfg buf p j (cws ++ ds) = true ↔
      holdsCodes cfg buf p j cws = true ∧
        holdsCodes cfg buf (p + packedBits cfg j cws) (indexAfter cfg j cws) ds = true := by
  induction cws generalizing p j with
  | nil => simp [holdsCodes, packedBits, indexAfter]
  | cons c cws ih =>
    rw [List.cons_append, holdsCodes_cons, holdsCodes_cons, ih, packedBits, indexAfter_cons,
      Nat.add_assoc]
    exact and_assoc.symm

theorem packedBits_le_of_holdsCodes (hp : p ≤ 8 * buf.length) (h : holdsCodes cfg buf p j cws = true) :
    p + packedBits cfg j cws ≤ 8 * buf.length := by
  induction cws generalizing p j with
  | nil => exact hp
  | cons c cws ih =>
    obtain ⟨⟨hfit, -⟩, hrest⟩ := holdsCodes_cons.1 h
    rw [packedBits, ← Nat.add_assoc]
    exact ih hfit hrest

end Streams

/-! ## The reading loop

One equation per way a turn of the loop goes (41_codeword_stream.md R115), and from them what
`readCodewords` does after the codewords that a stream may begin with. -/

section Reading

variable {cfg : Config} {buf : List Byte} {c : Nat} {x : Datapath}

/-- The registers after one more codeword. -/
def readCode (cfg : Config) (c : Nat) (x : Datapath) : Datapath :=
  { x with cur := x.cur + widthAt cfg x.j, ocur := x.ocur + 1, outCodes := x.outCodes ++ [c] }

theorem readLoop_past (fuel : Nat) (h : 8 * buf.length < x.cur + widthAt cfg x.j) :
    readLoop cfg buf (fuel + 1) x = raise .bitReadPastEnd .bit x.cur := by
  rw [readLoop, readUnit_past h]
  rfl

section Turn

variable (fuel : Nat) (hread : readBits cfg buf x.cur (widthAt cfg x.j) = .ok (c, x.cur + widthAt cfg x.j))

include hread

theorem readLoop_invalid {c' : Nat} {cause : InvalidCause} (hk : classify cfg c x.j = .invalid c' cause) :
    readLoop cfg buf (fuel + 1) x = raise (invalidCause cause) .bit x.cur := by
  simp [readLoop, readUnit, hread, hk, Except.map, bind, Except.bind]

theorem readLoop_endStream (hk : classify cfg c x.j = .endStream) :
    readLoop cfg buf (fuel + 1) x = .ok (readCode cfg c x) := by
  simp [readLoop, readUnit, hread, hk, Except.map, bind, Except.bind, readCode]

theorem readLoop_goesOn (hk : goesOn cfg c x.j) :
    readLoop cfg buf (fuel + 1) x =
      readLoop cfg buf fuel ((readCode cfg c x).atIndex cfg (nextIndex cfg c x.j)) := by
  obtain ⟨hvalid, hend⟩ := hk
  cases hk : classify cfg c x.j with
  | invalid c' cause =>
    obtain rfl := eq_of_classify_invalid hk
    exact absurd hk (hvalid cause)
  | endStream => exact absurd hk hend
  | _ => simp [readLoop, readUnit, hread, hk, Except.map, bind, Except.bind, readCode]

end Turn

/-- The loop reads the codewords that a stream may begin with, and goes on after them. -/
theorem readLoop_open {done : List Nat} (fuel : Nat) (hopen : openCodes cfg x.j done = true)
    (hholds : holdsCodes cfg buf x.cur x.j done = true) :
    ∃ y, readLoop cfg buf (fuel + done.length) x = readLoop cfg buf fuel y ∧
      y.cur = x.cur + packedBits cfg x.j done ∧ y.j = indexAfter cfg x.j done ∧
      y.outCodes = x.outCodes ++ done := by
  induction done generalizing x with
  | nil => exact ⟨x, rfl, rfl, rfl, (List.append_nil _).symm⟩
  | cons c done ih =>
    obtain ⟨hgo, hopen⟩ := openCodes_cons.1 hopen
    obtain ⟨-, hrest⟩ := holdsCodes_cons.1 hholds
    obtain ⟨y, hloop, hcur, hj, hcodes⟩ :=
      ih (x := (readCode cfg c x).atIndex cfg (nextIndex cfg c x.j)) hopen hrest
    refine ⟨y, ?_, ?_, hj, ?_⟩
    · rw [List.length_cons, ← Nat.add_assoc, readLoop_goesOn _ (readBits_of_holdsCodes hholds) hgo, hloop]
    · rw [hcur, packedBits, ← Nat.add_assoc]
      rfl
    · rw [hcodes, ← List.singleton_append, ← List.append_assoc]
      rfl

end Reading

/-! ## readCodewords -/

section ReadCodewords

variable {cfg : Config} {image : List Byte} {offset : Nat} {done : List Nat}

theorem readCodewords_offset (h : image.length < offset) :
    readCodewords cfg image offset = raise .offsetPastEnd .byte offset := if_pos h

/-- After the codewords that the stream begins with, `readCodewords` is the rest of its loop. The fuel is not
used up: each codeword has taken a bit. -/
theorem readCodewords_open (hwf : cfg.wf = true) (hoffset : offset ≤ image.length)
    (hopen : openCodes cfg 0 done = true) (hholds : holdsCodes cfg (image.drop offset) 0 0 done = true) :
    ∃ fuel y, y.cur = packedBits cfg 0 done ∧ y.j = indexAfter cfg 0 done ∧ y.outCodes = done ∧
      readCodewords cfg image offset =
        (readLoop cfg (image.drop offset) (fuel + 1) y).map fun x => (x.outCodes, ceilDiv x.cur 8) := by
  have hbits := packedBits_le_of_holdsCodes (Nat.zero_le _) hholds
  have hcount := length_le_packedBits hwf 0 done
  obtain ⟨fuel, hfuel⟩ : ∃ fuel, 8 * (image.drop offset).length + 1 = fuel + 1 + done.length :=
    ⟨8 * (image.drop offset).length - done.length, by omega⟩
  obtain ⟨y, hloop, hcur, hj, hcodes⟩ := readLoop_open (x := Datapath.reset cfg) (fuel + 1) hopen hholds
  refine ⟨fuel, y, hcur.trans (Nat.zero_add _), hj, hcodes, ?_⟩
  rw [readCodewords, if_neg (Nat.not_lt.2 hoffset)]
  dsimp only
  rw [hfuel, hloop]
  rfl

theorem readCodewords_past (hwf : cfg.wf = true) (hoffset : offset ≤ image.length)
    (hopen : openCodes cfg 0 done = true) (hholds : holdsCodes cfg (image.drop offset) 0 0 done = true)
    (hend : 8 * (image.drop offset).length < packedBits cfg 0 done + widthAt cfg (indexAfter cfg 0 done)) :
    readCodewords cfg image offset = raise .bitReadPastEnd .bit (packedBits cfg 0 done) := by
  obtain ⟨fuel, y, hcur, hj, -, hloop⟩ := readCodewords_open hwf hoffset hopen hholds
  rw [hloop, readLoop_past fuel (by rwa [hcur, hj]), hcur]
  rfl

theorem readCodewords_invalid {c : Nat} {cause : InvalidCause} (hwf : cfg.wf = true)
    (hoffset : offset ≤ image.length) (hopen : openCodes cfg 0 done = true)
    (hholds : holdsCodes cfg (image.drop offset) 0 0 (done ++ [c]) = true)
    (hk : classify cfg c (indexAfter cfg 0 done) = .invalid c cause) :
    readCodewords cfg image offset = raise (invalidCause cause) .bit (packedBits cfg 0 done) := by
  obtain ⟨hdone, hlast⟩ := (holdsCodes_append ..).1 hholds
  obtain ⟨fuel, y, hcur, hj, -, hloop⟩ := readCodewords_open hwf hoffset hopen hdone
  rw [Nat.zero_add, ← hcur, ← hj] at hlast
  rw [hloop, readLoop_invalid fuel (readBits_of_holdsCodes hlast) (hj ▸ hk), hcur]
  rfl

/-- `readCodewords` returns the well-formed list that the stream begins with, and its length in bytes
(41_codeword_stream.md R115 and R116). -/
theorem readCodewords_wellFormed {cws : List Nat} (hwf : cfg.wf = true) (hoffset : offset ≤ image.length)
    (hcws : wellFormedCodes cfg 0 cws = true) (hholds : holdsCodes cfg (image.drop offset) 0 0 cws = true) :
    readCodewords cfg image offset = .ok (cws, ceilDiv (packedBits cfg 0 cws) 8) := by
  obtain ⟨done, rfl, hopen⟩ := exists_open_of_wellFormedCodes hcws
  obtain ⟨hdone, hlast⟩ := (holdsCodes_append ..).1 hholds
  obtain ⟨fuel, y, hcur, hj, hcodes, hloop⟩ := readCodewords_open hwf hoffset hopen hdone
  rw [Nat.zero_add, ← hcur, ← hj] at hlast
  rw [hloop, readLoop_endStream fuel (readBits_of_holdsCodes hlast) (classify_endCode hwf _), packedBits_append,
    ← hcur, ← hj]
  simp [Except.map, readCode, hcodes, packedBits]

end ReadCodewords

/-! ## packCodewords -/

section Packing

variable {cfg : Config} {c : Nat} {cws : List Nat} {x : Datapath}

/-- The registers after one more codeword is written (41_codeword_stream.md R118). -/
def writeCode (cfg : Config) (c : Nat) (x : Datapath) : Datapath :=
  { x with
    outBytes := scatterBits cfg.bitOrder x.outBytes x.ocur c (widthAt cfg x.j) (widthAt cfg x.j)
    ocur := x.ocur + widthAt cfg x.j, cur := x.cur + 1
    j := nextIndex cfg c x.j, wid := widthAt cfg (nextIndex cfg c x.j) }

theorem packLoop_cons (cws : List Nat) (hc : c < 2 ^ widthAt cfg x.j)
    (hfit : x.ocur + widthAt cfg x.j ≤ 8 * x.outBytes.length) :
    packLoop cfg (c :: cws) x = packLoop cfg cws (writeCode cfg c x) := by
  rw [packLoop, writeUnit_ok hc hfit]
  rfl

theorem writeCode_length (cfg : Config) (c : Nat) (x : Datapath) :
    (writeCode cfg c x).outBytes.length = x.outBytes.length := scatterBits_length ..

theorem streamBit_writeCode (hfit : x.ocur + widthAt cfg x.j ≤ 8 * x.outBytes.length) (q : Nat) :
    streamBit cfg.bitOrder (writeCode cfg c x).outBytes q =
      if x.ocur ≤ q ∧ q < x.ocur + widthAt cfg x.j then
        c.testBit (valueIndex cfg.bitOrder (widthAt cfg x.j) (q - x.ocur))
      else streamBit cfg.bitOrder x.outBytes q := streamBit_scatterBits _ _ _ hfit q

/-- The loop writes a list whose elements fit: the stream holds them from OCUR on, and every stream bit outside
them is as before. -/
theorem packLoop_holdsCodes (hfits : fitsWidths cfg x.j cws = true)
    (hroom : x.ocur + packedBits cfg x.j cws ≤ 8 * x.outBytes.length) :
    ∃ y, packLoop cfg cws x = .ok y ∧ y.outBytes.length = x.outBytes.length ∧
      holdsCodes cfg y.outBytes x.ocur x.j cws = true ∧
      ∀ q, q < x.ocur ∨ x.ocur + packedBits cfg x.j cws ≤ q →
        streamBit cfg.bitOrder y.outBytes q = streamBit cfg.bitOrder x.outBytes q := by
  induction cws generalizing x with
  | nil => exact ⟨x, rfl, rfl, rfl, fun _ _ => rfl⟩
  | cons c cws ih =>
    obtain ⟨hc, hcws⟩ := Bool.and_eq_true_iff.1 hfits
    replace hc := of_decide_eq_true hc
    rw [packedBits, ← Nat.add_assoc] at hroom ⊢
    have hfit : x.ocur + widthAt cfg x.j ≤ 8 * x.outBytes.length := by omega
    obtain ⟨y, hloop, hlen, hholds, hkept⟩ := ih (x := writeCode cfg c x) hcws (by rwa [writeCode_length])
    rw [writeCode_length] at hlen
    refine ⟨y, (packLoop_cons cws hc hfit).trans hloop, hlen,
      holdsCodes_cons.2 ⟨⟨hlen ▸ hfit, hc, fun i hi => ?written⟩, hholds⟩, fun q hq => ?kept⟩
    case written =>
      rw [hkept _ (.inl (Nat.add_lt_add_left hi _)), streamBit_writeCode hfit, if_pos (by omega),
        Nat.add_sub_cancel_left]
    case kept =>
      rw [hkept q (hq.imp_left (Nat.lt_add_right _)), streamBit_writeCode hfit, if_neg (by omega)]

theorem packLoop_length (cfg : Config) (cws : List Nat) (x : Datapath) :
    Ensures (fun y => y.outBytes.length = x.outBytes.length) (packLoop cfg cws x) := by
  induction cws generalizing x with
  | nil => exact ensures_ok rfl
  | cons c cws ih => exact (writeUnit_length _ _ _ _).bind fun _ hlen y hy => (ih _ y hy).trans hlen

/-- The packed length is the bits of the list, rounded up to bytes (41_codeword_stream.md R118). -/
theorem packCodewords_length (cfg : Config) (cws : List Nat) :
    Ensures (fun buf => buf.length = ceilDiv (packedBits cfg 0 cws) 8) (packCodewords cfg cws) :=
  (packLoop_length cfg cws _).map fun _ hlen => hlen.trans List.length_replicate

theorem le_mul_ceilDiv (n : Nat) : n ≤ 8 * ceilDiv n 8 := by
  unfold ceilDiv
  omega

/-- A list whose elements fit is packed into a stream that holds it. -/
theorem packCodewords_holdsCodes (hfits : fitsWidths cfg 0 cws = true) :
    ∃ buf, packCodewords cfg cws = .ok buf ∧ holdsCodes cfg buf 0 0 cws = true := by
  obtain ⟨y, hloop, -, hholds, -⟩ := packLoop_holdsCodes
    (x := { Datapath.reset cfg with outBytes := List.replicate (ceilDiv (packedBits cfg 0 cws) 8) 0 }) hfits
    (by simpa using le_mul_ceilDiv _)
  exact ⟨y.outBytes, by rw [packCodewords, hloop]; rfl, hholds⟩

end Packing

/-- Settles O16: the elements fit their widths, so the packed buffer holds the list, and `readCodewords` returns
the well-formed list that a buffer holds. -/
theorem structuralRoundTrip : Obligations.StructuralRoundTrip := by
  intro cfg cws hwf hcws
  obtain ⟨done, rfl, hopen⟩ := exists_open_of_wellFormedCodes hcws
  obtain ⟨buf, hpack, hholds⟩ :=
    packCodewords_holdsCodes (fitsWidths_open_end hwf (firstFree_lt_dictLimit hwf).le hopen)
  refine ⟨buf, hpack, ?_⟩
  rw [packCodewords_length cfg _ buf hpack]
  exact readCodewords_wellFormed hwf (Nat.zero_le _) hcws hholds

/-- Settles O17: packing keeps the length of its zeroed buffer, which is the sum of the widths in bytes. -/
theorem packedLength : Obligations.PackedLength := by
  refine ⟨fun cfg cws buf hpack => ?sum, fun cws buf hlen hr hpack => ?reference⟩
  case sum => rw [packCodewords_length cfg cws buf hpack, packedBits_eq_sum]
  case reference => rw [packCodewords_length _ cws buf hpack, packedBits_reference (by omega) hr]

/-! ## READ_CODEWORDS -/

/-- Error completion by its ERR word (60_exceptions.md R231), which the position does not enter. -/
theorem raiseError_eq_afterError {cause : Cause} {unit : PosUnit} {word : Word} (keep : Bool) (pos : Nat)
    (s : State) (hword : errWord ⟨cause, unit, 0⟩ = word) :
    raiseError keep ⟨cause, unit, pos⟩ s = afterError keep word pos s := by
  subst hword
  rfl

theorem errWord_invalid (cause : InvalidCause) : errWord ⟨invalidCause cause, .bit, 0⟩ = invalidWord 1 cause := by
  cases cause <;> decide

/-- An error of `readCodewords` ends the command. -/
theorem execReadCodewords_raise {s : State} {cause : Cause} {unit : PosUnit} {pos : Nat}
    (h : readCodewords s.cfg (imageBytes s) s.argOffset.toNat = raise cause unit pos) :
    exec .readCodewords s = .next (raiseError false ⟨cause, unit, pos⟩ s) := by
  rw [exec, execReadCodewords, prologue_cfg, imageBytes_prologue, prologue_argOffset, h]
  rfl

theorem words16LE_length (cws : List Nat) : (words16LE cws).length = 2 * cws.length := by
  simp [words16LE, Nat.mul_comm]

/-- A list too long for OUT_BUF ends the command with OUTPUT_FULL. -/
theorem execReadCodewords_full {s : State} {cws : List Nat} {n : Nat}
    (h : readCodewords s.cfg (imageBytes s) s.argOffset.toNat = .ok (cws, n))
    (hfull : s.cfg.outCap < 2 * cws.length) :
    exec .readCodewords s = .next (raiseError false ⟨.outputFull, .byte, s.cfg.outCap⟩ s) := by
  rw [exec, execReadCodewords, prologue_cfg, imageBytes_prologue, prologue_argOffset, h]
  exact congrArg (finish false (prologue s)) (deliver_full (some n) (by rwa [words16LE_length]))

/-- Settles O13, by where `readCodewords` stops; where it does not, the epilogue does. -/
theorem readCodewordsErrors : Obligations.ReadCodewordsErrors := by
  intro s hwf
  have hlen : ((imageBytes s).drop s.argOffset.toNat).length = s.cfg.imgLen - s.argOffset.toNat := by simp
  refine ⟨fun hpast => ?offset, fun done hoff hopen hholds hend => ?past,
    fun done c cause hoff hopen hholds hk => ?invalid, fun cws hoff hcws hholds hfull => ?full⟩
  case offset =>
    rw [execReadCodewords_raise (readCodewords_offset (by simpa using hpast))]
    exact congrArg _ (raiseError_eq_afterError _ _ _ (by decide))
  case past =>
    rw [execReadCodewords_raise (readCodewords_past hwf (by simpa using hoff) hopen hholds (hlen ▸ hend))]
    exact congrArg _ (raiseError_eq_afterError _ _ _ (by decide))
  case invalid =>
    rw [execReadCodewords_raise (readCodewords_invalid hwf (by simpa using hoff) hopen hholds hk)]
    exact congrArg _ (raiseError_eq_afterError _ _ _ (errWord_invalid cause))
  case full =>
    rw [execReadCodewords_full (readCodewords_wellFormed hwf (by simpa using hoff) hcws hholds) hfull]
    exact congrArg _ (raiseError_eq_afterError _ _ _ (by decide))

end Sys2Proof.Machine

namespace Sys2Proof.Machine

/-! ## The entry that a codeword defines

From J = 1 on a data codeword defines N(J) as PREV's phrase and one byte (42_lzw_expander.md R134). -/

section Defines

variable {cfg : Config} {x : Datapath} {p : Nat} {pp : List Byte}

/-- The entry for the phrase `pp` of `p` and the byte `b` (42_lzw_expander.md R134). -/
def extension (p : Nat) (b : Byte) (pp : List Byte) : Entry := ⟨p, b, pp.headD 0, pp.length + 1⟩

theorem ExpanderInv.nextCode_eq (h : ExpanderInv cfg x) : nextCode cfg x.j = cfg.firstFree + x.dict.length := by
  rw [nextCode, h.count]

theorem ExpanderInv.prev_phrase (h : ExpanderInv cfg x) (hj : 1 ≤ x.j) :
    ∃ p pp, x.prev = some p ∧ codeDefined cfg x.dict.length p ∧ phrase cfg x.dict p = some pp := by
  obtain ⟨p, hp, hdef⟩ := h.prev_defined hj
  obtain ⟨pp, hpp⟩ := h.dict.phrase_defined hdef
  exact ⟨p, pp, hp, hdef, hpp⟩

/-- The phrase of N(J), once it is defined. -/
theorem ExpanderInv.phrase_nextCode (hwf : cfg.wf = true) (h : ExpanderInv cfg x)
    (hdef : codeDefined cfg x.dict.length p) (hpp : phrase cfg x.dict p = some pp) (b : Byte) :
    phrase cfg (x.dict ++ [extension p b pp]) (nextCode cfg x.j) = some (pp ++ [b]) := by
  rw [h.nextCode_eq]
  exact phrase_entry (firstFree_ge hwf) List.getElem?_concat_length (hdef.lt (firstFree_ge hwf))
    (phrase_append _ hpp)

/-- The registers after LIT, REF or KWK: the phrase `ph` is output, PREV is `c`, the dictionary is `dict`, and J
has gone on by one (42_lzw_expander.md R131 to R133). -/
def Datapath.emitted (cfg : Config) (ph : List Byte) (c : Nat) (dict : Dict) (x : Datapath) : Datapath :=
  { x with
    outBytes := x.outBytes ++ ph, ocur := x.ocur + ph.length, dict := dict
    prev := some c, cur := x.cur + 1 }.atIndex cfg (x.j + 1)

/-- What LIT, REF and KWK share, from J = 1 on: it always completes below DICT_LIMIT. -/
theorem emitPhrase_extends (h : ExpanderInv cfg x) (hroom : nextCode cfg x.j < cfg.dictLimit)
    (hp : x.prev = some p) (hpp : phrase cfg x.dict p = some pp) (ph : List Byte) (c : Nat) :
    emitPhrase cfg ph c true x =
      .ok (x.emitted cfg ph c (x.dict ++ [extension p (ph.headD 0) pp])) :=
  emitPhrase_defines hp (define_ok h.nextCode_eq hroom hpp)

end Defines

/-! ## LIT, REF and KWK where they can stand -/

section Steps

variable {cfg : Config} {x : Datapath} {c : Nat}

/-- LIT completes where a literal can stand (42_lzw_expander.md R131). -/
theorem litStep_completes {b : Byte} (hwf : cfg.wf = true) (h : ExpanderInv cfg x)
    (hb : (Instr.lit b).wfAt cfg x.j = true) :
    ∃ d : Dict,
      (x.j = 0 → d = x.dict) ∧
      (1 ≤ x.j → ∃ p pp, x.prev = some p ∧ phrase cfg x.dict p = some pp ∧ d = x.dict ++ [extension p b pp] ∧
        phrase cfg d (nextCode cfg x.j) = some (pp ++ [b])) ∧
      litStep cfg b x = .ok (x.emitted cfg [b] b.toNat d) := by
  rcases Nat.eq_zero_or_pos x.j with h0 | (hj : 1 ≤ x.j)
  · refine ⟨x.dict, fun _ => rfl, fun hj => by omega, ?_⟩
    rw [litStep, h0]
    exact emitPhrase_first ..
  · obtain ⟨p, pp, hp, hdef, hpp⟩ := h.prev_phrase hj
    have hroom : nextCode cfg x.j < cfg.dictLimit := (of_decide_eq_true hb).resolve_left (by omega)
    refine ⟨_, fun h0 => by omega, fun _ => ⟨p, pp, hp, hpp, rfl, h.phrase_nextCode hwf hdef hpp b⟩, ?_⟩
    rw [litStep, decide_eq_true hj]
    exact emitPhrase_extends h hroom hp hpp [b] b.toNat

/-- REF completes where it can stand (42_lzw_expander.md R132). -/
theorem refStep_completes (hwf : cfg.wf = true) (h : ExpanderInv cfg x)
    (hc : (Instr.ref c).wfAt cfg x.j = true) :
    ∃ p pp ph, x.prev = some p ∧ phrase cfg x.dict p = some pp ∧ phrase cfg x.dict c = some ph ∧
      phrase cfg (x.dict ++ [extension p (ph.headD 0) pp]) (nextCode cfg x.j) = some (pp ++ [ph.headD 0]) ∧
      refStep cfg c x = .ok (x.emitted cfg ph c (x.dict ++ [extension p (ph.headD 0) pp])) := by
  obtain ⟨hj, hroom, hcode⟩ := of_decide_eq_true hc
  obtain ⟨p, pp, hp, hdef, hpp⟩ := h.prev_phrase hj
  obtain ⟨ph, hph⟩ := h.dict.phrase_defined (.inr (h.count ▸ hcode))
  refine ⟨p, pp, ph, hp, hpp, hph, h.phrase_nextCode hwf hdef hpp _, ?_⟩
  simp only [refStep, hph]
  exact emitPhrase_extends h hroom hp hpp ph c

/-- KWK completes where it can stand (42_lzw_expander.md R133). -/
theorem kwkStep_completes (hwf : cfg.wf = true) (h : ExpanderInv cfg x)
    (hc : (Instr.kwk c).wfAt cfg x.j = true) :
    ∃ p pp, x.prev = some p ∧ codeDefined cfg x.dict.length p ∧ phrase cfg x.dict p = some pp ∧
      phrase cfg (x.dict ++ [extension p (pp.headD 0) pp]) c = some (pp ++ [pp.headD 0]) ∧
      kwkStep cfg c x =
        .ok (x.emitted cfg (pp ++ [pp.headD 0]) c (x.dict ++ [extension p (pp.headD 0) pp])) := by
  obtain ⟨hj, hroom, rfl⟩ := of_decide_eq_true hc
  obtain ⟨p, pp, hp, hdef, hpp⟩ := h.prev_phrase hj
  have hhead : (pp ++ [pp.headD 0]).headD 0 = pp.headD 0 := by cases pp <;> rfl
  refine ⟨p, pp, hp, hdef, hpp, h.phrase_nextCode hwf hdef hpp _, ?_⟩
  simp only [kwkStep, hp, hpp]
  exact (emitPhrase_extends h hroom hp hpp _ _).trans (by rw [hhead])

end Steps

/-- Settles O18, by J = 0, where nothing is defined, and J >= 1. -/
theorem litCompletes : Obligations.LitCompletes := by
  intro s b hwf h hb
  obtain ⟨d, hfirst, hdefines, hstep⟩ := litStep_completes hwf h hb
  exact ⟨d, hfirst, hdefines, congrArg (advance s) hstep⟩

/-- Settles O19: a code below N(J) has a phrase, and so has PREV. -/
theorem refCompletes : Obligations.RefCompletes := by
  intro s c hwf h hc
  obtain ⟨p, pp, ph, hp, hpp, hph, hnew, hstep⟩ := refStep_completes hwf h hc
  exact ⟨p, pp, ph, hp, hpp, hph, phraseFuel_ne_nil hph, hnew, congrArg (advance s) hstep⟩

/-- Settles O20: `c` is the code that the step defines, with the phrase that it outputs. -/
theorem kwkCompletes : Obligations.KwkCompletes := by
  intro s c hwf h hc
  obtain ⟨p, pp, hp, -, hpp, hnew, hstep⟩ := kwkStep_completes hwf h hc
  rw [Datapath.emitted, List.length_append] at hstep
  exact ⟨p, pp, hp, hpp, phraseFuel_ne_nil hpp, hnew, congrArg (advance s) hstep⟩

/-! ## The length of a phrase -/

section Lengths

variable {cfg : Config} {dict : Dict} {n c : Nat}

theorem codeDefined_succ (h : codeDefined cfg (n + 1) c) : codeDefined cfg n c ∨ c = cfg.firstFree + n := by
  unfold codeDefined at *
  omega

/-- The phrase of one of the first `n` codes: each entry is one byte longer than a code before it. -/
theorem DictInv.phrase_length_le {ph : List Byte} (h : DictInv cfg dict) (hff : 256 ≤ cfg.firstFree)
    (hn : n ≤ dict.length) (hc : codeDefined cfg n c) (hph : phrase cfg dict c = some ph) :
    ph.length ≤ n + 1 := by
  induction n generalizing c ph with
  | zero =>
    have hbyte : c ≤ 255 := by
      unfold codeDefined at hc
      omega
    rw [phrase_base cfg dict hbyte] at hph
    cases hph
    exact le_rfl
  | succ n ih =>
    rcases codeDefined_succ hc with hc | rfl
    · exact (ih (by omega) hc hph).trans (Nat.le_succ _)
    · obtain ⟨e, -, he, hparent, -⟩ := entryOk_iff.1 (h.entries n hn)
      obtain ⟨pp, hpp⟩ := h.phrase_defined (hparent.mono (by omega))
      rw [phrase_entry hff he (hparent.lt hff) hpp] at hph
      cases hph
      have := ih (by omega) hparent hpp
      simp only [List.length_append, List.length_singleton]
      omega

end Lengths

/-! ## The expander on codewords that a stream may begin with -/

section Expansion

variable {cfg : Config} {x : Datapath} {c : Nat} {done : List Nat}

/-- What codeword `c` at index `j` may output (42_lzw_expander.md R140). -/
def OutputBounds (cfg : Config) (c j : Nat) (ph : List Byte) : Prop :=
  (c = cfg.resetCode → ph = []) ∧ (c ≠ cfg.resetCode → 1 ≤ ph.length ∧ ph.length ≤ j + 1)

/-- A valid data codeword outputs one phrase, of at most J + 1 bytes. -/
theorem codewordStep_data (hwf : cfg.wf = true) (h : ExpanderInv cfg x) (hgo : goesOn cfg c x.j)
    (hr : c ≠ cfg.resetCode) :
    ∃ ph p dict, codewordStep cfg (classify cfg c x.j) x = .ok (x.emitted cfg ph p dict) ∧
      1 ≤ ph.length ∧ ph.length ≤ x.j + 1 := by
  obtain ⟨hvalid, hend⟩ := hgo
  have hj : nextCode cfg x.j ≤ cfg.dictLimit := h.next ▸ h.range
  have hcount := h.count
  have hlength {k : Nat} {ph : List Byte} (hk : codeDefined cfg x.dict.length k)
      (hph : phrase cfg x.dict k = some ph) : 1 ≤ ph.length ∧ ph.length ≤ x.dict.length + 1 :=
    ⟨List.length_pos_iff.2 (phraseFuel_ne_nil hph), h.dict.phrase_length_le (firstFree_ge hwf) le_rfl hk hph⟩
  cases hk : classify cfg c x.j with
  | reset => exact absurd (codeValue_classify cfg c x.j) (hk ▸ hr.symm)
  | endStream => exact absurd hk hend
  | invalid c' cause =>
    obtain rfl := eq_of_classify_invalid hk
    exact absurd hk (hvalid cause)
  | lit b =>
    obtain ⟨dict, -, -, hstep⟩ := litStep_completes hwf h (classify_wfAt hj hk nofun)
    exact ⟨_, _, _, hstep, le_rfl, Nat.le_add_left ..⟩
  | ref c =>
    have hc := classify_wfAt hj hk nofun
    obtain ⟨p, pp, ph, -, -, hph, -, hstep⟩ := refStep_completes hwf h hc
    obtain ⟨-, -, hcode⟩ := of_decide_eq_true hc
    obtain ⟨hpos, hle⟩ := hlength (.inr (hcount ▸ hcode)) hph
    exact ⟨_, _, _, hstep, hpos, by omega⟩
  | kwk c =>
    have hc := classify_wfAt hj hk nofun
    obtain ⟨p, pp, -, hdef, hpp, -, hstep⟩ := kwkStep_completes hwf h hc
    obtain ⟨hj1, -⟩ := of_decide_eq_true hc
    obtain ⟨-, hle⟩ := hlength hdef hpp
    refine ⟨_, _, _, hstep, ?_⟩
    rw [List.length_append, List.length_singleton]
    omega

/-- A valid codeword other than END completes. -/
theorem codewordStep_goesOn (hwf : cfg.wf = true) (h : ExpanderInv cfg x) (hgo : goesOn cfg c x.j) :
    ∃ y ph, codewordStep cfg (classify cfg c x.j) x = .ok y ∧ ExpanderInv cfg y ∧
      y.j = nextIndex cfg c x.j ∧ y.outBytes = x.outBytes ++ ph ∧ OutputBounds cfg c x.j ph := by
  have hkeeps {y : Datapath} := (codewordStep_keeps hwf h hgo.2).ensures y
  by_cases hr : c = cfg.resetCode
  · have hstep : codewordStep cfg (classify cfg c x.j) x = .ok (resetStep cfg x) := by
      rw [hr, classify_resetCode, codewordStep]
    exact ⟨_, [], hstep, hkeeps hstep, (if_pos hr).symm, (List.append_nil _).symm, fun _ => rfl, absurd hr⟩
  · obtain ⟨ph, p, dict, hstep, hbounds⟩ := codewordStep_data hwf h hgo hr
    exact ⟨_, ph, hstep, hkeeps hstep, (if_neg hr).symm, rfl, (absurd · hr), fun _ => hbounds⟩

/-- Codewords that a stream may begin with all complete. -/
theorem expandCodes_open (hwf : cfg.wf = true) (h : ExpanderInv cfg x)
    (hopen : openCodes cfg x.j done = true) :
    ∃ y, expandCodes cfg done x = .ok y ∧ ExpanderInv cfg y ∧ y.j = indexAfter cfg x.j done := by
  induction done generalizing x with
  | nil => exact ⟨x, rfl, h, rfl⟩
  | cons c done ih =>
    obtain ⟨hgo, hopen⟩ := openCodes_cons.1 hopen
    obtain ⟨y, -, hstep, hy, hj, -⟩ := codewordStep_goesOn hwf h hgo
    rw [expandCodes, hstep, indexAfter_cons, ← hj]
    exact ih hy (hj ▸ hopen)

/-- The expander's loop runs the codewords that the stream begins with, and goes on after them. -/
theorem expand_append (hwf : cfg.wf = true) (h : ExpanderInv cfg x) (hopen : openCodes cfg x.j done = true)
    (rest : List Nat) : expand cfg (done ++ rest) x = (expandCodes cfg done x).bind (expand cfg rest) := by
  induction done generalizing x with
  | nil => rfl
  | cons c done ih =>
    obtain ⟨hgo, hopen⟩ := openCodes_cons.1 hopen
    obtain ⟨y, -, hstep, hy, hj, -⟩ := codewordStep_goesOn hwf h hgo
    rw [List.cons_append, expand_step hgo.2, expandCodes, hstep]
    exact ih hy (hj ▸ hopen)

/-- `decompressLZW` runs the codewords that the stream begins with, and goes on after them. -/
theorem decompressLZW_open (hwf : cfg.wf = true) (hopen : openCodes cfg 0 done = true) :
    ∃ y, expandCodes cfg done (Datapath.reset cfg) = .ok y ∧ ExpanderInv cfg y ∧
      y.j = indexAfter cfg 0 done ∧
      ∀ rest, decompressLZW cfg (done ++ rest) = (expand cfg rest y).map (·.outBytes) := by
  obtain ⟨y, hdone, hy, hj⟩ := expandCodes_open hwf (expanderInv_reset hwf) hopen
  refine ⟨y, hdone, hy, hj, fun rest => ?_⟩
  rw [decompressLZW, expand_append hwf (expanderInv_reset hwf) hopen, hdone]
  rfl

theorem expand_endCode (hwf : cfg.wf = true) (rest : List Nat) (x : Datapath) :
    expand cfg (cfg.endCode :: rest) x = .ok (endStep x) :=
  expand_endStream (classify_endCode hwf x.j)

theorem openCodes_append (cfg : Config) (j : Nat) (cws ds : List Nat) :
    openCodes cfg j (cws ++ ds) = true ↔
      openCodes cfg j cws = true ∧ openCodes cfg (indexAfter cfg j cws) ds = true := by
  induction cws generalizing j with
  | nil => simp [openCodes, indexAfter]
  | cons c cws ih => rw [List.cons_append, openCodes_cons, openCodes_cons, ih, indexAfter_cons, and_assoc]

end Expansion

/-- Settles O24: the list is one that a stream may begin with, and END, where the loop returns. -/
theorem wellFormedCodesExpand : Obligations.WellFormedCodesExpand := by
  intro cfg cws rest hwf hcws
  obtain ⟨done, rfl, hopen⟩ := exists_open_of_wellFormedCodes hcws
  obtain ⟨y, -, -, -, hloop⟩ := decompressLZW_open hwf hopen
  refine ⟨y.outBytes, ?_, ?_⟩
  · rw [hloop, expand_endCode hwf]
    rfl
  · rw [List.append_assoc, hloop, List.singleton_append, expand_endCode hwf]
    rfl

/-- Settles O25: after the open stream the codeword is one more step of the loop, before its END. -/
theorem codewordOutputBounds : Obligations.CodewordOutputBounds := by
  intro cfg done c hwf hopen
  obtain ⟨hdone, hlast⟩ := (openCodes_append ..).1 hopen
  obtain ⟨hgo, -⟩ := openCodes_cons.1 hlast
  obtain ⟨y, -, hy, hj, hloop⟩ := decompressLZW_open hwf hdone
  rw [← hj] at hgo ⊢
  obtain ⟨z, ph, hstep, -, -, hout, hbounds⟩ := codewordStep_goesOn hwf hy hgo
  refine ⟨y.outBytes, ph, ?_, ?_, hbounds⟩
  · rw [hloop, expand_endCode hwf]
    rfl
  · rw [hloop, expand_step hgo.2, hstep, Except.bind, expand_endCode hwf, ← hout]
    rfl

/-! ## RESET, END and INVALID -/

/-- Settles O21: the first width is MIN_WIDTH. -/
theorem resetCodewordCompletes : Obligations.ResetCodewordCompletes := by
  intro s hwf
  rw [← widthAt_zero hwf]
  rfl

/-- In LZW_DECODE the output goes to the epilogue (42_lzw_expander.md R136, 45_commands.md R200). -/
theorem exec_endStream_deliver {s : State} {cws : List Nat} (hs : s.stage = .expand .deliver cws) :
    exec .endStream s = finish false s (deliver s.dp.outBytes none s) := by
  rw [exec, execEndStream, hs]
  rfl

/-- The epilogue leaves the error that the state has recorded; where it has none, this is success completion. -/
theorem deliver_delivered {s : State} {output : List Byte} (herr : s.err = 0) (hpos : s.errPos = 0)
    (h : output.length ≤ s.cfg.outCap) : deliver output none s = .ok (delivered output s) := by
  have hok : deliver output none s = .ok { delivered output s with err := s.err, errPos := s.errPos } :=
    deliver_fits none h
  rw [hok, herr, hpos]
  rfl

/-- Settles O22, by the stage and the length of the output. -/
theorem endCompletes : Obligations.EndCompletes := by
  intro s
  refine ⟨fun cws hs herr hpos hfits => ?deliver, fun n cws hs => ?rle, fun cws hs hfull => ?full,
    fun hs => ?outside⟩
  case deliver => rw [exec_endStream_deliver hs, deliver_delivered herr hpos hfits, finish_ok]
  case rle =>
    rw [exec, execEndStream, hs]
    rfl
  case full =>
    rw [exec_endStream_deliver hs, deliver_full none hfull, finish_raise]
    exact congrArg _ (raiseError_eq_afterError _ _ _ (by decide))
  case outside =>
    rcases hs with hs | ⟨n, ys, hs⟩ <;> rw [exec, execEndStream, hs]

/-- The ERR word of an INVALID codeword in each unit (60_exceptions.md R221). -/
theorem errWord_invalidCause (cause : InvalidCause) (unit : PosUnit) :
    errWord ⟨invalidCause cause, unit, 0⟩ = invalidWord unit.code cause := by
  cases cause <;> cases unit <;> decide

/-- Settles O23: INVALID is `raise` at CUR, with the ERR word of its cause. -/
theorem invalidRaises : Obligations.InvalidRaises := by
  intro s c cause
  rw [exec, execInvalid, invalidStep, advance_raise]
  exact congrArg _ (raiseError_eq_afterError _ _ _ (errWord_invalidCause cause .codeword))

end Sys2Proof.Machine

namespace Sys2Proof.Machine

/-! ## The dictionary as a trie

Every phrase of two bytes or more is the phrase of an entry's parent and the entry's own byte, and with no pair of
PREFIX and SUFFIX twice no phrase has two codes (43_lzw_builder.md R155). -/

section Trie

variable {cfg : Config} {dict : Dict} {k c : Nat} {ph : List Byte}

theorem headD_concat (h : ph ≠ []) (b : Byte) : (ph ++ [b]).headD 0 = ph.headD 0 := by
  cases ph with
  | nil => exact absurd rfl h
  | cons a ph => rfl

theorem phrase_byte (cfg : Config) (dict : Dict) (b : Byte) : phrase cfg dict b.toNat = some [b] := by
  rw [phrase_base cfg dict (Nat.le_of_lt_succ b.isLt), BitVec.ofNat_toNat, BitVec.setWidth_eq]

theorem exists_byte (h : c ≤ 255) : ∃ b : Byte, c = b.toNat :=
  ⟨BitVec.ofNat 8 c, (Nat.mod_eq_of_lt (by omega)).symm⟩

/-- A code with a phrase is a byte or the code of an entry (10_state.md R31). -/
theorem DictInv.phrase_cases (h : DictInv cfg dict) (hff : 256 ≤ cfg.firstFree)
    (hk : phrase cfg dict k = some ph) :
    (∃ b : Byte, k = b.toNat ∧ ph = [b]) ∨
      ∃ i e pp, dict[i]? = some e ∧ k = cfg.firstFree + i ∧ e.parent < k ∧
        phrase cfg dict e.parent = some pp ∧ ph = pp ++ [e.suffix] := by
  by_cases hbyte : k ≤ 255
  · obtain ⟨b, rfl⟩ := exists_byte hbyte
    exact .inl ⟨b, rfl, Option.some.inj (hk.symm.trans (phrase_byte ..))⟩
  · obtain ⟨i, rfl, hi⟩ : ∃ i, k = cfg.firstFree + i ∧ i < dict.length := by
      obtain ⟨n, rfl⟩ : ∃ n, k = n + 1 := ⟨k - 1, by omega⟩
      rw [phrase, phraseFuel_code cfg dict n (by omega)] at hk
      obtain ⟨e, he, -⟩ := Option.bind_eq_some_iff.1 hk
      obtain ⟨hlo, he⟩ := Option.ite_none_left_eq_some.1 he
      exact ⟨n + 1 - cfg.firstFree, by omega, (List.getElem?_eq_some_iff.1 he).1⟩
    obtain ⟨e, -, he, hparent, -⟩ := entryOk_iff.1 (h.entries i hi)
    obtain ⟨pp, hpp⟩ := h.phrase_defined (hparent.mono hi.le)
    rw [phrase_entry hff he (hparent.lt hff) hpp] at hk
    exact .inr ⟨i, e, pp, he, rfl, hparent.lt hff, hpp, (Option.some.inj hk).symm⟩

/-- The pairs of PREFIX and SUFFIX that the dictionary defines. -/
def Dict.pairs (dict : Dict) : List (Nat × Byte) := dict.map fun e => (e.parent, e.suffix)

/-- No phrase has two codes. -/
theorem DictInv.phrase_inj (h : DictInv cfg dict) (hff : 256 ≤ cfg.firstFree) (hnodup : dict.pairs.Nodup)
    (hk : phrase cfg dict k = some ph) (hc : phrase cfg dict c = some ph) : k = c := by
  induction k using Nat.strong_induction_on generalizing c ph with
  | _ k ih =>
    rcases h.phrase_cases hff hk with ⟨b, rfl, rfl⟩ | ⟨i, e, pp, he, rfl, hlt, hpp, rfl⟩ <;>
      rcases h.phrase_cases hff hc with ⟨b', rfl, heq⟩ | ⟨i', e', pp', he', rfl, -, hpp', heq⟩
    · rw [List.singleton_inj.1 heq]
    · exact absurd (List.append_eq_singleton_iff.1 heq.symm) (by simp [phraseFuel_ne_nil hpp'])
    · exact absurd (List.append_eq_singleton_iff.1 heq) (by simp [phraseFuel_ne_nil hpp])
    · obtain ⟨rfl, hsuffix⟩ := List.append_inj' heq rfl
      have hparent : e.parent = e'.parent := ih _ hlt hpp hpp'
      have hpair : dict.pairs[i]? = dict.pairs[i']? := by
        simp [Dict.pairs, he, he', hparent, List.singleton_inj.1 hsuffix]
      obtain ⟨hi, -⟩ := List.getElem?_eq_some_iff.1 he
      rw [(List.getElem?_inj (by simpa [Dict.pairs] using hi) hnodup).1 hpair]

/-- A phrase that goes on after `ph` with `b` passes through the entry for `ph` and `b`. -/
theorem DictInv.entry_of_prefix {b : Byte} {other : List Byte} (h : DictInv cfg dict) (hff : 256 ≤ cfg.firstFree)
    (hne : ph ≠ []) (hk : phrase cfg dict k = some other) (hpre : ph ++ [b] <+: other) :
    ∃ e ∈ dict, phrase cfg dict e.parent = some ph ∧ e.suffix = b := by
  induction k using Nat.strong_induction_on generalizing other with
  | _ k ih =>
    rcases h.phrase_cases hff hk with ⟨b', -, rfl⟩ | ⟨i, e, pp, he, -, hlt, hpp, rfl⟩
    · exact absurd hpre.length_le (by simp [hne])
    · rcases List.prefix_concat_iff.1 hpre with heq | hpre
      · obtain ⟨rfl, hsuffix⟩ := List.append_inj' heq rfl
        exact ⟨e, List.mem_of_getElem? he, hpp, (List.singleton_inj.1 hsuffix).symm⟩
      · exact ih _ hlt hpp hpre

/-- What `lookup` finds (10_state.md R32). -/
theorem lookup_some {p : Nat} {b : Byte} (h : lookup cfg dict p b = some k) :
    ∃ i e, dict[i]? = some e ∧ k = cfg.firstFree + i ∧ e.parent = p ∧ e.suffix = b := by
  obtain ⟨i, hi, rfl⟩ := Option.map_eq_some_iff.1 h
  obtain ⟨hlt, hfound, -⟩ := List.findIdx?_eq_some_iff_getElem.1 hi
  simp only [Bool.and_eq_true, decide_eq_true_eq] at hfound
  exact ⟨i, dict[i], List.getElem?_eq_getElem hlt, rfl, hfound⟩

theorem lookup_none {p : Nat} {b : Byte} (h : lookup cfg dict p b = none) {e : Entry} (he : e ∈ dict)
    (hp : e.parent = p) : e.suffix ≠ b := by
  have hall := List.findIdx?_eq_none_iff.1 (Option.map_eq_none_iff.1 h) e he
  simpa [hp] using hall

/-- EMIT_DEFINE defines no pair twice (43_lzw_builder.md R155). -/
theorem pairs_concat_nodup {p : Nat} {b : Byte} (ph : List Byte) (h : dict.pairs.Nodup)
    (hk : lookup cfg dict p b = none) : (dict ++ [extension p b ph]).pairs.Nodup := by
  have hnew : (p, b) ∉ dict.pairs := by
    simp only [Dict.pairs, List.mem_map, Prod.mk.injEq, not_exists, not_and]
    exact fun e he hp => lookup_none hk he hp
  rw [Dict.pairs, List.map_append]
  exact List.concat_eq_append ▸ h.concat hnew

/-- The phrase of the code that `lookup` finds is one byte longer. -/
theorem DictInv.phrase_lookup {p : Nat} {b : Byte} (h : DictInv cfg dict) (hff : 256 ≤ cfg.firstFree)
    (hp : phrase cfg dict p = some ph) (hk : lookup cfg dict p b = some k) :
    phrase cfg dict k = some (ph ++ [b]) := by
  obtain ⟨i, e, he, rfl, rfl, rfl⟩ := lookup_some hk
  obtain ⟨hi, -⟩ := List.getElem?_eq_some_iff.1 he
  obtain ⟨e', -, he', hparent, -⟩ := entryOk_iff.1 (h.entries i hi)
  obtain rfl := Option.some.inj (he.symm.trans he')
  exact phrase_entry hff he (hparent.lt hff) hp

end Trie

/-! ## The encoder's actions on a byte -/

section Actions

variable {cfg : Config} {x : Datapath} {p : Nat} {b : Byte}

/-- EXTEND (43_lzw_builder.md R152). -/
theorem encodeByte_extend {k : Nat} (hp : x.cand = some p) (hk : lookup cfg x.dict p b = some k) :
    encodeByte cfg b x = .ok (actExtend k x) := by
  simp only [encodeByte, hp, hk]

/-- EMIT_DEFINE (43_lzw_builder.md R153): the new entry is the candidate's phrase and the byte. -/
theorem encodeByte_emitDefine {ph : List Byte} (h : EncoderInv cfg x) (hp : x.cand = some p)
    (hk : lookup cfg x.dict p b = none) (hroom : cfg.firstFree + x.j < cfg.dictLimit)
    (hph : phrase cfg x.dict p = some ph) :
    encodeByte cfg b x = .ok ({ x.emitCode p with
      dict := x.dict ++ [extension p b ph], cand := some b.toNat }.atEmission cfg (x.j + 1)) := by
  have hdefine := define_ok (b := b) (x := x.emitCode p) (congrArg _ h.count.symm) hroom hph
  simp only [encodeByte, hp, hk, if_pos hroom, actEmitDefine, hdefine]
  rfl

/-- EMIT_RESET (43_lzw_builder.md R154). -/
theorem encodeByte_emitReset (hp : x.cand = some p) (hk : lookup cfg x.dict p b = none)
    (hfull : ¬cfg.firstFree + x.j < cfg.dictLimit) : encodeByte cfg b x = .ok (actEmitReset cfg p b x) := by
  simp only [encodeByte, hp, hk, if_neg hfull]

theorem encodeLoop_cons {x' : Datapath} {rest : List Byte} (h : encodeByte cfg b x = .ok x') :
    encodeLoop cfg (b :: rest) x = encodeLoop cfg rest { x' with cur := x'.cur + 1 } := by
  rw [encodeLoop, h]
  rfl

/-- The loop after START on the first byte. -/
theorem compressLZW_cons (cfg : Config) (b : Byte) (rest : List Byte) :
    compressLZW cfg (b :: rest) =
      (encodeLoop cfg rest { actStart b (Datapath.reset cfg) with cur := 1 }).map
        fun x => (actFlush cfg x).outCodes := rfl

end Actions

/-! ## The expander, one codeword behind -/

section Behind

variable {cfg : Config} {dict : Dict} {c : Nat} {ph : List Byte} {y : Datapath}

/-- The expander `y` has not yet defined the last entry of the encoder's dictionary, which ends in the first byte
`a` of the codeword to come (42_lzw_expander.md R139). -/
def OneBehind (cfg : Config) (dict : Dict) (a : Byte) (y : Datapath) : Prop :=
  (y.j = 0 ∧ dict = []) ∨
    ∃ p pp, y.prev = some p ∧ phrase cfg y.dict p = some pp ∧ dict = y.dict ++ [extension p a pp]

theorem ExpanderInv.one_le_of_prev {p : Nat} (h : ExpanderInv cfg y) (hp : y.prev = some p) : 1 ≤ y.j := by
  rcases prevOk_iff.1 h.prev with ⟨hnone, -⟩ | ⟨-, -, hj, -⟩
  · rw [hnone] at hp
    cases hp
  · exact hj

/-- Both are at the same codeword index. -/
theorem OneBehind.length_eq {a : Byte} (hb : OneBehind cfg dict a y) (h : ExpanderInv cfg y) :
    dict.length = y.j := by
  rcases hb with ⟨h0, rfl⟩ | ⟨p, pp, hp, -, rfl⟩
  · exact h0.symm
  · have := h.one_le_of_prev hp
    rw [List.length_append, List.length_singleton, h.count]
    omega

theorem goesOn_of_classify {j : Nat} {k : CwKind} (hk : classify cfg c j = k)
    (hv : ∀ c' cause, k ≠ .invalid c' cause) (he : k ≠ .endStream) : goesOn cfg c j :=
  ⟨fun cause => hk ▸ hv c cause, hk ▸ he⟩

/-- The code that the expander is about to define can only have the phrase that KWK outputs (42_lzw_expander.md
R133). -/
theorem ExpanderInv.kwk_phrase {p : Nat} {pp : List Byte} (hwf : cfg.wf = true) (h : ExpanderInv cfg y)
    (hp : y.prev = some p) (hpp : phrase cfg y.dict p = some pp)
    (hph : phrase cfg (y.dict ++ [extension p (ph.headD 0) pp]) (nextCode cfg y.j) = some ph) :
    ph = pp ++ [pp.headD 0] := by
  obtain ⟨p', hp', hdef⟩ := h.prev_defined (h.one_le_of_prev hp)
  obtain rfl := Option.some.inj (hp.symm.trans hp')
  have hnew : pp ++ [ph.headD 0] = ph := Option.some.inj ((h.phrase_nextCode hwf hdef hpp _).symm.trans hph)
  have hhead : ph.headD 0 = pp.headD 0 := by
    conv_lhs => rw [← hnew]
    exact headD_concat (phraseFuel_ne_nil hpp) _
  rw [← hhead, hnew]

/-- A codeword of the encoder's dictionary can stand at the expander's index; executing it outputs its phrase there
and brings the expander's dictionary up to the encoder's. -/
theorem OneBehind.executes (hwf : cfg.wf = true) (hb : OneBehind cfg dict (ph.headD 0) y)
    (h : ExpanderInv cfg y) (hdict : DictInv cfg dict) (hc : codeDefined cfg dict.length c)
    (hph : phrase cfg dict c = some ph) :
    goesOn cfg c y.j ∧ codewordStep cfg (classify cfg c y.j) y = .ok (y.emitted cfg ph c dict) := by
  have hff := firstFree_ge hwf
  rcases hb with ⟨h0, rfl⟩ | ⟨p, pp, hp, hpp, rfl⟩
  case inl =>
    rcases hdict.phrase_cases hff hph with ⟨b, rfl, rfl⟩ | ⟨_, _, _, he, _⟩
    case inr => cases he
    have hk : classify cfg b.toNat y.j = .lit b := classify_lit hwf b (.inl h0)
    refine ⟨goesOn_of_classify hk nofun nofun, ?_⟩
    have hempty : y.dict = [] := List.length_eq_zero_iff.1 (by rw [h.count, h0])
    rw [hk, codewordStep, litStep, h0, ← hempty]
    exact emitPhrase_first ..
  case inr =>
    have hj := h.one_le_of_prev hp
    have hnext := h.nextCode_eq
    have hbounded := hdict.bounded
    have hroom : nextCode cfg y.j < cfg.dictLimit := by
      rw [List.length_append, List.length_singleton] at hbounded
      omega
    have hemit := emitPhrase_extends h hroom hp hpp ph c
    rw [List.length_append, List.length_singleton] at hc
    rcases codeDefined_succ hc with (hbyte | href) | hkwk
    · obtain ⟨b, rfl⟩ := exists_byte hbyte
      obtain rfl := Option.some.inj ((phrase_byte ..).symm.trans hph)
      have hk : classify cfg b.toNat y.j = .lit b := classify_lit hwf b (.inr hroom)
      refine ⟨goesOn_of_classify hk nofun nofun, ?_⟩
      rw [hk, codewordStep, litStep, decide_eq_true hj]
      exact hemit
    · have hk : classify cfg c y.j = .ref c := classify_ref hwf hj hroom (hnext ▸ href)
      obtain ⟨ph', hph'⟩ := h.dict.phrase_defined (.inr href)
      obtain rfl := Option.some.inj ((phrase_append _ hph').symm.trans hph)
      refine ⟨goesOn_of_classify hk nofun nofun, ?_⟩
      rw [hk, codewordStep, refStep, hph']
      exact hemit
    · obtain rfl : c = nextCode cfg y.j := hkwk.trans hnext.symm
      have hk : classify cfg (nextCode cfg y.j) y.j = .kwk (nextCode cfg y.j) := classify_kwk hwf hj hroom
      refine ⟨goesOn_of_classify hk nofun nofun, ?_⟩
      rw [hk, codewordStep, kwkStep, hp]
      simp only [hpp, ← h.kwk_phrase hwf hp hpp hph]
      exact hemit

end Behind

/-! ## The codewords that the encoder has emitted -/

section Emitted

variable {cfg : Config} {bytes : List Byte} {done : List Nat} {c : Nat} {y z : Datapath}

theorem expandCodes_append (cfg : Config) (done cws : List Nat) (x : Datapath) :
    expandCodes cfg (done ++ cws) x = (expandCodes cfg done x).bind (expandCodes cfg cws) := by
  induction done generalizing x with
  | nil => rfl
  | cons c done ih =>
    rw [List.cons_append, expandCodes, expandCodes]
    cases codewordStep cfg (classify cfg c x.j) x with
    | error e => rfl
    | ok y => exact ih y

/-- `c` after `done` is the greedy choice for `bytes` (43_lzw_builder.md R152): its phrase is the longest of the
dictionary's that the rest of the input begins with, and the dictionary defines no pair twice (R155). -/
def Greedy (cfg : Config) (bytes : List Byte) (done : List Nat) (c : Nat) : Prop :=
  ∃ before now ph,
    expandCodes cfg done (Datapath.reset cfg) = .ok before ∧
    expandCodes cfg (done ++ [c]) (Datapath.reset cfg) = .ok now ∧
    phrase cfg now.dict c = some ph ∧ now.outBytes = before.outBytes ++ ph ∧ now.outBytes <+: bytes ∧
    (∀ k other, phrase cfg now.dict k = some other → before.outBytes ++ other <+: bytes →
      other.length ≤ ph.length) ∧
    now.dict.pairs.Nodup

/-- `done` ends with the codeword at index DICT_LIMIT - FIRST_FREE of its epoch (43_lzw_builder.md R154). -/
def EndsFull (cfg : Config) (done : List Nat) : Prop :=
  done ≠ [] ∧ indexAfter cfg 0 done.dropLast = cfg.dictLimit - cfg.firstFree

/-- The codewords `out` that the encoder may have emitted for a part of `bytes`, and the expander `y` after
executing them. -/
structure Emitted (cfg : Config) (bytes : List Byte) (out : List Nat) (y : Datapath) : Prop where
  opened : openCodes cfg 0 out = true
  ran : expandCodes cfg out (Datapath.reset cfg) = .ok y
  chosen : ∀ i c, out[i]? = some c →
    (c = cfg.resetCode → EndsFull cfg (out.take i)) ∧ (c ≠ cfg.resetCode → Greedy cfg bytes (out.take i) c)

theorem emitted_nil (cfg : Config) (bytes : List Byte) : Emitted cfg bytes [] (Datapath.reset cfg) where
  opened := rfl
  ran := rfl
  chosen := nofun

theorem Emitted.expander (h : Emitted cfg bytes done y) (hwf : cfg.wf = true) :
    ExpanderInv cfg y ∧ y.j = indexAfter cfg 0 done := by
  obtain ⟨y', hran, hinv⟩ := expandCodes_open hwf (expanderInv_reset hwf) h.opened
  rw [h.ran] at hran
  cases hran
  exact hinv

theorem Emitted.ran_concat (h : Emitted cfg bytes done y)
    (hstep : codewordStep cfg (classify cfg c y.j) y = .ok z) :
    expandCodes cfg (done ++ [c]) (Datapath.reset cfg) = .ok z := by
  rw [expandCodes_append, h.ran, Except.bind, expandCodes, hstep]
  rfl

/-- One more codeword. -/
theorem Emitted.concat (h : Emitted cfg bytes done y) (hwf : cfg.wf = true) (hgo : goesOn cfg c y.j)
    (hstep : codewordStep cfg (classify cfg c y.j) y = .ok z)
    (hreset : c = cfg.resetCode → EndsFull cfg done) (hdata : c ≠ cfg.resetCode → Greedy cfg bytes done c) :
    Emitted cfg bytes (done ++ [c]) z where
  opened := (openCodes_append ..).2 ⟨h.opened, openCodes_cons.2 ⟨(h.expander hwf).2 ▸ hgo, rfl⟩⟩
  ran := h.ran_concat hstep
  chosen := by
    intro i d hi
    rcases Nat.lt_or_ge i done.length with hlt | hge
    · rw [List.getElem?_append_left hlt] at hi
      rw [List.take_append_of_le_length hlt.le]
      exact h.chosen i d hi
    · rw [List.getElem?_append_right hge, List.getElem?_singleton] at hi
      obtain ⟨h0, hd⟩ := Option.ite_none_right_eq_some.1 hi
      obtain rfl : i = done.length := by omega
      cases hd
      rw [List.take_left]
      exact ⟨hreset, hdata⟩

theorem Emitted.reset (h : Emitted cfg bytes done y) (hwf : cfg.wf = true) (hfull : EndsFull cfg done) :
    Emitted cfg bytes (done ++ [cfg.resetCode]) (resetStep cfg y) := by
  have hk := classify_resetCode cfg y.j
  exact h.concat hwf (goesOn_of_classify hk nofun nofun) (by rw [hk]; rfl) (fun _ => hfull) (absurd rfl)

end Emitted

/-! ## The encoder between two bytes -/

section Matching

variable {cfg : Config} {bytes taken ph : List Byte} {x y : Datapath} {p : Nat} {b : Byte}

/-- The encoder `x` has taken `taken` of the input: the expander `y`, one codeword behind, has put out all of it but
the phrase `ph` of the candidate `p` (42_lzw_expander.md R139). -/
structure Matching (cfg : Config) (bytes taken : List Byte) (x : Datapath) (p : Nat) (ph : List Byte)
    (y : Datapath) : Prop where
  encoder : EncoderInv cfg x
  nodup : x.dict.pairs.Nodup
  cand : x.cand = some p
  candPhrase : phrase cfg x.dict p = some ph
  emitted : Emitted cfg bytes x.outCodes y
  behind : OneBehind cfg x.dict (ph.headD 0) y
  output : y.outBytes ++ ph = taken

theorem Matching.setCur (h : Matching cfg bytes taken x p ph y) (n : Nat) :
    Matching cfg bytes taken { x with cur := n } p ph y :=
  { h with encoder := { h.encoder with } }

theorem Matching.ph_ne_nil (h : Matching cfg bytes taken x p ph y) : ph ≠ [] := phraseFuel_ne_nil h.candPhrase

/-- No entry goes on from the candidate as the input does. -/
def Stops (bytes taken : List Byte) (dict : Dict) (p : Nat) : Prop :=
  ∀ e ∈ dict, e.parent = p → ¬taken ++ [e.suffix] <+: bytes

/-- Where the match stops, its phrase is the longest that the input goes on with. -/
theorem Matching.longest (h : Matching cfg bytes taken x p ph y) (hff : 256 ≤ cfg.firstFree)
    (htaken : taken <+: bytes) (hstop : Stops bytes taken x.dict p) {k : Nat} {other : List Byte}
    (hk : phrase cfg x.dict k = some other) (hother : y.outBytes ++ other <+: bytes) :
    other.length ≤ ph.length := by
  by_contra hlt
  have hpre : ph <+: other := by
    rw [← h.output] at htaken
    exact (List.prefix_append_right_inj _).1 (List.prefix_of_prefix_length_le htaken hother (by simp; omega))
  obtain ⟨_ | ⟨b, rest⟩, rfl⟩ := hpre
  · simp at hlt
  · have hnext : ph ++ [b] <+: ph ++ b :: rest := ⟨rest, by simp⟩
    obtain ⟨e, he, hparent, rfl⟩ := h.encoder.dict.entry_of_prefix hff h.ph_ne_nil hk hnext
    refine hstop e he (h.encoder.dict.phrase_inj hff h.nodup hparent h.candPhrase) ?_
    rw [← h.output, List.append_assoc]
    exact ((List.prefix_append_right_inj _).2 hnext).trans hother

/-- Where the match stops, the candidate is emitted, and the expander has the whole of `taken` and the encoder's
dictionary. -/
theorem Matching.emit (h : Matching cfg bytes taken x p ph y) (hwf : cfg.wf = true) (htaken : taken <+: bytes)
    (hstop : Stops bytes taken x.dict p) :
    Emitted cfg bytes (x.outCodes ++ [p]) (y.emitted cfg ph p x.dict) := by
  obtain ⟨hy, -⟩ := h.emitted.expander hwf
  obtain ⟨hgo, hstep⟩ := h.behind.executes hwf hy h.encoder.dict (h.encoder.cand p h.cand) h.candPhrase
  have hdata : p ≠ cfg.resetCode := by
    have := controlCodes hwf
    rcases h.encoder.cand p h.cand with hbyte | hcode <;> omega
  refine h.emitted.concat hwf hgo hstep (absurd · hdata) fun _ => ?_
  exact ⟨y, _, ph, h.emitted.ran, h.emitted.ran_concat hstep, h.candPhrase, rfl,
    show y.outBytes ++ ph <+: bytes from h.output ▸ htaken,
    fun k other => h.longest (firstFree_ge hwf) htaken hstop, h.nodup⟩

theorem stops_of_lookup (hnext : taken ++ [b] <+: bytes) (hk : lookup cfg x.dict p b = none) :
    Stops bytes taken x.dict p := by
  intro e he hp hsuffix
  have heq := List.prefix_of_prefix_length_le hsuffix hnext (by simp)
  have hbyte : e.suffix = b := by simpa using heq.eq_of_length (by simp)
  exact lookup_none hk he hp hbyte

/-- Where there is no code left to define, the candidate is the codeword after which RESET may stand. -/
theorem Matching.endsFull (h : Matching cfg bytes taken x p ph y) (hwf : cfg.wf = true)
    (hfull : ¬cfg.firstFree + x.j < cfg.dictLimit) : EndsFull cfg (x.outCodes ++ [p]) := by
  obtain ⟨hy, hindex⟩ := h.emitted.expander hwf
  have hlength := h.behind.length_eq hy
  have hcount := h.encoder.count
  have hbounded := h.encoder.dict.bounded
  refine ⟨by simp, ?_⟩
  rw [List.dropLast_concat, ← hindex]
  omega

/-- A byte takes the encoder from one match to the next (43_lzw_builder.md R152 to R154). -/
theorem Matching.step (h : Matching cfg bytes taken x p ph y) (hwf : cfg.wf = true)
    (hnext : taken ++ [b] <+: bytes) :
    ∃ x' p' ph' y', encodeByte cfg b x = .ok x' ∧ Matching cfg bytes (taken ++ [b]) x' p' ph' y' := by
  have hff := firstFree_ge hwf
  have hkeeps {x' : Datapath} := (encodeByte_keeps b hwf h.encoder).ensures x'
  have htaken : taken <+: bytes := (List.prefix_append _ _).trans hnext
  cases hk : lookup cfg x.dict p b with
  | some k =>
    have hstep := encodeByte_extend h.cand hk
    refine ⟨_, k, ph ++ [b], y, hstep, ?_⟩
    exact {
      encoder := hkeeps hstep
      nodup := h.nodup
      cand := rfl
      candPhrase := h.encoder.dict.phrase_lookup hff h.candPhrase hk
      emitted := h.emitted
      behind := (headD_concat h.ph_ne_nil b).symm ▸ h.behind
      output := by rw [← List.append_assoc, h.output] }
  | none =>
    have hemitted := h.emit hwf htaken (stops_of_lookup hnext hk)
    by_cases hroom : cfg.firstFree + x.j < cfg.dictLimit
    · have hstep := encodeByte_emitDefine h.encoder h.cand hk hroom h.candPhrase
      refine ⟨_, b.toNat, [b], y.emitted cfg ph p x.dict, hstep, ?_⟩
      exact {
        encoder := hkeeps hstep
        nodup := pairs_concat_nodup ph h.nodup hk
        cand := rfl
        candPhrase := phrase_byte ..
        emitted := hemitted
        behind := .inr ⟨p, ph, rfl, h.candPhrase, rfl⟩
        output := congrArg (· ++ [b]) h.output }
    · have hstep := encodeByte_emitReset h.cand hk hroom
      refine ⟨_, b.toNat, [b], resetStep cfg (y.emitted cfg ph p x.dict), hstep, ?_⟩
      exact {
        encoder := hkeeps hstep
        nodup := List.nodup_nil
        cand := rfl
        candPhrase := phrase_byte ..
        emitted := hemitted.reset hwf (h.endsFull hwf hroom)
        behind := .inl ⟨rfl, rfl⟩
        output := congrArg (· ++ [b]) h.output }

/-- The encoder's loop over the rest of the input. -/
theorem Matching.loop {rest : List Byte} (h : Matching cfg bytes taken x p ph y) (hwf : cfg.wf = true)
    (hrest : taken ++ rest = bytes) :
    ∃ x' p' ph' y', encodeLoop cfg rest x = .ok x' ∧ Matching cfg bytes bytes x' p' ph' y' := by
  induction rest generalizing taken x p ph y with
  | nil =>
    obtain rfl : taken = bytes := (List.append_nil _).symm.trans hrest
    exact ⟨x, p, ph, y, rfl, h⟩
  | cons b rest ih =>
    have hrest : taken ++ [b] ++ rest = bytes := by rw [← hrest, List.append_assoc, List.singleton_append]
    obtain ⟨x', p', ph', y', hstep, h'⟩ := h.step hwf ⟨rest, hrest⟩
    rw [encodeLoop_cons hstep]
    exact ih (h'.setCur _) hrest

/-- START on the first byte (43_lzw_builder.md R151). -/
theorem matching_start (hwf : cfg.wf = true) (bytes : List Byte) (b : Byte) :
    Matching cfg bytes [b] (actStart b (Datapath.reset cfg)) b.toNat [b] (Datapath.reset cfg) where
  encoder := actStart_keeps b (encoderInv_reset hwf)
  nodup := List.nodup_nil
  cand := rfl
  candPhrase := phrase_byte ..
  emitted := emitted_nil cfg bytes
  behind := .inl ⟨rfl, rfl⟩
  output := rfl

end Matching

/-! ## The whole output -/

section Compress

variable {cfg : Config} {done : List Nat} {j : Nat}

/-- `compressLZW` emits codewords that the expander turns back into the input, and END (43_lzw_builder.md R159,
R160). -/
theorem compressLZW_emitted (hwf : cfg.wf = true) (bytes : List Byte) :
    ∃ done y, compressLZW cfg bytes = .ok (done ++ [cfg.endCode]) ∧ Emitted cfg bytes done y ∧
      y.outBytes = bytes := by
  cases bytes with
  | nil => exact ⟨[], _, rfl, emitted_nil cfg [], rfl⟩
  | cons b rest =>
    obtain ⟨x, p, ph, y, hloop, h⟩ := ((matching_start hwf (b :: rest) b).setCur 1).loop hwf rfl
    have hstop : Stops (b :: rest) (b :: rest) x.dict p := fun e _ _ hlong => by
      simpa using hlong.length_le
    refine ⟨x.outCodes ++ [p], _, ?_, h.emit hwf (List.prefix_refl _) hstop, h.output⟩
    rw [compressLZW_cons, hloop]
    simp only [Except.map, actFlush, h.cand]
    rfl

/-- END after a list that a stream may have begun with. -/
theorem wellFormedCodes_open_end (hwf : cfg.wf = true) (h : openCodes cfg j done = true) :
    wellFormedCodes cfg j (done ++ [cfg.endCode]) = true := by
  induction done generalizing j with
  | nil => exact wellFormedCodes_cons.2 (.inl ⟨classify_endCode hwf j, rfl⟩)
  | cons c done ih =>
    obtain ⟨hgo, hopen⟩ := openCodes_cons.1 h
    exact wellFormedCodes_cons.2 (.inr ⟨hgo, ih hopen⟩)

theorem endCode_notMem_open (hwf : cfg.wf = true) (h : openCodes cfg j done = true) : cfg.endCode ∉ done := by
  induction done generalizing j with
  | nil => exact List.not_mem_nil
  | cons c done ih =>
    obtain ⟨⟨-, hend⟩, hopen⟩ := openCodes_cons.1 h
    exact List.not_mem_cons_of_ne_of_not_mem (fun heq => hend (heq ▸ classify_endCode hwf j)) (ih hopen)

end Compress

/-- Settles O29: the expander has put out the whole input when it reads END. -/
theorem lzwRoundTrip : Obligations.LzwRoundTrip := by
  intro cfg bytes hwf
  obtain ⟨done, y, hcompress, h, hout⟩ := compressLZW_emitted hwf bytes
  obtain ⟨y', hran, -, -, hloop⟩ := decompressLZW_open hwf h.opened
  refine ⟨_, hcompress, ?_⟩
  obtain rfl : y = y' := Except.ok.inj (h.ran.symm.trans hran)
  rw [hloop, expand_endCode hwf, ← hout]
  rfl

/-- Settles O28: every codeword but END was emitted where its match stopped, or is a RESET after the last code. -/
theorem encoderOutputWellFormed : Obligations.EncoderOutputWellFormed := by
  intro cfg bytes hwf
  obtain ⟨done, y, hcompress, h, -⟩ := compressLZW_emitted hwf bytes
  have hwell := wellFormedCodes_open_end hwf h.opened
  obtain ⟨hne, -⟩ := controlCodes hwf
  have hbody {i c : Nat} (hi : (done ++ [cfg.endCode])[i]? = some c) (hc : c ≠ cfg.endCode) :
      i < done.length ∧ done[i]? = some c := by
    rcases Nat.lt_or_ge i done.length with hlt | hge
    · exact ⟨hlt, (List.getElem?_append_left hlt).symm.trans hi⟩
    · rw [List.getElem?_append_right hge] at hi
      exact absurd (List.mem_singleton.1 (List.mem_of_getElem? hi)) hc
  refine ⟨_, hcompress, hwell, List.getLast?_concat, ?once, fun i hi => ?reset, structuralRoundTrip cfg _ hwf hwell,
    fun i c hi hr hc => ?data⟩
  case once =>
    rw [List.count_append, List.count_eq_zero.2 (endCode_notMem_open hwf h.opened), List.count_singleton_self]
  case reset =>
    obtain ⟨hlt, hi⟩ := hbody hi hne
    obtain ⟨hnonempty, hindex⟩ := (h.chosen i _ hi).1 rfl
    have hpos : i ≠ 0 := fun h0 => hnonempty (by rw [h0, List.take_zero])
    rw [List.dropLast_take hlt] at hindex
    rw [List.take_append_of_le_length (by omega)]
    exact ⟨Nat.one_le_iff_ne_zero.2 hpos, hindex⟩
  case data =>
    obtain ⟨hlt, hi⟩ := hbody hi hc
    rw [List.take_append_of_le_length hlt.le, List.take_append_of_le_length hlt, List.take_add_one, hi]
    exact (h.chosen i c hi).2 hr

/-- Settles O30: the encoder, run on the two inputs; the way back is the round-trip laws. -/
theorem boundaryScenarios : Obligations.BoundaryScenarios := by
  refine ⟨fun cfg hwf => ?_, rfl⟩
  have hdecode {bytes : List Byte} {cws : List Nat} (hcws : compressLZW cfg bytes = .ok cws) :
      decompressLZW cfg cws = .ok bytes := by
    obtain ⟨cws', hcompress, hback⟩ := lzwRoundTrip cfg bytes hwf
    rw [hcws] at hcompress
    cases hcompress
    exact hback
  have hempty : compressLZW cfg [] = .ok [cfg.endCode] := rfl
  have htwo : compressLZW cfg [0x41, 0x41] = .ok [0x041, 0x041, cfg.endCode] := by
    have hroom : cfg.firstFree + 0 < cfg.dictLimit := firstFree_lt_dictLimit hwf
    have h := (matching_start hwf [0x41, 0x41] 0x41).setCur 1
    rw [compressLZW_cons, encodeLoop_cons (encodeByte_emitDefine h.encoder h.cand rfl hroom h.candPhrase)]
    rfl
  refine ⟨hempty, hdecode hempty, rfl, ?_, htwo, hdecode htwo⟩
  have hwell : wellFormedCodes cfg 0 [cfg.endCode] = true := wellFormedCodes_open_end hwf (done := []) rfl
  obtain ⟨buf, hpack, hread⟩ := structuralRoundTrip cfg [cfg.endCode] hwf hwell
  refine ⟨buf, hpack, hpack, ?_⟩
  rw [decompress, hread]
  simp only [bind, Except.bind, hdecode hempty]
  rfl

end Sys2Proof.Machine

namespace Sys2Proof.Machine

/-! ## compressRLE by runs

A maximal run at the front is encoded by `emitRun`, and the rest of the input on its own (44_rle.md R175). -/

section CompressRuns

variable {cfg : Config}

/-- What the registers have output stays in front; of the others only the run in RUNB and RUNL bears on the
output. -/
theorem endRun_foldl_runByte (cfg : Config) (ys : List Byte) (x : Datapath) :
    (endRun cfg (ys.foldl (runByte cfg) x)).outBytes =
      x.outBytes ++ (endRun cfg (ys.foldl (runByte cfg)
        { Datapath.reset cfg with runb := x.runb, runl := x.runl })).outBytes := by
  induction ys generalizing x with
  | nil => simp [endRun]
  | cons c ys ih =>
    rw [List.foldl_cons, List.foldl_cons, ih, ih (runByte cfg { Datapath.reset cfg with runb := _, runl := _ } c)]
    by_cases hl : x.runl = 0
    · simp [runByte, hl]
    · by_cases hc : c = x.runb
      · simp [runByte, hl, hc]
      · simp [runByte, endRun, hl, hc]

/-- The registers after a run at the front of the input. -/
theorem foldl_runByte_run (cfg : Config) {len : Nat} (b : Byte) (h : 1 ≤ len) :
    (List.replicate len b).foldl (runByte cfg) (Datapath.reset cfg) =
      { Datapath.reset cfg with runb := b, runl := len, cur := len } := by
  obtain ⟨n, rfl⟩ := Nat.exists_eq_add_of_le' h
  have hrun := foldl_runByte_replicate cfg n { Datapath.reset cfg with runb := b, runl := 1, cur := 1 } Nat.one_ne_zero
  rw [List.replicate_succ, List.foldl_cons]
  refine hrun.trans ?_
  simp only [Nat.add_comm 1]

theorem compressRLE_run {len : Nat} {b : Byte} {rest : List Byte} (hlen : 1 ≤ len) (hrest : rest.head? ≠ some b) :
    compressRLE cfg (List.replicate len b ++ rest) = emitRun cfg b len ++ compressRLE cfg rest := by
  rw [compressRLE, List.foldl_append, foldl_runByte_run cfg b hlen]
  cases rest with
  | nil => exact (List.append_nil _).symm
  | cons c rest =>
    have hc : c ≠ b := fun h => hrest (congrArg some h)
    rw [List.foldl_cons, endRun_foldl_runByte]
    simp only [runByte, if_neg (Nat.ne_zero_of_lt hlen), if_neg hc]
    -- the rest alone starts with the same run, and differs in CUR, which no output depends on
    rw [compressRLE, List.foldl_cons, endRun_foldl_runByte cfg rest (runByte cfg (Datapath.reset cfg) c)]
    rfl

/-- A list is its maximal runs, one after another. -/
theorem runInduction {P : List Byte → Prop} (nil : P [])
    (run : ∀ len b rest, 1 ≤ len → rest.head? ≠ some b → P rest → P (List.replicate len b ++ rest))
    (ys : List Byte) : P ys := by
  suffices h : ∀ len b, P (List.replicate len b ++ ys) from h 0 0
  induction ys with
  | nil =>
    intro len b
    rcases Nat.eq_zero_or_pos len with rfl | hlen
    · exact nil
    · exact run len b [] hlen nofun nil
  | cons c ys ih =>
    intro len b
    rcases Nat.eq_zero_or_pos len with rfl | hlen
    · exact ih 1 c
    · by_cases hc : c = b
      · subst hc
        rw [← List.singleton_append, ← List.append_assoc, ← List.replicate_succ']
        exact ih (len + 1) c
      · exact run len b (c :: ys) hlen (fun h => hc (Option.some.inj h)) (ih 1 c)

/-- Only the size of a chunk and the marker decide whether it is an escape (44_rle.md R177 and R178). -/
theorem emitChunk_eq (hwf : cfg.wf = true) (b : Byte) (c : Nat) :
    emitChunk cfg b c =
      if b = cfg.rleMarker ∨ cfg.rleMinRun ≤ c then [cfg.rleMarker, BitVec.ofNat 8 c, b] else List.replicate c b := by
  rw [emitChunk, (rleRange hwf).1, Nat.sub_zero]

theorem emitChunk_escape {c : Nat} (hwf : cfg.wf = true) (b : Byte) (h : cfg.rleMinRun ≤ c) :
    emitChunk cfg b c = [cfg.rleMarker, BitVec.ofNat 8 c, b] := by
  rw [emitChunk_eq hwf, if_pos (.inr h)]

theorem emitRun_chunk {c : Nat} (b : Byte) (hpos : 1 ≤ c) (hc : c ≤ cfg.rleMaxRun) :
    emitRun cfg b c = emitChunk cfg b c := by
  obtain ⟨n, rfl⟩ := Nat.exists_eq_add_of_le' hpos
  rw [emitRun, emitRunFuel, if_neg (Nat.succ_ne_zero n), min_eq_left hc, Nat.sub_self]
  cases n <;> simp [emitRunFuel]

end CompressRuns

/-! ## Relations that hold chunk by chunk

A relation between a code and what it encodes that joins along `++` needs checking on one chunk only: then it
holds of a run, and of every input. -/

/-- `R` holds of every chunk that the encoder can write, and joins along `++`. -/
structure Chunkwise (cfg : Config) (R : List Byte → List Byte → Prop) : Prop where
  nil : R [] []
  append {bs ys bs' ys' : List Byte} : R bs ys → R bs' ys' → R (bs ++ bs') (ys ++ ys')
  chunk (b : Byte) (c : Nat) : 1 ≤ c → c ≤ cfg.rleMaxRun → R (emitChunk cfg b c) (List.replicate c b)

section Chunkwise

variable {cfg : Config} {R : List Byte → List Byte → Prop}

theorem Chunkwise.rel_emitRunFuel (h : Chunkwise cfg R) (hmax : 0 < cfg.rleMaxRun) (b : Byte) {fuel len : Nat}
    (hfuel : len ≤ fuel) : R (emitRunFuel cfg b fuel len) (List.replicate len b) := by
  induction fuel generalizing len with
  | zero =>
    obtain rfl : len = 0 := by omega
    exact h.nil
  | succ fuel ih =>
    rcases Nat.eq_zero_or_pos len with rfl | hpos
    · exact h.nil
    · have hsplit : List.replicate len b =
          List.replicate (min len cfg.rleMaxRun) b ++ List.replicate (len - min len cfg.rleMaxRun) b := by
        rw [← List.replicate_add, Nat.add_sub_cancel' (Nat.min_le_left _ _)]
      rw [emitRunFuel, if_neg hpos.ne', hsplit]
      exact h.append (h.chunk b _ (by omega) (Nat.min_le_right _ _)) (ih (by omega))

theorem Chunkwise.rel_compressRLE (h : Chunkwise cfg R) (hwf : cfg.wf = true) (ys : List Byte) :
    R (compressRLE cfg ys) ys := by
  obtain ⟨-, hmin, hle, -⟩ := rleRange hwf
  induction ys using runInduction with
  | nil => exact h.nil
  | run len b rest hlen hrest ih =>
    rw [compressRLE_run hlen hrest]
    exact h.append (h.rel_emitRunFuel (by omega) b le_rfl) ih

end Chunkwise

/-! ## What the encoder's output expands to -/

section Encodes

variable {cfg : Config} {bs bs' ys ys' : List Byte}

/-- `bs` is a sequence of valid tokens that expands to `ys`. -/
def Encodes (cfg : Config) (bs ys : List Byte) : Prop :=
  ∃ ts : List Token, (∀ t ∈ ts, Token.valid cfg t = true) ∧ ts.flatMap (Token.bytes cfg) = bs ∧
    ts.flatMap Token.expansion = ys

theorem decompressRLE_of_encodes (hwf : cfg.wf = true) (h : Encodes cfg bs ys) : decompressRLE cfg bs = .ok ys := by
  obtain ⟨ts, hvalid, rfl, rfl⟩ := h
  exact decompressRLE_tokens hwf hvalid

theorem encodes_nil : Encodes cfg [] [] := ⟨[], nofun, rfl, rfl⟩

theorem Encodes.append (h : Encodes cfg bs ys) (h' : Encodes cfg bs' ys') : Encodes cfg (bs ++ bs') (ys ++ ys') := by
  obtain ⟨ts, hvalid, rfl, rfl⟩ := h
  obtain ⟨ts', hvalid', rfl, rfl⟩ := h'
  exact ⟨ts ++ ts', List.forall_mem_append.2 ⟨hvalid, hvalid'⟩, List.flatMap_append, List.flatMap_append⟩

theorem encodes_escape (cfg : Config) (b : Byte) {c : Nat} (hpos : 1 ≤ c) (hc : c ≤ 255) :
    Encodes cfg [cfg.rleMarker, BitVec.ofNat 8 c, b] (List.replicate c b) := by
  have hnat : (BitVec.ofNat 8 c).toNat = c := Nat.mod_eq_of_lt (by omega)
  have hne : BitVec.ofNat 8 c ≠ 0 := fun h0 => Nat.ne_zero_of_lt hpos (hnat.symm.trans (congrArg BitVec.toNat h0))
  refine ⟨[.esc (.whole (BitVec.ofNat 8 c) b)], List.forall_mem_singleton.2 (decide_eq_true hne), rfl, ?_⟩
  rw [List.flatMap_singleton, Token.expansion, hnat]

theorem encodes_literals {b : Byte} (c : Nat) (hb : b ≠ cfg.rleMarker) :
    Encodes cfg (List.replicate c b) (List.replicate c b) := by
  refine ⟨List.replicate c (.rlit b), fun t ht => ?_, ?_, ?_⟩
  · rw [List.eq_of_mem_replicate ht]
    exact decide_eq_true hb
  all_goals exact List.flatMap_replicate.trans List.flatten_replicate_singleton

theorem encodes_emitChunk (hwf : cfg.wf = true) (b : Byte) (c : Nat) (hpos : 1 ≤ c) (hc : c ≤ cfg.rleMaxRun) :
    Encodes cfg (emitChunk cfg b c) (List.replicate c b) := by
  obtain ⟨-, -, -, hmax⟩ := rleRange hwf
  rw [emitChunk_eq hwf]
  split
  case isTrue => exact encodes_escape cfg b hpos (by omega)
  case isFalse h => exact encodes_literals c fun hb => h (.inl hb)

theorem chunkwise_encodes (hwf : cfg.wf = true) : Chunkwise cfg (Encodes cfg) where
  nil := encodes_nil
  append := Encodes.append
  chunk := encodes_emitChunk hwf

end Encodes

/-- Settles O37: each chunk is a list of valid tokens that expands to it, so the whole output is one. -/
theorem rleRoundTrip : Obligations.RleRoundTrip := by
  intro cfg bytes hwf
  exact decompressRLE_of_encodes hwf ((chunkwise_encodes hwf).rel_compressRLE hwf bytes)

/-- Settles O36: a maximal run is encoded on its own, as its full chunks and what remains. -/
theorem rleEncodesMaximalRuns : Obligations.RleEncodesMaximalRuns := by
  intro cfg b len rest hwf hlen hrest
  obtain ⟨-, hmin, hle, -⟩ := rleRange hwf
  rw [compressRLE_run hlen hrest, emitRun_eq_runChunks (by omega), runChunks, emitChunk_escape hwf b hle,
    emitChunk_eq hwf]
  simp only [Nat.pos_iff_ne_zero, ite_not]

/-- Settles O38: 200 copies are one chunk, and the way back is the round-trip law. -/
theorem rleScenario : Obligations.RleScenario := by
  intro cfg v hwf hmin hmax
  have hcompress : compressRLE cfg (List.replicate 200 v) = [cfg.rleMarker, 200, v] := by
    rw [compressRLE_replicate v (by decide), emitRun_chunk v (by decide) hmax, emitChunk_escape hwf v hmin]
    rfl
  exact ⟨hcompress, hcompress ▸ rleRoundTrip cfg _ hwf⟩

/-! ## The size of the encoder's output -/

/-- The size bounds of 44_rle.md R183, for a code `bs` of the input `ys`. -/
def SizeBounds (cfg : Config) (bs ys : List Byte) : Prop :=
  bs.length ≤ 3 * ys.length ∧ (cfg.rleMarker ∉ ys → bs.length ≤ ys.length)

theorem SizeBounds.append {cfg : Config} {bs ys bs' ys' : List Byte} (h : SizeBounds cfg bs ys)
    (h' : SizeBounds cfg bs' ys') : SizeBounds cfg (bs ++ bs') (ys ++ ys') := by
  obtain ⟨h3, h1⟩ := h
  obtain ⟨h3', h1'⟩ := h'
  simp only [SizeBounds, List.length_append, List.mem_append, not_or]
  exact ⟨by omega, fun ⟨hm, hm'⟩ => Nat.add_le_add (h1 hm) (h1' hm')⟩

/-- An escape is 3 bytes for at least one, and for at least 4 where its byte is not the marker. -/
theorem sizeBounds_emitChunk {cfg : Config} (hwf : cfg.wf = true) (b : Byte) (c : Nat) (hpos : 1 ≤ c) :
    SizeBounds cfg (emitChunk cfg b c) (List.replicate c b) := by
  obtain ⟨-, hmin, -, -⟩ := rleRange hwf
  have hmarker : cfg.rleMarker ∉ List.replicate c b → b ≠ cfg.rleMarker := fun hm hb =>
    hm (List.mem_replicate.2 ⟨by omega, hb.symm⟩)
  rw [SizeBounds, emitChunk_eq hwf, List.length_replicate]
  split
  case isTrue h =>
    refine ⟨Nat.mul_le_mul_left 3 hpos, fun hm => ?_⟩
    have := h.resolve_left (hmarker hm)
    exact (by omega : 3 ≤ c)
  case isFalse =>
    rw [List.length_replicate]
    exact ⟨by omega, fun _ => le_rfl⟩

theorem chunkwise_sizeBounds {cfg : Config} (hwf : cfg.wf = true) : Chunkwise cfg (SizeBounds cfg) where
  nil := ⟨le_rfl, fun _ => le_rfl⟩
  append := SizeBounds.append
  chunk b c hpos _ := sizeBounds_emitChunk hwf b c hpos

/-- Settles O39: the bounds hold of each chunk, so of the whole output. -/
theorem rleSizeBounds : Obligations.RleSizeBounds := by
  intro cfg bytes hwf
  exact (chunkwise_sizeBounds hwf).rel_compressRLE hwf bytes

/-! ## The RLE tokens -/

/-- Settles O32, by the token: a literal, a valid escape, and the two errors in the order of R172. -/
theorem rleTokensComplete : Obligations.RleTokensComplete := by
  intro s hwf
  refine ⟨fun b => rfl, fun n f hn => ?whole, fun f => ?zero, fun n => ?cut⟩
  case whole =>
    rw [exec, execEsc, escStep_whole hwf f s.dp hn, advance_ok]
    simp [Datapath.afterTokens, Token.expansion, Token.bytes, EscBody.bytes]
  case zero =>
    have hstep : escStep s.cfg (.whole 0 f) s.dp = raise .rleZeroCount .byte s.dp.cur := by
      simp [escStep, (rleRange hwf).1]
    rw [exec, execEsc, hstep, advance_raise]
    exact congrArg _ (raiseError_eq_afterError _ _ _ (by decide))
  case cut =>
    rw [exec, execEsc, escStep, advance_raise]
    exact congrArg _ (raiseError_eq_afterError _ _ _ (by decide))

end Sys2Proof.Machine

namespace Sys2Proof.Machine

/-! ## Commands that end in the epilogue

All commands but READ_BITS, WRITE_BITS, SOFT_RESET and the reserved OPCODEs are the prologue, an operation, and the
epilogue on its output (45_commands.md R192, R194 and R195). -/

/-- Error completion with the ERR word of the error (60_exceptions.md R231). -/
theorem raiseError_eq (keep : Bool) (e : Err) (s : State) :
    raiseError keep e s = afterError keep (errWord e) e.pos s := rfl

section Epilogue

variable {s : State} {output : List Byte}

theorem finish_prologue_raise {cause : Cause} {unit : PosUnit} {word : Word} (keep : Bool) (pos : Nat) (s : State)
    (hword : errWord ⟨cause, unit, 0⟩ = word) :
    finish keep (prologue s) (raise cause unit pos) = .next (afterError keep word pos s) :=
  congrArg _ (raiseError_eq_afterError keep pos s hword)

/-- An output that fits is delivered (45_commands.md R195). -/
theorem finish_deliver_fits (h : output.length ≤ s.cfg.outCap) :
    finish false (prologue s) (deliver output none (prologue s)) = .next (delivered output s) :=
  congrArg (finish false (prologue s)) (deliver_delivered (s := prologue s) rfl rfl h)

/-- An output that fits is delivered, and BYTES_READ is reported. -/
theorem finish_report_fits (n : Nat) (h : output.length ≤ s.cfg.outCap) :
    finish false (prologue s) (deliver output (some n) (prologue s)) =
      .next { delivered output s with bytesRead := BitVec.ofNat 32 n } :=
  congrArg (finish false (prologue s)) (deliver_fits (s := prologue s) (some n) h)

/-- An output that does not fit is OUTPUT_FULL. -/
theorem finish_deliver_full (n : Option Nat) (h : s.cfg.outCap < output.length) :
    finish false (prologue s) (deliver output n (prologue s)) =
      .next (afterError false 0x00031401 s.cfg.outCap s) := by
  rw [deliver_full (s := prologue s) n h]
  exact finish_prologue_raise _ _ _ (by decide)

end Epilogue

/-! ### Commands that read IN_BUF -/

/-- A command that checks IN_LEN, runs an operation on IN_BUF and delivers its output. -/
def inputCommand (codewords : Bool) (r : Except Stop (List Byte)) (s : State) : Host.Outcome State Fault Refusal :=
  finish false (prologue s)
    ((checkInput codewords s).bind fun _ => r.bind fun output => deliver output none (prologue s))

theorem exec_packCodewords (s : State) :
    exec .packCodewords s = inputCommand true (packCodewords s.cfg (inCodes s)) s := rfl

theorem exec_lzwDecode (s : State) :
    exec .lzwDecode s = inputCommand true (decompressLZW s.cfg (inCodes s)) s := rfl

theorem exec_lzwEncode (s : State) :
    exec .lzwEncode s = inputCommand false ((compressLZW s.cfg (inBytes s)).map words16LE) s := by
  rw [exec, execLzwEncode, inputCommand, prologue_cfg, inBytes_prologue]
  cases compressLZW s.cfg (inBytes s) <;> rfl

theorem exec_rleDecode (s : State) :
    exec .rleDecode s = inputCommand false (decompressRLE s.cfg (inBytes s)) s := rfl

theorem exec_rleEncode (s : State) :
    exec .rleEncode s = inputCommand false (.ok (compressRLE s.cfg (inBytes s))) s := rfl

theorem exec_compress (s : State) :
    exec .compress s = inputCommand false (compress s.cfg (inBytes s)) s := rfl

section InputCommand

variable {codewords : Bool} {s : State}

theorem inputCommand_operand (r : Except Stop (List Byte))
    (h : checkInput codewords s = raise .operandOutOfRange .nothing 0) :
    inputCommand codewords r s = .next (afterError false 0x00004204 0 s) := by
  rw [inputCommand, h]
  exact finish_prologue_raise _ _ _ (by decide)

theorem inputCommand_raise {cause : Cause} {unit : PosUnit} {word : Word} (pos : Nat)
    (h : checkInput codewords s = .ok ()) (hword : errWord ⟨cause, unit, 0⟩ = word) :
    inputCommand codewords (raise cause unit pos) s = .next (afterError false word pos s) := by
  rw [inputCommand, h]
  exact finish_prologue_raise _ _ _ hword

theorem inputCommand_fits {output : List Byte} (h : checkInput codewords s = .ok ())
    (hfits : output.length ≤ s.cfg.outCap) :
    inputCommand codewords (.ok output) s = .next (delivered output s) := by
  rw [inputCommand, h]
  exact finish_deliver_fits hfits

theorem inputCommand_full {output : List Byte} (h : checkInput codewords s = .ok ())
    (hfull : s.cfg.outCap < output.length) :
    inputCommand codewords (.ok output) s = .next (afterError false 0x00031401 s.cfg.outCap s) := by
  rw [inputCommand, h]
  exact finish_deliver_full none hfull

/-- The operand checks of a command that reads codewords (45_commands.md R194). -/
theorem checkInput_codes_bad (h : s.cfg.inCap < s.inLen.toNat ∨ s.inLen.toNat % 2 = 1) :
    checkInput true s = raise .operandOutOfRange .nothing 0 :=
  h.elim (checkInput_over true) checkInput_odd

end InputCommand

/-! ### Commands that read IMAGE -/

/-- A command that runs an operation on IMAGE, delivers its output and reports BYTES_READ. -/
def imageCommand (r : Except Stop (List Byte × Nat)) (s : State) : Host.Outcome State Fault Refusal :=
  finish false (prologue s) (r.bind fun out => deliver out.1 (some out.2) (prologue s))

theorem exec_readCodewords (s : State) :
    exec .readCodewords s =
      imageCommand
        ((readCodewords s.cfg (imageBytes s) s.argOffset.toNat).map fun out => (words16LE out.1, out.2)) s := by
  rw [imageCommand, exec, execReadCodewords, prologue_cfg, imageBytes_prologue, prologue_argOffset]
  cases readCodewords s.cfg (imageBytes s) s.argOffset.toNat <;> rfl

theorem exec_decompress (s : State) :
    exec .decompress s = imageCommand (decompress s.cfg (imageBytes s) s.argOffset.toNat) s := rfl

/-- Where the reader and the expander have results, the rest is the RLE decoder's (45_commands.md R190). -/
theorem decompress_of_stages {cfg : Config} {image y : List Byte} {offset n : Nat} {cws : List Nat}
    (hread : readCodewords cfg image offset = .ok (cws, n)) (hlzw : decompressLZW cfg cws = .ok y) :
    decompress cfg image offset = (decompressRLE cfg y).map fun raw => (raw, n) := by
  rw [decompress, hread]
  simp only [bind, Except.bind, hlzw]
  cases decompressRLE cfg y <;> rfl

theorem compress_of_encoded {cfg : Config} {raw : List Byte} {cws : List Nat}
    (hlzw : compressLZW cfg (compressRLE cfg raw) = .ok cws) : compress cfg raw = packCodewords cfg cws := by
  rw [compress, hlzw]
  rfl

/-! ### The commands with one outcome after their operation -/

/-- Settles O44: it is reset() in every state, and the prologue's writes are among its own. -/
theorem softResetCompletes : Obligations.SoftResetCompletes := fun _ => rfl

/-- Settles O35: past its check the encoding goes to the epilogue. -/
theorem rleEncodeCompletes : Obligations.RleEncodeCompletes := by
  intro s
  rw [exec_rleEncode]
  exact ⟨fun hcap => inputCommand_fits (checkInput_bytes hcap), fun hcap => inputCommand_full (checkInput_bytes hcap),
    fun hover => inputCommand_operand _ (checkInput_over false hover)⟩

/-- Settles O12: the reader returns the list that the view begins with. -/
theorem readCodewordsCompletes : Obligations.ReadCodewordsCompletes := by
  intro s cws hwf hoffset hcws hholds hfits
  have hread := readCodewords_wellFormed hwf (by simpa using hoffset) hcws hholds
  rw [exec_readCodewords, hread]
  exact finish_report_fits _ (by rwa [words16LE_length])

/-- Settles O40: the three stages are the operation. -/
theorem decompressCompletes : Obligations.DecompressCompletes := by
  intro s cws n y raw hread hlzw hrle hfits
  rw [exec_decompress, decompress_of_stages hread hlzw, hrle]
  exact finish_report_fits n hfits

end Sys2Proof.Machine

namespace Sys2Proof.Machine

/-! ## What the reader returns -/

section Reader

variable {cfg : Config}

/-- The codewords of a loop that returns are valid where they stand, up to an END (41_codeword_stream.md R115). -/
theorem readLoop_wellFormed (cfg : Config) (buf : List Byte) (fuel : Nat) (x : Datapath) :
    Ensures (fun y => ∃ cws, y.outCodes = x.outCodes ++ cws ∧ wellFormedCodes cfg x.j cws = true)
      (readLoop cfg buf fuel x) := by
  induction fuel generalizing x with
  | zero => exact ensures_raise _ _ _
  | succ fuel ih =>
    rcases Nat.lt_or_ge (8 * buf.length) (x.cur + widthAt cfg x.j) with hpast | hfit
    · exact readLoop_past fuel hpast ▸ ensures_raise _ _ _
    obtain ⟨c, hread⟩ : ∃ c, readBits cfg buf x.cur (widthAt cfg x.j) = .ok (c, x.cur + widthAt cfg x.j) :=
      ⟨_, if_neg (Nat.not_lt.2 hfit)⟩
    by_cases hgo : goesOn cfg c x.j
    · rw [readLoop_goesOn fuel hread hgo]
      intro y hy
      obtain ⟨cws, hcodes, hcws⟩ := ih _ y hy
      refine ⟨c :: cws, ?_, wellFormedCodes_cons.2 (.inr ⟨hgo, hcws⟩)⟩
      simpa [readCode] using hcodes
    · by_cases hend : classify cfg c x.j = .endStream
      · rw [readLoop_endStream fuel hread hend]
        exact ensures_ok ⟨[c], rfl, wellFormedCodes_cons.2 (.inl ⟨hend, rfl⟩)⟩
      · obtain ⟨cause, hk⟩ : ∃ cause, classify cfg c x.j = .invalid c cause := by
          simpa [goesOn, hend] using hgo
        exact readLoop_invalid fuel hread hk ▸ ensures_raise _ _ _

/-- The reader returns only lists that are valid up to an END. -/
theorem readCodewords_wellFormedCodes {image : List Byte} {offset n : Nat} {cws : List Nat}
    (h : readCodewords cfg image offset = .ok (cws, n)) : wellFormedCodes cfg 0 cws = true := by
  have hreader : Ensures (fun r => wellFormedCodes cfg 0 r.1 = true) (readCodewords cfg image offset) := by
    refine ensures_ite (fun _ => ensures_raise _ _ _) fun _ => ?_
    refine (readLoop_wellFormed _ _ _ _).map fun x hx => ?_
    obtain ⟨cws, hcodes, hcws⟩ := hx
    exact hcodes ▸ hcws
  exact hreader _ h

/-- A valid codeword is a Code (00_scope.md R9). -/
theorem lt_of_fitsWidths (hwf : cfg.wf = true) {j : Nat} {cws : List Nat} (h : fitsWidths cfg j cws = true) :
    ∀ c ∈ cws, c < 2 ^ 16 := by
  induction cws generalizing j with
  | nil => exact nofun
  | cons c cws ih =>
    obtain ⟨hc, hcws⟩ := Bool.and_eq_true_iff.1 h
    have hmax : widthAt cfg j ≤ 16 := by
      simp only [Config.wf, decide_eq_true_eq] at hwf
      obtain ⟨-, -, hle, -⟩ := hwf
      exact (min_le_left _ _).trans hle
    exact List.forall_mem_cons.2
      ⟨(of_decide_eq_true hc).trans_le (Nat.pow_le_pow_right Nat.two_pos hmax), ih hcws⟩

theorem lt_of_wellFormedCodes (hwf : cfg.wf = true) {cws : List Nat} (h : wellFormedCodes cfg 0 cws = true) :
    ∀ c ∈ cws, c < 2 ^ 16 := by
  obtain ⟨done, rfl, hopen⟩ := exists_open_of_wellFormedCodes h
  exact lt_of_fitsWidths hwf (fitsWidths_open_end (j := 0) hwf (firstFree_lt_dictLimit hwf).le hopen)

end Reader

/-- Settles O43: the reader returns the encoder's list from its packing, and each stage gives back the other
direction's input. -/
theorem pipelineRoundTrip : Obligations.PipelineRoundTrip := by
  intro cfg z hwf
  obtain ⟨cws, hcompress, hlzw⟩ := lzwRoundTrip cfg (compressRLE cfg z) hwf
  obtain ⟨cws', hcompress', -, -, -, -, ⟨buf, hpack, hread⟩, -⟩ :=
    encoderOutputWellFormed cfg (compressRLE cfg z) hwf
  obtain rfl : cws = cws' := Except.ok.inj (hcompress.symm.trans hcompress')
  refine ⟨buf, (compress_of_encoded hcompress).trans hpack, ?_⟩
  rw [decompress_of_stages hread hlzw, rleRoundTrip cfg z hwf]
  rfl

/-! ## The step that runs one instruction -/

theorem step_command {s : State} {v : Word} {rest : List HostAccess} (hwf : s.cfg.wf = true)
    (hs : s.stage = .idle) (hq : s.host = .regWrite 0 4 v :: rest) :
    step s = exec (decodeCommand v) { s with host := rest } := by
  rw [step_of_wf hwf, fetch_command hs hq]
  exact stepPending_instr rfl

theorem step_codeword {s : State} {ret : LzwReturn} {cws : List Nat} {c : Nat} (hwf : s.cfg.wf = true)
    (hs : s.stage = .expand ret cws) (hc : cws[s.dp.cur]? = some c) (hlt : c < 2 ^ 16) :
    step s = exec (classify s.cfg c s.dp.j).toInstr s := by
  rw [step_of_wf hwf, fetch_codeword hs hc, stepPending_instr (decode_codeword hlt)]

theorem step_token {s : State} {n : Option Nat} {ys rest : List Byte} {t : Token} (hwf : s.cfg.wf = true)
    (hs : s.stage = .tokens n ys) (ht : decodeToken s.cfg (ys.drop s.dp.cur) = some (t, rest)) :
    step s = exec t.toInstr s := by
  have hcur : s.dp.cur < ys.length := by
    by_contra hge
    rw [List.drop_eq_nil_of_le (Nat.not_lt.1 hge)] at ht
    cases ht
  rw [step_of_wf hwf, fetch_token hs hcur, stepPending_instr (decode_token ht)]

/-- Settles O51, by what the stage fetches. -/
theorem stepRunsDecodedInstruction : Obligations.StepRunsDecodedInstruction := fun _ hwf =>
  ⟨fun _ _ hs hq => step_command hwf hs hq, fun _ _ _ hs hc hlt => step_codeword hwf hs hc hlt,
    fun _ _ _ _ hs ht => step_token hwf hs ht⟩

end Sys2Proof.Machine

namespace Sys2Proof.Machine

/-! ## Running a stream step by step

A running stream's steps and its command's loop take the same units in the same order (45_commands.md R193). Both
end in the same error completion, or reach the same epilogue. -/

/-- The rest of a run after an outcome: at most `fuel` more steps. -/
def runOn (fuel : Nat) : Host.Outcome State Fault Refusal → Host.Outcome State Fault Refusal
  | .next t => runStream fuel t
  | .fault f => .fault f
  | .refused r => .refused r

theorem runStream_step {s : State} (fuel : Nat) (hs : s.stage ≠ .idle) :
    runStream (fuel + 1) s = runOn fuel (step s) := by
  rw [runStream]
  cases h : s.stage with
  | idle => exact absurd h hs
  | expand ret cws => cases step s <;> rfl
  | tokens n ys => cases step s <;> rfl

theorem runStream_idle {s : State} (fuel : Nat) (hs : s.stage = .idle) : runStream fuel s = .next s := by
  cases fuel with
  | zero => rfl
  | succ fuel => rw [runStream, hs]

/-- A command that has ended runs no further. -/
theorem runOn_finish {keep : Bool} {s : State} {r : Except Stop State} (fuel : Nat)
    (hr : Ensures (fun t => t.stage = .idle) r) : runOn fuel (finish keep s r) = finish keep s r := by
  rcases r with (e | f) | t
  · exact runStream_idle fuel rfl
  · rfl
  · exact runStream_idle fuel (hr t rfl)

theorem deliver_idle (output : List Byte) (n : Option Nat) (s : State) :
    Ensures (fun t => t.stage = .idle) (deliver output n s) := by
  intro t ht
  obtain ⟨-, rfl⟩ := deliver_ensures _ _ _ t ht
  rfl

/-- `s` in the middle of a stream (log entry 6). -/
def State.inStream (s : State) (x : Datapath) (g : Stage) : State := { s with dp := x, stage := g }

/-- The internal registers and the stage do not outlive the epilogue. -/
theorem finish_deliver_inStream (s : State) (x : Datapath) (g : Stage) (output : List Byte) (n : Option Nat) :
    finish false (s.inStream x g) (deliver output n (s.inStream x g)) = finish false s (deliver output n s) := by
  rcases Nat.lt_or_ge s.cfg.outCap output.length with hfull | hfits
  · rw [deliver_full n hfull, deliver_full (s := s.inStream x g) n hfull]
    rfl
  · rw [deliver_fits n hfits, deliver_fits (s := s.inStream x g) n hfits]
    rfl

/-- Nor do they outlive an error. -/
theorem advance_inStream_error (s : State) (x : Datapath) (g : Stage) (stop : Stop) :
    advance (s.inStream x g) (.error stop) = finish false s (.error stop) := by
  cases stop <;> rfl

theorem step_streamEnd {s : State} (hwf : s.cfg.wf = true) (hf : fetch s = .streamEnd) : step s = endOfStream s := by
  rw [step_of_wf hwf, hf]
  rfl

/-! ### The tokens of an RLE stream -/

section TokenStream

variable {cfg : Config} {s : State} {x : Datapath} {t : Token} {ys rest : List Byte}

/-- A token as one step on the internal registers (44_rle.md R170). -/
def tokenStep (cfg : Config) (t : Token) (x : Datapath) : Except Stop Datapath :=
  match t with
  | .rlit b => .ok (rlitStep b x)
  | .esc body => escStep cfg body x

theorem tokenLoop_step (fuel : Nat) (x : Datapath) (ht : decodeToken cfg ys = some (t, rest)) :
    tokenLoop cfg (fuel + 1) ys x = (tokenStep cfg t x).bind (tokenLoop cfg fuel rest) := by
  rw [tokenLoop, ht]
  cases t <;> rfl

/-- A token takes its own bytes of the stream (10_state.md R22). -/
theorem tokenStep_cur (cfg : Config) (t : Token) (x : Datapath) :
    Ensures (fun y => y.cur = x.cur + (Token.bytes cfg t).length) (tokenStep cfg t x) := by
  rcases t with b | ⟨n, f⟩ | n
  · exact ensures_ok rfl
  · exact ensures_ite (fun _ => ensures_raise _ _ _) fun _ => ensures_ok rfl
  · exact ensures_raise _ _ _

theorem exec_tokenStep (t : Token) (s : State) : exec t.toInstr s = advance s (tokenStep s.cfg t s.dp) := by
  cases t <;> rfl

theorem step_tokens (n : Option Nat) (hwf : s.cfg.wf = true) (ht : decodeToken s.cfg (ys.drop x.cur) = some (t, rest)) :
    step (s.inStream x (.tokens n ys)) = advance (s.inStream x (.tokens n ys)) (tokenStep s.cfg t x) :=
  (step_token (s := s.inStream x (.tokens n ys)) hwf rfl ht).trans (exec_tokenStep ..)

theorem runStream_tokens_step (fuel : Nat) (s : State) (x : Datapath) (n : Option Nat) (ys : List Byte) :
    runStream (fuel + 1) (s.inStream x (.tokens n ys)) = runOn fuel (step (s.inStream x (.tokens n ys))) :=
  runStream_step (s := s.inStream x _) fuel Stage.noConfusion

theorem step_tokens_end (n : Option Nat) (hwf : s.cfg.wf = true) (hend : ys.drop x.cur = []) :
    step (s.inStream x (.tokens n ys)) = finish false s (deliver x.outBytes n s) := by
  have hf : fetch (s.inStream x (.tokens n ys)) = .streamEnd := if_neg (Nat.not_lt.2 (List.drop_eq_nil_iff.1 hend))
  exact (step_streamEnd (s := s.inStream x (.tokens n ys)) hwf hf).trans (finish_deliver_inStream ..)

/-- The steps of a token stream from CUR on are the loop of its command, and the epilogue. -/
theorem runStream_tokens (n : Option Nat) (hwf : s.cfg.wf = true) {fuel : Nat}
    (hfuel : (ys.drop x.cur).length ≤ fuel) :
    runStream (fuel + 1) (s.inStream x (.tokens n ys)) =
      finish false s ((tokenLoop s.cfg fuel (ys.drop x.cur) x).bind fun y => deliver y.outBytes n s) := by
  induction fuel generalizing x with
  | zero =>
    have hend : ys.drop x.cur = [] := List.length_eq_zero_iff.1 (Nat.le_zero.1 hfuel)
    rw [runStream_tokens_step, step_tokens_end n hwf hend]
    exact runOn_finish 0 (deliver_idle _ _ _)
  | succ fuel ih =>
    rw [runStream_tokens_step]
    by_cases hend : ys.drop x.cur = []
    · rw [step_tokens_end n hwf hend, hend, tokenLoop_nil]
      exact runOn_finish _ (deliver_idle _ _ _)
    · obtain ⟨t, rest, ht⟩ := decodeToken_isSome (cfg := s.cfg) hend
      have hbytes := decodeToken_bytes ht
      have hpos := token_bytes_pos s.cfg t
      rw [step_tokens n hwf ht, tokenLoop_step fuel x ht]
      cases hstep : tokenStep s.cfg t x with
      | error stop =>
        rw [advance_inStream_error]
        exact runOn_finish _ nofun
      | ok y =>
        have hrest : ys.drop y.cur = rest := by
          rw [tokenStep_cur s.cfg t x y hstep, ← List.drop_drop, hbytes, List.drop_left]
        rw [hbytes, List.length_append] at hfuel
        rw [← hrest] at hfuel ⊢
        exact ih (by omega)

end TokenStream

/-! ### The codewords of a stream -/

section CodewordStream

variable {s : State} {x : Datapath} {c : Nat} {cws rest : List Nat}

/-- What the END of a codeword stream returns to (42_lzw_expander.md R136). -/
def returnTo (ret : LzwReturn) (output : List Byte) (s : State) : Except Stop State :=
  match ret with
  | .deliver => deliver output none s
  | .rle n => .ok (s.inStream (Datapath.reset s.cfg) (.tokens (some n) output))

theorem exec_endStream_inStream (s : State) (x : Datapath) (ret : LzwReturn) (cws : List Nat) :
    exec .endStream (s.inStream x (.expand ret cws)) = finish false s (returnTo ret x.outBytes s) := by
  cases ret with
  | deliver => exact finish_deliver_inStream ..
  | rle n => rfl

theorem step_expand (ret : LzwReturn) (hwf : s.cfg.wf = true) (hc : cws[x.cur]? = some c) (hlt : c < 2 ^ 16) :
    step (s.inStream x (.expand ret cws)) = exec (classify s.cfg c x.j).toInstr (s.inStream x (.expand ret cws)) :=
  step_codeword (s := s.inStream x (.expand ret cws)) hwf rfl hc hlt

theorem runStream_expand_step (fuel : Nat) (s : State) (x : Datapath) (ret : LzwReturn) (cws : List Nat) :
    runStream (fuel + 1) (s.inStream x (.expand ret cws)) = runOn fuel (step (s.inStream x (.expand ret cws))) :=
  runStream_step (s := s.inStream x _) fuel Stage.noConfusion

theorem step_expand_end (ret : LzwReturn) (hwf : s.cfg.wf = true) (hend : cws.drop x.cur = []) :
    step (s.inStream x (.expand ret cws)) = finish false s (raise .missingEnd .codeword x.cur) := by
  have hnone : cws[x.cur]? = none := List.getElem?_eq_none (List.drop_eq_nil_iff.1 hend)
  have hf : fetch (s.inStream x (.expand ret cws)) = .streamEnd := by
    simp only [fetch, State.inStream, hnone]
  exact step_streamEnd (s := s.inStream x (.expand ret cws)) hwf hf

/-- The steps of a codeword stream from CUR on are the loop of its command, and where it returns to. -/
theorem runStream_expand (ret : LzwReturn) (hwf : s.cfg.wf = true) (hcodes : ∀ c ∈ cws, c < 2 ^ 16)
    (hrest : cws.drop x.cur = rest) :
    ∃ m ≤ rest.length, ∀ fuel,
      runStream (fuel + m + 1) (s.inStream x (.expand ret cws)) =
        runOn fuel (finish false s ((expand s.cfg rest x).bind fun y => returnTo ret y.outBytes s)) := by
  induction rest generalizing x with
  | nil =>
    refine ⟨0, le_rfl, fun fuel => ?_⟩
    rw [runStream_expand_step, step_expand_end ret hwf hrest]
    rfl
  | cons c rest ih =>
    have hc : cws[x.cur]? = some c := by rw [← List.head?_drop, hrest, List.head?_cons]
    have hstep := step_expand ret hwf hc (hcodes c (List.mem_of_getElem? hc))
    by_cases hend : classify s.cfg c x.j = .endStream
    · refine ⟨0, Nat.zero_le _, fun fuel => ?_⟩
      rw [runStream_expand_step, hstep, hend, expand_endStream hend]
      exact congrArg (runOn fuel) (exec_endStream_inStream ..)
    · replace hstep := hstep.trans (exec_codeword _ hend)
      rw [expand_step hend]
      cases hk : codewordStep s.cfg (classify s.cfg c x.j) x with
      | error stop =>
        refine ⟨0, Nat.zero_le _, fun fuel => ?_⟩
        rw [runStream_expand_step, hstep]
        exact congrArg (runOn fuel) ((congrArg _ hk).trans (advance_inStream_error ..))
      | ok y =>
        have hnext : cws.drop y.cur = rest := by
          rw [codewordStep_cur _ _ _ y hk, ← List.drop_drop, hrest, List.drop_one, List.tail_cons]
        obtain ⟨m, hm, hrun⟩ := ih hnext
        refine ⟨m + 1, Nat.succ_le_succ hm, fun fuel => ?_⟩
        rw [← Nat.add_assoc, runStream_expand_step, hstep]
        exact (congrArg (runOn _) (congrArg _ hk)).trans (hrun fuel)

end CodewordStream

/-- A stage on the output of an operation is a stage on its result. -/
theorem map_bind {α β γ : Type} (f : α → β) (g : β → Except Stop γ) (r : Except Stop α) :
    (r.map f).bind g = r.bind fun a => g (f a) := by
  cases r <;> rfl

theorem inCodes_lt (s : State) : ∀ c ∈ inCodes s, c < 2 ^ 16 := fun _ => codesOfBytes_lt

/-- The codewords of a stream from its first on, step by step. -/
theorem runStream_expand_start {s : State} (ret : LzwReturn) {cws : List Nat} (hwf : s.cfg.wf = true)
    (hcodes : ∀ c ∈ cws, c < 2 ^ 16) :
    ∃ m ≤ cws.length, ∀ fuel,
      runStream (fuel + m + 1) (s.inStream (Datapath.reset s.cfg) (.expand ret cws)) =
        runOn fuel (finish false s ((decompressLZW s.cfg cws).bind fun output => returnTo ret output s)) := by
  simp only [decompressLZW, map_bind]
  exact runStream_expand ret hwf hcodes rfl

/-- The tokens of a stream from its first byte on, step by step. -/
theorem runStream_tokens_start {s : State} (n : Option Nat) (ys : List Byte) (hwf : s.cfg.wf = true) :
    runStream (ys.length + 1) (s.inStream (Datapath.reset s.cfg) (.tokens n ys)) =
      finish false s ((decompressRLE s.cfg ys).bind fun output => deliver output n s) := by
  rw [decompressRLE, map_bind]
  exact runStream_tokens n hwf le_rfl

/-- Settles O53: each step is one turn of the command's loop, and where the stream ends or raises, the step does what
the command does there. -/
theorem atomicEqualsStepByStep : Obligations.AtomicEqualsStepByStep := by
  intro s hwf
  refine ⟨fun hcap heven => ?codewords, fun hcap => ?tokens, fun cws n hread => ?both⟩
  case codewords =>
    obtain ⟨m, hm, hrun⟩ := runStream_expand_start (s := prologue s) .deliver hwf (inCodes_lt s)
    have hsteps := hrun ((inCodes s).length - m)
    rw [Nat.sub_add_cancel hm] at hsteps
    rw [exec_lzwDecode, inputCommand, checkInput_codes hcap heven]
    exact hsteps.trans (runOn_finish _ (ensures_bind fun output => deliver_idle output none _))
  case tokens =>
    have hsteps := runStream_tokens_start (s := prologue s) none (inBytes s) hwf
    rw [inBytes_length] at hsteps
    rw [exec_rleDecode, inputCommand, checkInput_bytes hcap]
    exact hsteps
  case both =>
    have hcws := readCodewords_wellFormedCodes hread
    obtain ⟨y, hy, -⟩ := wellFormedCodesExpand s.cfg cws [] hwf hcws
    obtain ⟨m, -, hrun⟩ := runStream_expand_start (s := prologue s) (.rle n) hwf (lt_of_wellFormedCodes hwf hcws)
    refine ⟨y.length + 1 + m + 1, (hrun _).trans ?_⟩
    rw [prologue_cfg, hy, exec_decompress, imageCommand, decompress_of_stages hread hy, map_bind]
    exact runStream_tokens_start (s := prologue s) (some n) y hwf

end Sys2Proof.Machine

namespace Sys2Proof.Machine

/-! ## READ_BITS -/

/-- A read gathers a value of its width (40_bitpack.md R100). -/
theorem gatherBits_lt (order : BitOrder) (buf : List Byte) (p w : Nat) : gatherBits order buf p w w < 2 ^ w := by
  refine Nat.lt_pow_two_of_testBit _ fun k hk => ?_
  rw [testBit_gatherBits order buf p le_rfl]
  simp [Nat.not_lt.2 hk]

/-- Stream bit `i` of a read is the value's bit for it. -/
theorem testBit_gatherBits_valueIndex (order : BitOrder) (buf : List Byte) (p : Nat) {w i : Nat} (hi : i < w) :
    (gatherBits order buf p w w).testBit (valueIndex order w i) = streamBit order buf (p + i) := by
  obtain ⟨hk, hback⟩ := (valueIndex_eq_iff (order := order) hi).1 rfl
  rw [testBit_gatherBits order buf p le_rfl, hback]
  simp [hk, hi]

/-- READ_BITS's own epilogue (45_commands.md R196). -/
def bitsRead (s : State) (r : Nat × Nat) : State :=
  { afterSuccess s with resValue := BitVec.ofNat 32 r.1, resPos := BitVec.ofNat 32 r.2 }

/-- READ_BITS is its checks and one `readBits` (45_commands.md R196). -/
theorem exec_readBits (s : State) :
    exec .readBits s = finish true (prologue s)
      ((checkInput false s).bind fun _ => (checkWidth s).bind fun _ =>
        (readBits s.cfg (inBytes s) s.argOffset.toNat (widthArg s)).bind fun r => .ok (bitsRead s r)) :=
  congrArg (finish true (prologue s)) <| congrArg (Except.bind _) <| funext fun _ =>
    congrArg (Except.bind _) <| funext fun _ => map_bind _ _ _

/-- Settles O8: past the checks the command is one `readBits` inside IN_LEN. -/
theorem readBitsCompletes : Obligations.ReadBitsCompletes := by
  intro s hcap hmin hmax hfit
  have hread : readBits s.cfg (inBytes s) s.argOffset.toNat (widthArg s) = .ok (_, _) :=
    if_neg (by rwa [inBytes_length, Nat.not_lt])
  refine ⟨_, gatherBits_lt .., fun i hi => testBit_gatherBits_valueIndex _ _ _ hi, ?_⟩
  rw [exec_readBits, checkInput_bytes hcap, checkWidth_ok hmin hmax, hread]
  rfl

/-- Settles O9, by the check that fails. -/
theorem readBitsErrors : Obligations.ReadBitsErrors := by
  intro s
  have hoperand : errWord ⟨.operandOutOfRange, .nothing, 0⟩ = 0x00004204 := by decide
  refine ⟨fun hbad => ?operand, fun hcap hmin hmax hpast => ?past⟩
  case operand =>
    rw [exec_readBits]
    by_cases hcap : s.cfg.inCap < s.inLen.toNat
    · rw [checkInput_over false hcap]
      exact finish_prologue_raise _ _ _ hoperand
    · rw [checkInput_bytes (Nat.not_lt.1 hcap), checkWidth_bad (hbad.resolve_left hcap)]
      exact finish_prologue_raise _ _ _ hoperand
  case past =>
    have hread : readBits s.cfg (inBytes s) s.argOffset.toNat (widthArg s) =
        raise .bitReadPastEnd .bit s.argOffset.toNat := if_pos (by rwa [inBytes_length])
    rw [exec_readBits, checkInput_bytes hcap, checkWidth_ok hmin hmax, hread]
    exact finish_prologue_raise _ _ _ (by decide)

/-! ## WRITE_BITS -/

theorem streamBit_append (order : BitOrder) (buf buf' : List Byte) (q : Nat) :
    streamBit order (buf ++ buf') q =
      if q / 8 < buf.length then streamBit order buf q else streamBit order buf' (q - 8 * buf.length) := by
  split
  case isTrue h => rw [streamBit, List.getD_append _ _ _ _ h, streamBit]
  case isFalse h =>
    have hbyte : q / 8 - buf.length = (q - 8 * buf.length) / 8 := by omega
    have hbit : bitIndex order q = bitIndex order (q - 8 * buf.length) := by
      cases order <;> simp only [bitIndex] <;> omega
    rw [streamBit, List.getD_append_right _ _ _ _ (Nat.not_lt.1 h), hbyte, hbit, streamBit]

theorem streamBit_zeros (order : BitOrder) (n q : Nat) : streamBit order (List.replicate n 0) q = false := by
  rw [streamBit, List.getD_eq_getElem?_getD, List.getElem?_getD_replicate_default_eq]
  exact BitVec.getLsbD_zero

/-- The bytes that WRITE_BITS writes into, bit by bit (45_commands.md R197). -/
theorem streamBit_zeroFilled (order : BitOrder) (s : State) (e q : Nat) :
    streamBit order (zeroFilled s e) q = if q / 8 < s.outLen.toNat then streamBit order (outBytes s) q else false := by
  rw [zeroFilled, streamBit_append, outBytes_length, streamBit_zeros]

theorem zeroFilled_length (s : State) (e : Nat) : (zeroFilled s e).length = max s.outLen.toNat e := by
  simp only [zeroFilled, List.length_append, outBytes_length, List.length_replicate]
  omega

/-- WRITE_BITS's own epilogue (45_commands.md R197). -/
def bitsWritten (s : State) (r : List Byte × Nat) : State := { delivered r.1 s with resPos := BitVec.ofNat 32 r.2 }

/-- WRITE_BITS is its checks in the order of 60_exceptions.md R227, and one `writeBits`. -/
theorem exec_writeBits (s : State) :
    exec .writeBits s = finish true (prologue s)
      ((checkWidth s).bind fun _ =>
        if 2 ^ widthArg s ≤ s.argValue.toNat then raise .valueTooWide .bit s.argOffset.toNat
        else if 8 * s.cfg.outCap < s.argOffset.toNat + widthArg s then
          raise .bitWritePastEnd .bit s.argOffset.toNat
        else
          (writeBits s.cfg (zeroFilled s (ceilDiv (s.argOffset.toNat + widthArg s) 8)) s.argOffset.toNat
            s.argValue.toNat (widthArg s)).bind fun r => .ok (bitsWritten s r)) := by
  exact congrArg (finish true (prologue s)) <| congrArg (Except.bind _) <| funext fun _ =>
    if_congr Iff.rfl rfl <| if_congr Iff.rfl rfl <| map_bind _ _ _

/-- Settles O10: the zero-filled buffer has room for the write, which changes its own stream bits and no other. -/
theorem writeBitsCompletes : Obligations.WriteBitsCompletes := by
  intro s hmin hmax hvalue hcap
  have hfit : s.argOffset.toNat + widthArg s ≤
      8 * (zeroFilled s (ceilDiv (s.argOffset.toNat + widthArg s) 8)).length := by
    have := le_mul_ceilDiv (s.argOffset.toNat + widthArg s)
    rw [zeroFilled_length]
    omega
  refine ⟨scatterBits s.cfg.bitOrder (zeroFilled s _) s.argOffset.toNat s.argValue.toNat (widthArg s) (widthArg s),
    (scatterBits_length ..).trans (zeroFilled_length s _), fun q _ => ?bits, ?outcome⟩
  case outcome =>
    rw [exec_writeBits, checkWidth_ok hmin hmax, Except.bind, if_neg (Nat.not_le.2 hvalue),
      if_neg (Nat.not_lt.2 hcap), writeBits_ok hvalue hfit]
    rfl
  case bits => rw [streamBit_scatterBits _ _ _ hfit, streamBit_zeroFilled]

/-- Settles O11, by the check that fails. -/
theorem writeBitsErrors : Obligations.WriteBitsErrors := by
  intro s
  refine ⟨fun hbad => ?width, fun hmin hmax hwide => ?wide, fun hmin hmax hvalue hpast => ?past⟩
  case width =>
    rw [exec_writeBits, checkWidth_bad hbad]
    exact finish_prologue_raise _ _ _ (by decide)
  case wide =>
    rw [exec_writeBits, checkWidth_ok hmin hmax, Except.bind, if_pos hwide]
    exact finish_prologue_raise _ _ _ (by decide)
  case past =>
    rw [exec_writeBits, checkWidth_ok hmin hmax, Except.bind, if_neg (Nat.not_le.2 hvalue), if_pos hpast]
    exact finish_prologue_raise _ _ _ (by decide)

/-! ## PACK_CODEWORDS -/

section Packing

variable {cfg : Config} {done cws : List Nat} {c : Nat} {x : Datapath}

/-- The packed stream holds the list, and its other bits are zero (41_codeword_stream.md R118). -/
theorem packCodewords_padded (hfits : fitsWidths cfg 0 cws = true) :
    ∃ buf, packCodewords cfg cws = .ok buf ∧ holdsCodes cfg buf 0 0 cws = true ∧
      ∀ q, packedBits cfg 0 cws ≤ q → streamBit cfg.bitOrder buf q = false := by
  obtain ⟨y, hloop, -, hholds, hkept⟩ := packLoop_holdsCodes
    (x := { Datapath.reset cfg with outBytes := List.replicate (ceilDiv (packedBits cfg 0 cws) 8) 0 }) hfits
    (by simpa using le_mul_ceilDiv _)
  refine ⟨y.outBytes, by rw [packCodewords, hloop]; rfl, hholds, fun q hq => ?_⟩
  rw [hkept q (.inr ((Nat.zero_add _).trans_le hq)), streamBit_zeros]

/-- The loop writes the codewords that fit at its front and goes on after them. -/
theorem packLoop_append (rest : List Nat) (hfits : fitsWidths cfg x.j done = true)
    (hroom : x.ocur + packedBits cfg x.j done ≤ 8 * x.outBytes.length) :
    ∃ y, packLoop cfg (done ++ rest) x = packLoop cfg rest y ∧
      y.ocur = x.ocur + packedBits cfg x.j done ∧ y.j = indexAfter cfg x.j done := by
  induction done generalizing x with
  | nil => exact ⟨x, rfl, rfl, rfl⟩
  | cons c done ih =>
    obtain ⟨hc, hdone⟩ := Bool.and_eq_true_iff.1 hfits
    rw [packedBits, ← Nat.add_assoc] at hroom ⊢
    obtain ⟨y, hloop, hocur, hj⟩ := ih (x := writeCode cfg c x) hdone (by rwa [writeCode_length])
    exact ⟨y, (packLoop_cons _ (of_decide_eq_true hc) (by omega)).trans hloop, hocur, hj⟩

/-- The first codeword that is too wide is VALUE_TOO_WIDE at its bit position. -/
theorem packCodewords_tooWide (rest : List Nat) (hfits : fitsWidths cfg 0 done = true)
    (hwide : 2 ^ widthAt cfg (indexAfter cfg 0 done) ≤ c) :
    packCodewords cfg (done ++ c :: rest) = raise .valueTooWide .bit (packedBits cfg 0 done) := by
  have hroom := le_mul_ceilDiv (packedBits cfg 0 (done ++ c :: rest))
  have hle : packedBits cfg 0 done ≤ packedBits cfg 0 (done ++ c :: rest) :=
    (packedBits_append ..).symm ▸ Nat.le_add_right ..
  obtain ⟨y, hloop, hocur, hj⟩ := packLoop_append (c :: rest) (x := { Datapath.reset cfg with
      outBytes := List.replicate (ceilDiv (packedBits cfg 0 (done ++ c :: rest)) 8) 0 }) hfits
    (by simpa using hle.trans hroom)
  replace hocur : y.ocur = packedBits cfg 0 done := hocur.trans (Nat.zero_add _)
  replace hj : y.j = indexAfter cfg 0 done := hj
  rw [packCodewords, hloop, packLoop, writeUnit_wide (hj ▸ hwide), hocur]
  rfl

end Packing

/-- Settles O14: the packed buffer holds the list, its other bits are zero, and the epilogue delivers it. -/
theorem packCodewordsCompletes : Obligations.PackCodewordsCompletes := by
  intro s hcap heven hfits hroom
  obtain ⟨buf, hpack, hholds, hzero⟩ := packCodewords_padded hfits
  have hlen := packCodewords_length _ _ buf hpack
  refine ⟨buf, hlen, hholds, fun q hq _ => hzero q hq, ?_⟩
  rw [exec_packCodewords, hpack]
  exact inputCommand_fits (checkInput_codes hcap heven) (hlen ▸ hroom)

/-- Settles O15, by where the command stops: its checks, the packing loop, the epilogue. -/
theorem packCodewordsErrors : Obligations.PackCodewordsErrors := by
  intro s
  rw [exec_packCodewords]
  refine ⟨fun hbad => inputCommand_operand _ (checkInput_codes_bad hbad),
    fun hcap heven done c rest hcodes hfits hwide => ?wide, fun hcap heven hfits hfull => ?full⟩
  case wide =>
    rw [hcodes, packCodewords_tooWide rest hfits hwide]
    exact inputCommand_raise _ (checkInput_codes hcap heven) (by decide)
  case full =>
    obtain ⟨buf, hpack, -⟩ := packCodewords_padded hfits
    rw [hpack]
    exact inputCommand_full (checkInput_codes hcap heven) (packCodewords_length _ _ buf hpack ▸ hfull)

end Sys2Proof.Machine

namespace Sys2Proof.Machine

/-! ## LZW_DECODE -/

section LzwDecode

variable {cfg : Config} {done : List Nat} {c : Nat}

/-- Each codeword that is executed takes one element of the list (10_state.md R22). -/
theorem expandCodes_cur (cfg : Config) (done : List Nat) (x : Datapath) :
    Ensures (fun y => y.cur = x.cur + done.length) (expandCodes cfg done x) := by
  induction done generalizing x with
  | nil => exact ensures_ok rfl
  | cons c done ih =>
    refine (codewordStep_cur _ _ _).bind fun y hy z hz => ?_
    rw [ih y z hz, hy, List.length_cons, Nat.add_assoc, Nat.add_comm 1]

/-- `decompressLZW` after the codewords that the stream begins with: J and CUR are theirs. -/
theorem decompressLZW_append (hwf : cfg.wf = true) (hopen : openCodes cfg 0 done = true) (rest : List Nat) :
    ∃ y, y.j = indexAfter cfg 0 done ∧ y.cur = done.length ∧
      decompressLZW cfg (done ++ rest) = (expand cfg rest y).map (·.outBytes) := by
  obtain ⟨y, hrun, -, hj, hloop⟩ := decompressLZW_open hwf hopen
  exact ⟨y, hj, (expandCodes_cur cfg done _ y hrun).trans (Nat.zero_add _), hloop rest⟩

/-- The first INVALID codeword raises at its index in the list (42_lzw_expander.md R137). -/
theorem decompressLZW_invalid {cause : InvalidCause} (hwf : cfg.wf = true) (hopen : openCodes cfg 0 done = true)
    (rest : List Nat) (hk : classify cfg c (indexAfter cfg 0 done) = .invalid c cause) :
    decompressLZW cfg (done ++ c :: rest) = raise (invalidCause cause) .codeword done.length := by
  obtain ⟨y, hj, hcur, hloop⟩ := decompressLZW_append hwf hopen (c :: rest)
  rw [← hj] at hk
  have hend : classify cfg c y.j ≠ .endStream := hk ▸ nofun
  rw [hloop, expand_step hend, hk, ← hcur]
  rfl

/-- A list with no END raises MISSING_END at its length (42_lzw_expander.md R138). -/
theorem decompressLZW_missingEnd (hwf : cfg.wf = true) (hopen : openCodes cfg 0 done = true) :
    decompressLZW cfg done = raise .missingEnd .codeword done.length := by
  obtain ⟨y, -, hcur, hloop⟩ := decompressLZW_append hwf hopen []
  rw [List.append_nil] at hloop
  rw [hloop, expand, ← hcur]
  rfl

/-- What follows the END is not read (42_lzw_expander.md R136). -/
theorem decompressLZW_append_end {cws : List Nat} {out : List Byte} (hwf : cfg.wf = true)
    (hcws : wellFormedCodes cfg 0 cws = true) (hout : decompressLZW cfg cws = .ok out) (rest : List Nat) :
    decompressLZW cfg (cws ++ rest) = .ok out := by
  obtain ⟨out', hout', hrest⟩ := wellFormedCodesExpand cfg cws rest hwf hcws
  exact hrest.trans (hout'.symm.trans hout)

end LzwDecode

/-- Settles O26: the expander reads up to the END. -/
theorem lzwDecodeCompletes : Obligations.LzwDecodeCompletes := by
  intro s cws rest out hwf hcap heven hcodes hcws hout hfits
  rw [exec_lzwDecode, hcodes, decompressLZW_append_end hwf hcws hout]
  exact inputCommand_fits (checkInput_codes hcap heven) hfits

/-- Settles O27, by where the command stops: its checks, the expander's loop, the epilogue. -/
theorem lzwDecodeErrors : Obligations.LzwDecodeErrors := by
  intro s hwf
  rw [exec_lzwDecode]
  refine ⟨fun hbad => inputCommand_operand _ (checkInput_codes_bad hbad),
    fun hcap heven done c rest cause hcodes hopen hk => ?invalid, fun hcap heven hopen => ?missingEnd,
    fun hcap heven cws rest out hcodes hcws hout hfull => ?full⟩
  case invalid =>
    rw [hcodes, decompressLZW_invalid hwf hopen rest hk]
    exact inputCommand_raise _ (checkInput_codes hcap heven) (errWord_invalidCause cause .codeword)
  case missingEnd =>
    rw [decompressLZW_missingEnd hwf hopen]
    exact inputCommand_raise _ (checkInput_codes hcap heven) (by decide)
  case full =>
    rw [hcodes, decompressLZW_append_end hwf hcws hout]
    exact inputCommand_full (checkInput_codes hcap heven) hfull

/-! ## LZW_ENCODE -/

section LzwEncode

variable {cfg : Config} {bytes : List Byte} {b : Byte} {x : Datapath} {p : Nat}

/-- One more byte of input is one more action (43_lzw_builder.md R150). -/
theorem encodeLoop_concat {y : Datapath} (h : encodeLoop cfg bytes x = .ok y) (b : Byte) :
    encodeLoop cfg (bytes ++ [b]) x = (encodeByte cfg b y).map fun z => { z with cur := z.cur + 1 } := by
  induction bytes generalizing x with
  | nil =>
    cases h
    rw [List.nil_append, encodeLoop]
    cases encodeByte cfg b y <;> rfl
  | cons c bytes ih =>
    rw [encodeLoop] at h
    rw [List.cons_append, encodeLoop]
    cases hc : encodeByte cfg c x with
    | error e =>
      rw [hc] at h
      cases h
    | ok x1 =>
      rw [hc] at h
      exact ih h

/-- FLUSH emits the candidate, where there is one, and END (43_lzw_builder.md R156). -/
theorem actFlush_outCodes (cfg : Config) (x : Datapath) :
    (actFlush cfg x).outCodes = x.outCodes ++ x.cand.toList ++ [cfg.endCode] := by
  unfold actFlush
  cases x.cand <;> simp

theorem compressLZW_of_encodeLoop (h : encodeLoop cfg bytes (Datapath.reset cfg) = .ok x) :
    compressLZW cfg bytes = .ok (x.outCodes ++ x.cand.toList ++ [cfg.endCode]) := by
  rw [compressLZW, h, ← actFlush_outCodes]
  rfl

/-- The entry with PREFIX `p` and SUFFIX `b` is the one that `lookup` finds, where no other has them
(10_state.md R32). -/
theorem lookup_of_entry {dict : Dict} {i : Nat} {e : Entry} (hnodup : dict.pairs.Nodup) (he : dict[i]? = some e) :
    lookup cfg dict e.parent e.suffix = some (cfg.firstFree + i) := by
  cases hk : lookup cfg dict e.parent e.suffix with
  | none => exact absurd rfl (lookup_none hk (List.mem_of_getElem? he) rfl)
  | some k =>
    obtain ⟨i', e', he', rfl, hp, hb⟩ := lookup_some hk
    have hpair : dict.pairs[i]? = dict.pairs[i']? := by simp [Dict.pairs, he, he', hp, hb]
    obtain ⟨hi, -⟩ := List.getElem?_eq_some_iff.1 he
    rw [(List.getElem?_inj (by simpa [Dict.pairs] using hi) hnodup).1 hpair]

theorem lookup_eq_none {dict : Dict} (h : ∀ e ∈ dict, e.parent = p → e.suffix ≠ b) :
    lookup cfg dict p b = none := by
  cases hk : lookup cfg dict p b with
  | none => rfl
  | some k =>
    obtain ⟨i, e, he, -, hp, hb⟩ := lookup_some hk
    exact absurd hb (h e (List.mem_of_getElem? he) hp)

end LzwEncode

/-- Settles O31: the command by the length of its list, the list by the encoder's loop, and the loop's action by what
`lookup` finds. -/
theorem lzwEncodeCompletes : Obligations.LzwEncodeCompletes := by
  refine ⟨fun s cws hwf => ?command, fun cfg bytes b x h => ?loop,
    fun cfg b x => ⟨fun hcand => ?start, fun p hp => ?_⟩⟩
  case command =>
    rw [exec_lzwEncode]
    refine ⟨fun hcap hcws hfits => ?_, fun hcap hcws hfull => ?_,
      fun hover => inputCommand_operand _ (checkInput_over false hover)⟩
    · rw [hcws]
      exact inputCommand_fits (checkInput_bytes hcap) (by rwa [words16LE_length])
    · rw [hcws]
      exact inputCommand_full (checkInput_bytes hcap) (by rwa [words16LE_length])
  case loop => exact ⟨encodeLoop_concat h b, compressLZW_of_encodeLoop h⟩
  case start => simp only [encodeByte, hcand, actStart]
  refine ⟨fun i e he hparent hsuffix hnodup => ?extend, fun hnone =>
    ⟨fun ph hroom hcount hph => ?emitDefine, fun hfull => ?emitReset⟩⟩
  case extend =>
    subst hparent hsuffix
    exact encodeByte_extend hp (lookup_of_entry hnodup he)
  case emitDefine =>
    have hk := lookup_eq_none (cfg := cfg) hnone
    have hdefine := define_ok (b := b) (x := x.emitCode p) (congrArg _ hcount.symm) hroom hph
    simp only [encodeByte, hp, hk, if_pos hroom, actEmitDefine, hdefine]
    rfl
  case emitReset =>
    rw [encodeByte_emitReset hp (lookup_eq_none hnone) (by omega), actEmitReset]
    simp [Datapath.atEmission, Datapath.emitCode]

end Sys2Proof.Machine

namespace Sys2Proof.Machine

/-! ## RLE_DECODE -/

section RleDecode

variable {cfg : Config} {ts : List Token} {ys rest : List Byte} {body : EscBody} {cause : Cause}

/-- `decompressRLE` executes the valid tokens at the front and goes on after them. The fuel is not used up: each
token has taken a byte. -/
theorem decompressRLE_append (hwf : cfg.wf = true) (hts : ∀ t ∈ ts, Token.valid cfg t = true) (ys : List Byte) :
    ∃ fuel, ys.length ≤ fuel ∧
      decompressRLE cfg (ts.flatMap (Token.bytes cfg) ++ ys) =
        (tokenLoop cfg fuel ys ((Datapath.reset cfg).afterTokens cfg ts)).map (·.outBytes) := by
  have hcount := length_le_tokens cfg ts
  obtain ⟨fuel, hfuel⟩ := Nat.exists_eq_add_of_le' (hcount.trans (Nat.le_add_right _ ys.length))
  refine ⟨fuel, by omega, ?_⟩
  rw [decompressRLE, List.length_append, hfuel, tokenLoop_append hwf hts]

/-- An escape that raises at its marker, after valid tokens, is the error of the whole (44_rle.md R172). -/
theorem decompressRLE_faulty (hwf : cfg.wf = true) (hts : ∀ t ∈ ts, Token.valid cfg t = true)
    (hesc : decodeToken cfg ys = some (.esc body, rest))
    (hraise : ∀ x, escStep cfg body x = raise cause .byte x.cur) :
    decompressRLE cfg (ts.flatMap (Token.bytes cfg) ++ ys) =
      raise cause .byte (ts.flatMap (Token.bytes cfg)).length := by
  obtain ⟨fuel, hfuel, hloop⟩ := decompressRLE_append hwf hts ys
  obtain ⟨fuel, rfl⟩ : ∃ k, fuel = k + 1 := by
    have hpos := token_bytes_pos cfg (.esc body)
    rw [decodeToken_bytes hesc, List.length_append] at hfuel
    exact ⟨fuel - 1, by omega⟩
  rw [hloop, tokenLoop_step fuel _ hesc, tokenStep, hraise]
  simp [raise, Except.bind, Except.map, Datapath.afterTokens]

/-- A marker with fewer than two bytes after it is a truncated escape (44_rle.md R173). -/
theorem decodeToken_cut {tail : List Byte} (h : tail.length < 2) :
    ∃ n, decodeToken cfg (cfg.rleMarker :: tail) = some (.esc (.cut n), []) := by
  match tail with
  | [] => exact ⟨none, decodeToken_esc cfg (.cut none)⟩
  | [n] => exact ⟨some n, decodeToken_esc cfg (.cut (some n))⟩
  | n :: f :: tail => exact absurd h (by simp)

theorem escStep_zero (hwf : cfg.wf = true) (f : Byte) (x : Datapath) :
    escStep cfg (.whole 0 f) x = raise .rleZeroCount .byte x.cur := by
  simp [escStep, (rleRange hwf).1]

end RleDecode

/-- Settles O33: the tokens expand one after another. -/
theorem rleDecodeCompletes : Obligations.RleDecodeCompletes := by
  intro s ts hwf hcap hts hbytes hfits
  rw [exec_rleDecode, hbytes, decompressRLE_tokens hwf (List.all_eq_true.1 hts)]
  exact inputCommand_fits (checkInput_bytes hcap) hfits

/-- Settles O34, by where the command stops: its check, the first faulty escape, the epilogue. -/
theorem rleDecodeErrors : Obligations.RleDecodeErrors := by
  intro s hwf
  rw [exec_rleDecode]
  refine ⟨fun hover => inputCommand_operand _ (checkInput_over false hover),
    fun hcap ts tail hts hbytes htail => ?truncated, fun hcap ts f rest hts hbytes => ?zeroCount,
    fun hcap ts hts hbytes hfull => ?full⟩
  case truncated =>
    obtain ⟨n, hcut⟩ := decodeToken_cut (cfg := s.cfg) htail
    rw [hbytes, decompressRLE_faulty hwf (List.all_eq_true.1 hts) hcut fun _ => rfl]
    exact inputCommand_raise _ (checkInput_bytes hcap) (by decide)
  case zeroCount =>
    rw [hbytes, decompressRLE_faulty hwf (List.all_eq_true.1 hts) (decodeToken_whole s.cfg 0 f rest)
      (escStep_zero hwf f)]
    exact inputCommand_raise _ (checkInput_bytes hcap) (by decide)
  case full =>
    rw [hbytes, decompressRLE_tokens hwf (List.all_eq_true.1 hts)]
    exact inputCommand_full (checkInput_bytes hcap) hfull

/-! ## DECOMPRESS -/

section RleFaults

variable {cfg : Config} {e : Err} {x : Datapath}

/-- An error of the RLE decoder: a faulty escape, at an index among the bytes `lo` to `hi - 1`. -/
def RleFault (lo hi : Nat) (e : Err) : Prop :=
  (e.cause = .rleTruncated ∨ e.cause = .rleZeroCount) ∧ e.unit = .byte ∧ lo ≤ e.pos ∧ e.pos < hi

theorem raised_inj {α : Type} {cause : Cause} {unit : PosUnit} {pos : Nat}
    (h : (raise cause unit pos : Except Stop α) = .error (.raised e)) : e = ⟨cause, unit, pos⟩ := by
  cases h
  rfl

/-- A token raises only at its own first byte. -/
theorem tokenStep_fault {t : Token} {hi : Nat} (h : tokenStep cfg t x = .error (.raised e)) (hhi : x.cur < hi) :
    RleFault x.cur hi e := by
  rcases t with b | ⟨n, f⟩ | n
  · cases h
  · simp only [tokenStep, escStep] at h
    split at h
    · rw [raised_inj h]
      exact ⟨.inr rfl, rfl, le_rfl, hhi⟩
    · cases h
  · rw [raised_inj h]
    exact ⟨.inl rfl, rfl, le_rfl, hhi⟩

theorem tokenLoop_fault {fuel : Nat} {ys : List Byte} (h : tokenLoop cfg fuel ys x = .error (.raised e)) :
    RleFault x.cur (x.cur + ys.length) e := by
  induction fuel generalizing ys x with
  | zero => cases h
  | succ fuel ih =>
    by_cases hys : ys = []
    · rw [hys, tokenLoop_nil] at h
      cases h
    · obtain ⟨t, rest, ht⟩ := decodeToken_isSome (cfg := cfg) hys
      have hpos := token_bytes_pos cfg t
      rw [tokenLoop_step fuel x ht] at h
      rw [decodeToken_bytes ht, List.length_append]
      cases hstep : tokenStep cfg t x with
      | error stop =>
        rw [hstep] at h
        cases h
        exact tokenStep_fault hstep (by omega)
      | ok y =>
        rw [hstep] at h
        have hcur := tokenStep_cur cfg t x y hstep
        obtain ⟨hcause, hunit, hlo, hhi⟩ := ih h
        exact ⟨hcause, hunit, by omega, by omega⟩

theorem decompressRLE_fault {ys : List Byte} (h : decompressRLE cfg ys = .error (.raised e)) :
    RleFault 0 ys.length e := by
  rw [decompressRLE] at h
  cases hloop : tokenLoop cfg ys.length ys (Datapath.reset cfg) with
  | ok y =>
    rw [hloop] at h
    cases h
  | error stop =>
    rw [hloop] at h
    cases h
    exact Nat.zero_add ys.length ▸ tokenLoop_fault hloop

end RleFaults

theorem imageCommand_error (e : Err) (s : State) :
    imageCommand (.error (.raised e)) s = .next (afterError false (errWord e) e.pos s) := rfl

/-- Settles O41, by the stage that stops; the list that the reader returns is valid up to its END, so the expander is
not one. -/
theorem decompressErrors : Obligations.DecompressErrors := by
  intro s hwf
  refine ⟨fun e hread => ?reader, fun cws n hread => ?later⟩
  case reader =>
    have hdecompress : decompress s.cfg (imageBytes s) s.argOffset.toNat = .error (.raised e) := by
      rw [decompress, hread]
      rfl
    rw [exec_readCodewords, exec_decompress, hdecompress, hread]
    exact ⟨rfl, imageCommand_error e s⟩
  case later =>
    obtain ⟨y, hlzw, -⟩ := wellFormedCodesExpand s.cfg cws [] hwf (readCodewords_wellFormedCodes hread)
    rw [exec_decompress, decompress_of_stages hread hlzw]
    refine ⟨y, hlzw, fun e hrle => ?_, fun raw hrle hfull => ?_⟩
    · obtain ⟨hcause, hunit, -, hpos⟩ := decompressRLE_fault hrle
      rw [hrle]
      exact ⟨hcause, hunit, hpos, imageCommand_error e s⟩
    · rw [hrle]
      exact finish_deliver_full (some n) hfull

/-! ## COMPRESS -/

/-- Settles O42: both stages have results on every input, so only the check and the epilogue can raise. -/
theorem compressCompletes : Obligations.CompressCompletes := by
  intro s hwf
  obtain ⟨cws, hlzw, -, -, -, -, ⟨buf, hpack, -⟩, -⟩ :=
    encoderOutputWellFormed s.cfg (compressRLE s.cfg (inBytes s)) hwf
  have hcompress := (compress_of_encoded hlzw).trans hpack
  rw [exec_compress, hcompress]
  exact ⟨cws, buf, hlzw, hpack, rfl, fun hcap => inputCommand_fits (checkInput_bytes hcap),
    fun hcap => inputCommand_full (checkInput_bytes hcap),
    fun hover => inputCommand_operand _ (checkInput_over false hover)⟩

end Sys2Proof.Machine

namespace Sys2Proof.Machine

/-! ## How a command completes -/

/-- ERR.KIND of an error is not 0 and fits its byte (10_state.md R37). -/
theorem errKind_code_bounds (k : ErrKind) : 0 < k.code ∧ k.code < 2 ^ 8 := by
  cases k <;> decide

theorem errWord_ne_zero (e : Err) : errWord e ≠ 0 := by
  intro h
  have hkind := errKind_code_bounds e.cause.kind
  have hword : (errWord e).toNat = 0 := congrArg BitVec.toNat h
  simp only [errWord, BitVec.toNat_ofNat] at hword
  omega

/-- Every way a command other than SOFT_RESET ends leaves the core idle, with the error of its STATUS recorded
(60_exceptions.md R232). -/
theorem CommandEnd.completes {s t : State} {i : Instr} (h : CommandEnd s i t) (hi : i ≠ .softReset) :
    t.stage = .idle ∧ t.dp = Datapath.reset s.cfg ∧
      ((t.status = 0x2 ∧ t.err = 0 ∧ t.errPos = 0) ∨ (t.status = 0x6 ∧ t.err ≠ 0)) := by
  cases h with
  | failed hkeep e => exact ⟨rfl, rfl, .inr ⟨rfl, errWord_ne_zero e⟩⟩
  | read | wrote | output | report => exact ⟨rfl, rfl, .inl ⟨rfl, rfl, rfl⟩⟩
  | softReset => exact absurd rfl hi

/-- Settles O46: no command faults, by the invariants of the encoder and the expander, and each way it can end
completes it. -/
theorem commandsComplete : Obligations.CommandsComplete := by
  intro s i hwf hi hreset
  obtain ⟨t, ht⟩ := exec_command_next hwf hi
  exact ⟨t, ht, (exec_command_end hi ht).completes hreset⟩

/-! ## The errors of an operation

`Ends P E r` says what `r` can end with: a result with `P`, or an error among `E`. It follows the parts of an
operation as `Yields` does, and keeps which part raised. -/

/-- A result of `r` satisfies `P`, and an error that `r` raises satisfies `E`. -/
def Ends {α : Type} (P : α → Prop) (E : Err → Prop) : Except Stop α → Prop
  | .ok a => P a
  | .error (.raised e) => E e
  | .error (.fault _) => True

/-- An error that `r` raises satisfies `E`. -/
abbrev Raises {α : Type} (E : Err → Prop) (r : Except Stop α) : Prop := Ends (fun _ => True) E r

section Ends

variable {α β : Type} {P : α → Prop} {Q : β → Prop} {E : Err → Prop} {r : Except Stop α}

theorem raises_of (h : ∀ e, r = .error (.raised e) → E e) : Raises E r := by
  rcases r with (e | f) | a
  · exact h e rfl
  · trivial
  · trivial

theorem ends_ok {a : α} (h : P a) : Ends P E (.ok a) := h

theorem Raises.mono {E' : Err → Prop} (hr : Raises E r) (h : ∀ e, E e → E' e) : Raises E' r := by
  rcases r with (e | f) | a
  · exact h e hr
  · trivial
  · trivial

theorem Raises.bind {f : α → Except Stop β} (hr : Raises E r) (hf : ∀ a, Ends Q E (f a)) :
    Ends Q E (r.bind f) := by
  rcases r with (e | f) | a
  · exact hr
  · trivial
  · exact hf a

theorem Raises.map {f : α → β} (hr : Raises E r) : Raises E (r.map f) := by
  rcases r with (e | f) | a
  · exact hr
  · trivial
  · trivial

theorem ends_ite {c : Prop} [Decidable c] {a b : Except Stop α} (ha : Ends P E a) (hb : Ends P E b) :
    Ends P E (if c then a else b) := by
  split
  · exact ha
  · exact hb

end Ends

/-! ### The LZW encoder raises no error -/

theorem define_raises (cfg : Config) (k p : Nat) (b : Byte) (x : Datapath) :
    Raises (fun _ => False) (define cfg k p b x) := by
  refine ends_ite ?_ trivial
  cases phrase cfg x.dict p <;> trivial

theorem encodeByte_raises (cfg : Config) (b : Byte) (x : Datapath) :
    Raises (fun _ => False) (encodeByte cfg b x) := by
  unfold encodeByte
  split
  · trivial
  · split
    · trivial
    · exact ends_ite (define_raises _ _ _ _ _).map trivial

theorem encodeLoop_raises (cfg : Config) (bytes : List Byte) (x : Datapath) :
    Raises (fun _ => False) (encodeLoop cfg bytes x) := by
  induction bytes generalizing x with
  | nil => trivial
  | cons b bytes ih => exact (encodeByte_raises cfg b x).bind fun _ => ih _

theorem compressLZW_raises (cfg : Config) (bytes : List Byte) :
    Raises (fun _ => False) (compressLZW cfg bytes) :=
  (encodeLoop_raises cfg bytes _).map

/-! ### The errors of a command -/

/-- A command's operation ends with DONE alone, or raises an error among `E`. -/
abbrev Reports (E : Err → Prop) (r : Except Stop State) : Prop := Ends (fun t => t.status = 0x2) E r

/-- READ_BITS and WRITE_BITS leave OUT_LEN and OUT_BUF as they are after an error (60_exceptions.md R231). -/
def keepsOutput : Instr → Bool
  | .readBits | .writeBits => true
  | _ => false

/-- A command that ends with ERROR is the error completion of an error that its operation raised. -/
theorem Reports.failed {E : Err → Prop} {keep : Bool} {s t : State} {r : Except Stop State} (hr : Reports E r)
    (h : finish keep (prologue s) r = .next t) (herror : errorFlag t.status = true) :
    ∃ e, E e ∧ t = raiseError keep e s := by
  rcases finish_eq_next h with rfl | ⟨e, rfl, rfl⟩
  · have hdone : t.status = 0x2 := hr
    rw [hdone] at herror
    exact absurd herror (by decide)
  · exact ⟨e, hr, raiseError_prologue keep e s⟩

section Reports

variable {E : Err → Prop} {s : State}

theorem checkInput_raises (codewords : Bool) (h : E ⟨.operandOutOfRange, .nothing, 0⟩) :
    Raises E (checkInput codewords s) :=
  ends_ite h (ends_ite h trivial)

theorem checkWidth_raises (h : E ⟨.operandOutOfRange, .nothing, 0⟩) : Raises E (checkWidth s) :=
  ends_ite h trivial

theorem deliver_reports (output : List Byte) (n : Option Nat) (h : E ⟨.outputFull, .byte, s.cfg.outCap⟩) :
    Reports E (deliver output n s) :=
  ends_ite h (ends_ok rfl)

end Reports

section Failed

variable {s t : State}

theorem readBits_failed (h : exec .readBits s = .next t) (herror : errorFlag t.status = true) :
    ∃ e, raisedBy s .readBits e ∧ t = raiseError true e s := by
  rw [exec_readBits] at h
  refine Reports.failed ?_ h herror
  refine (checkInput_raises false (.inl rfl)).bind fun _ => (checkWidth_raises (.inl rfl)).bind fun _ => ?_
  have hread : Raises (raisedBy s .readBits) (readBits s.cfg (inBytes s) s.argOffset.toNat (widthArg s)) :=
    ends_ite (.inr rfl) trivial
  exact hread.bind fun _ => ends_ok rfl

theorem writeBits_failed (h : exec .writeBits s = .next t) (herror : errorFlag t.status = true) :
    ∃ e, raisedBy s .writeBits e ∧ t = raiseError true e s := by
  rw [exec_writeBits] at h
  refine Reports.failed ?_ h herror
  have hwide : raisedBy s .writeBits ⟨.valueTooWide, .bit, s.argOffset.toNat⟩ := .inr (.inl rfl)
  have hpast : raisedBy s .writeBits ⟨.bitWritePastEnd, .bit, s.argOffset.toNat⟩ := .inr (.inr rfl)
  have hwrite (buf : List Byte) : Raises (raisedBy s .writeBits)
      (writeBits s.cfg buf s.argOffset.toNat s.argValue.toNat (widthArg s)) :=
    ends_ite hwide (ends_ite hpast trivial)
  exact (checkWidth_raises (.inl rfl)).bind fun _ =>
    ends_ite hwide (ends_ite hpast ((hwrite _).bind fun _ => ends_ok rfl))

/-- The errors of a command that reads IN_BUF: its check's, its operation's and the epilogue's. -/
theorem inputCommand_failed {E : Err → Prop} {codewords : Bool} {r : Except Stop (List Byte)}
    (h : inputCommand codewords r s = .next t) (herror : errorFlag t.status = true)
    (hoperand : E ⟨.operandOutOfRange, .nothing, 0⟩) (hr : Raises E r)
    (hfull : E ⟨.outputFull, .byte, s.cfg.outCap⟩) : ∃ e, E e ∧ t = raiseError false e s :=
  Reports.failed ((checkInput_raises codewords hoperand).bind fun _ => hr.bind fun output =>
    deliver_reports (s := prologue s) output none hfull) h herror

/-- The errors of a command that reads IMAGE: its operation's and the epilogue's. -/
theorem imageCommand_failed {E : Err → Prop} {r : Except Stop (List Byte × Nat)}
    (h : imageCommand r s = .next t) (herror : errorFlag t.status = true) (hr : Raises E r)
    (hfull : E ⟨.outputFull, .byte, s.cfg.outCap⟩) : ∃ e, E e ∧ t = raiseError false e s :=
  Reports.failed (hr.bind fun output => deliver_reports (s := prologue s) output.1 (some output.2) hfull) h herror

theorem rejectOpcode_failed (h : rejectOpcode s = .next t) (herror : errorFlag t.status = true) :
    ∃ e : Err, e = ⟨.illegalOpcode, .nothing, 0⟩ ∧ t = raiseError false e s :=
  Reports.failed (r := raise .illegalOpcode .nothing 0) rfl h herror

/-- A command that ends with ERROR is the error completion of an error that it raises there
(60_exceptions.md R231). -/
theorem exec_command_failed {i : Instr} (hi : isCommand s.cfg i = true) (h : exec i s = .next t)
    (herror : errorFlag t.status = true) : ∃ e, raisedBy s i e ∧ t = raiseError (keepsOutput i) e s := by
  cases i with
  | readBits => exact readBits_failed h herror
  | writeBits => exact writeBits_failed h herror
  | readCodewords =>
    rw [exec_readCodewords] at h
    exact imageCommand_failed h herror (Raises.map (raises_of fun _ => .inl)) (.inr rfl)
  | decompress =>
    rw [exec_decompress] at h
    exact imageCommand_failed h herror (raises_of fun _ => .inl) (.inr rfl)
  | packCodewords | lzwDecode | rleDecode | compress =>
    exact inputCommand_failed h herror (.inl rfl) (raises_of fun _ => .inr ∘ .inl) (.inr (.inr rfl))
  | lzwEncode =>
    rw [exec_lzwEncode] at h
    exact inputCommand_failed h herror (.inl rfl) ((compressLZW_raises _ _).mono fun _ => False.elim).map (.inr rfl)
  | rleEncode =>
    rw [exec_rleEncode] at h
    exact inputCommand_failed h herror (.inl rfl) trivial (.inr rfl)
  | reserved0 | reservedB | reservedC | reservedD | reservedE => exact rejectOpcode_failed h herror
  | softReset =>
    cases h
    exact absurd herror (show ¬errorFlag 0 = true by decide)
  | reset | endStream | lit _ | ref _ | kwk _ | invalid _ _ | rlit _ | esc _ => cases hi

end Failed

theorem keepsOutput_eq_true {i : Instr} : keepsOutput i = true ↔ i = .readBits ∨ i = .writeBits := by
  cases i <;> simp [keepsOutput]

/-- Settles O47: such an end is error completion, which writes STATUS, ERR and ERR_POS, and OUT_LEN and OUT_BUF where
it does not keep them. -/
theorem errorLeaves : Obligations.ErrorLeaves := by
  intro s t i hi h herror
  obtain ⟨e, he, rfl⟩ := exec_command_failed hi h herror
  refine ⟨rfl, ⟨e, he, rfl, rfl⟩, fun hbits => ?_, fun hread hwrite => ?_, rfl, rfl, rfl, rfl, rfl⟩
  · rw [keepsOutput_eq_true.2 hbits]
    exact ⟨rfl, rfl, rfl, rfl, rfl⟩
  · rw [Bool.eq_false_iff.2 (mt keepsOutput_eq_true.1 (not_or.2 ⟨hread, hwrite⟩))]
    exact ⟨rfl, rfl, rfl, rfl, rfl⟩

/-! ## Steps with no instruction -/

theorem fetch_streamEnd_expand {s : State} {ret : LzwReturn} {cws : List Nat} (hs : s.stage = .expand ret cws)
    (hend : cws.length ≤ s.dp.cur) : fetch s = .streamEnd := by
  simp only [fetch, hs, List.getElem?_eq_none hend]

theorem fetch_streamEnd_tokens {s : State} {n : Option Nat} {ys : List Byte} (hs : s.stage = .tokens n ys)
    (hend : ys.length ≤ s.dp.cur) : fetch s = .streamEnd := by
  simp only [fetch, hs, Nat.not_lt.2 hend, if_false]

theorem endOfStream_expand {s : State} {ret : LzwReturn} {cws : List Nat} (hs : s.stage = .expand ret cws) :
    endOfStream s = .next (afterError false 0x00022402 s.dp.cur s) := by
  simp only [endOfStream, hs]
  exact congrArg _ (raiseError_eq_afterError _ _ _ (by decide))

theorem endOfStream_tokens {s : State} {n : Option Nat} {ys : List Byte} (hs : s.stage = .tokens n ys) :
    endOfStream s = finish false s (deliver s.dp.outBytes n s) := by
  simp only [endOfStream, hs]

/-- The epilogue with BYTES_READ reported, where no error is recorded (45_commands.md R195). -/
theorem deliver_reported {s : State} {output : List Byte} (n : Nat) (herr : s.err = 0) (hpos : s.errPos = 0)
    (h : output.length ≤ s.cfg.outCap) :
    deliver output (some n) s = .ok { delivered output s with bytesRead := BitVec.ofNat 32 n } := by
  have hok : deliver output (some n) s = .ok { delivered output s with
      err := s.err, errPos := s.errPos, bytesRead := BitVec.ofNat 32 n } := deliver_fits (some n) h
  rw [hok, herr, hpos]
  rfl

/-- Settles O52: in a well-formed configuration, by the stage. -/
theorem stepWithoutInstruction : Obligations.StepWithoutInstruction := by
  intro s
  refine ⟨fun hill => ?illFormed, fun hwf => ⟨fun hs hq => ?idle, fun ret cws hs hend => ?expand,
    fun n ys hs hend herr hpos hfits => ?tokens⟩⟩
  case illFormed => rw [step, whenWf, hill, if_neg Bool.false_ne_true]
  case idle =>
    have hf : fetch s = .nothing := by simp only [fetch, hs, hq]
    rw [step_of_wf hwf, hf, stepPending]
  case expand => rw [step_streamEnd hwf (fetch_streamEnd_expand hs hend), endOfStream_expand hs]
  case tokens =>
    rw [step_streamEnd hwf (fetch_streamEnd_tokens hs hend), endOfStream_tokens hs]
    cases n with
    | none => exact congrArg (finish false s) (deliver_delivered herr hpos hfits)
    | some k => exact congrArg (finish false s) (deliver_reported k herr hpos hfits)

end Sys2Proof.Machine

namespace Sys2Proof.Machine

/-! ## Power-on reset -/

/-- Clearing the core's registers and emptying the buffers leaves no more than the power-on state of the same
configuration and image, and the model's own fields (70_reset_and_hazards.md R250, R251). -/
theorem applyAccess_powerOn (s : State) :
    applyAccess .powerOn s = .next
      { State.powerOn s.cfg s.image with
        host := s.host, hostData := s.hostData, draws := s.draws, epoch := s.epoch + 1 } := rfl

/-- Settles O57: an idle core takes the power-on access from the queue, and its effect is the power-on state. -/
theorem powerOnReset : Obligations.PowerOnReset := by
  intro s rest hwf hs hq
  rw [step_access hwf hs hq rfl, applyAccess_powerOn]

end Sys2Proof.Machine
